-- ==== Sys2Proof/Config.lean ====
section
/-! DEFINITION. The parameters of the engine (00_scope.md R6): the numbers the spec fixes, and the
two points it leaves OPEN as parameters (the boundary lane of `vslideup.vx`, the loader's register
numbers), which are constants without a body: nothing can be proved of their values. -/

namespace Sys2Proof.Config

/-- `NX`, the number of scalar registers (R6, R18). -/
abbrev NX : Nat := 32

/-- `NV`, the number of vector registers (R6, R22). -/
abbrev NV : Nat := 32

/-- `VLEN`, the lanes of a vector register and the maximum of `vl` (R6, R22). -/
abbrev VLEN : Nat := 128

/-- `MEM_WORDS`, the number of data-memory cells (R6, R27). -/
abbrev MEM_WORDS : Nat := 1024

/-- `XLEN`, the bits of a word (R6, R7). The width is the spec's own decision D2 (log entry 3). -/
abbrev XLEN : Nat := 32

/-- The largest literal an immediate operand accepts, `2^(XLEN-1) - 1` (R74). -/
abbrev IMM_MAX : Nat := 2147483647

/-- The two values of the OPEN parameter `SLIDEUP_BOUNDARY` (R6, R105, conflict C5). -/
inductive SlideupBoundary where
  /-- lane `vl - s` is zero-filled -/
  | natural
  /-- lane `vl - s` keeps its prior value -/
  | reference
deriving DecidableEq, Repr, Inhabited

/-- `SLIDEUP_BOUNDARY`, OPEN (R6, decision D17, log entry 4). -/
opaque slideupBoundary : SlideupBoundary

/-- A placement of the loader's fifteen registers that R6 and R137 allow: twelve from
`addrReg0` on, and three further ones, all distinct and all among `x1 .. x31`. -/
structure LoaderRegs where
  /-- `LOADER_ADDR_REG0` -/
  addrReg0 : Nat := 1
  /-- `REG_ACOLS` -/
  acols : Nat := 13
  /-- `REG_AROWS` -/
  arows : Nat := 14
  /-- `REG_CURSOR` -/
  cursor : Nat := 15
  /-- the constraints of R6 and R137 -/
  valid : (1 ≤ addrReg0 ∧ addrReg0 ≤ 20) ∧
    (1 ≤ acols ∧ acols < NX) ∧ (1 ≤ arows ∧ arows < NX) ∧ (1 ≤ cursor ∧ cursor < NX) ∧
    (acols < addrReg0 ∨ addrReg0 + 12 ≤ acols) ∧
    (arows < addrReg0 ∨ addrReg0 + 12 ≤ arows) ∧
    (cursor < addrReg0 ∨ addrReg0 + 12 ≤ cursor) ∧
    acols ≠ arows ∧ acols ≠ cursor ∧ arows ≠ cursor := by decide
deriving DecidableEq, Repr, Inhabited

/-- The loader's register numbers, OPEN (R6, R137, decision D25, log entry 5). -/
opaque loaderRegs : LoaderRegs

end Sys2Proof.Config
end

