-- ==== Sys2Proof/Word.lean ====
section
/-! DEFINITION. Words and their integer values (00_scope.md R7). -/

namespace Sys2Proof

/-- A word: the content of one scalar register, one vector lane or one memory cell (R7). -/
abbrev Word := BitVec Config.XLEN

/-- `sval(w)`: the two's-complement value of a word (R7). -/
def sval (w : Word) : Int := w.toInt

/-- `uval(w)`: the unsigned value of a word (R7). -/
def uval (w : Word) : Nat := w.toNat

/-- `word(n)`: the word whose unsigned value is `n mod 2^XLEN` (R7). -/
def wordOf (n : Int) : Word := BitVec.ofInt Config.XLEN n

end Sys2Proof
end

