-- ==== Sys2Proof/Syntax.lean ====
section
/-! DEFINITION. The decoded instructions (30_encoding.md R71 to R73): one constructor per row of
spec/opcode_table.json, carrying what decode yields: register indices, immediate words and target
indices. -/

namespace Sys2Proof

/-- The index of a scalar register (10_state.md R18). -/
abbrev XReg := Fin Config.NX

/-- The index of a vector register (10_state.md R22). -/
abbrev VReg := Fin Config.NV

/-- A decoded instruction of the closed set of 19 opcodes (R71, R72). -/
inductive Instr where
  /-- `addi rd, rs, imm` (R82) -/
  | addi (rd rs : XReg) (imm : Word)
  /-- `add rd, rs1, rs2` (R83) -/
  | add (rd rs1 rs2 : XReg)
  /-- `sub rd, rs1, rs2` (R84) -/
  | sub (rd rs1 rs2 : XReg)
  /-- `mul rd, rs1, rs2` (R85) -/
  | mul (rd rs1 rs2 : XReg)
  /-- `j label`, the label replaced by the index it names (R91) -/
  | j (target : Nat)
  /-- `beq rs1, rs2, label`, the label replaced by the index it names (R92) -/
  | beq (rs1 rs2 : XReg) (target : Nat)
  /-- `vconfig` (R95) -/
  | vconfig
  /-- `vsetvl rd, rs` (R96) -/
  | vsetvl (rd rs : XReg)
  /-- `vlw vd, offset(base)` (R97) -/
  | vlw (vd : VReg) (offset : Word) (base : XReg)
  /-- `vsw vs, offset(base)` (R98) -/
  | vsw (vs : VReg) (offset : Word) (base : XReg)
  /-- `vmv.x.s rd, vs` (R99) -/
  | vmvXS (rd : XReg) (vs : VReg)
  /-- `vmv.s.x vd, rs` (R100) -/
  | vmvSX (vd : VReg) (rs : XReg)
  /-- `vmv.v.x vd, rs` (R101) -/
  | vmvVX (vd : VReg) (rs : XReg)
  /-- `vmv.v.v vd, vs` (R102) -/
  | vmvVV (vd vs : VReg)
  /-- `vadd.vv vd, vs1, vs2` (R103) -/
  | vaddVV (vd vs1 vs2 : VReg)
  /-- `vmul.vx vd, vs, rs` (R104) -/
  | vmulVX (vd vs : VReg) (rs : XReg)
  /-- `vslideup.vx vd, vs, rs` (R105) -/
  | vslideupVX (vd vs : VReg) (rs : XReg)
  /-- `vslidedown.vx vd, vs, rs` (R106) -/
  | vslidedownVX (vd vs : VReg) (rs : XReg)
  /-- `vindexmv vd, vs, vidx` (R107) -/
  | vindexmv (vd vs vidx : VReg)
deriving DecidableEq, Repr

end Sys2Proof
end

