-- ==== Sys2Proof/Machine/Slot.lean ====
section
/-! DEFINITION. The instruction record the engine's instruction store holds (30_encoding.md R57,
R58), the label table, the opcode tokens' names and the operand kinds, and the named errors of the
assembler (60_exceptions.md R109) and of a step (R110). -/

namespace Sys2Proof

/-- A string of program text (a line, a token, a name), as the list of its characters. -/
abbrev Token := List Char

/-- The register class of a name or of a resolved base (R58, R69). -/
inductive RegClass where
  | X
  | V
deriving DecidableEq, Repr

/-- The index of a register of either class, `0..31` (R58, R68). -/
abbrev RegIndex := Fin 32

/-- An operand of a slot (R58). -/
inductive Operand where
  /-- `Imm(n)`, a natural number of any size -/
  | imm (n : Nat)
  /-- `Ident(s)`, an unresolved name -/
  | ident (s : Token)
  /-- `Reg(c, i)`, the base of a memory operand, resolved by the assembler -/
  | reg (c : RegClass) (i : RegIndex)
deriving DecidableEq, Repr

/-- One entry of the instruction stream (R58). -/
structure Slot where
  /-- the 1-based source line -/
  line : Nat
  /-- the opcode token, exactly as written -/
  opcode : Token
  operands : List Operand
deriving DecidableEq, Repr

/-- The label table: names bound to instruction indices, in the order of their definitions
(10_state.md R33, 30_encoding.md R62). -/
abbrev LabelTable := List (Token × Nat)

/-- What the assembler returns: the instruction stream and the label table (R70). -/
structure Program where
  slots : List Slot
  labels : LabelTable
deriving DecidableEq, Repr

/-- The 19 opcodes of R71. -/
inductive Opcode where
  | addi | add | sub | mul
  | j | beq
  | vconfig | vsetvl
  | vlw | vsw
  | vmvXS | vmvSX | vmvVX | vmvVV
  | vaddVV | vmulVX | vslideupVX | vslidedownVX | vindexmv
deriving DecidableEq, Repr

/-- The operand kinds of a shape (R72): scalar register, vector register, immediate, label. -/
inductive Kind where
  | X | V | I | L
deriving DecidableEq, Repr

/-- The three parse errors (R67, R109). -/
inductive ParseErrorKind where
  | malformedLabel
  | duplicateLabel
  | invalidRegister
deriving DecidableEq, Repr

/-- A parse error with the 1-based source line it is reported with (R67, R109). -/
structure ParseError where
  kind : ParseErrorKind
  line : Nat
deriving DecidableEq, Repr

/-- The register construct an `UnknownRegister` names: a token, or a base the assembler resolved
to the wrong class (R73). -/
inductive RegRef where
  | name (s : Token)
  | resolved (c : RegClass) (i : RegIndex)
deriving DecidableEq, Repr

/-- A fault code with the info it records (R110). -/
inductive FaultCause where
  /-- code 1, raised by decode: the opcode token (R111) -/
  | unknownOpcode (token : Token)
  /-- code 2, raised by decode: the operand count, or the index of the bad operand (R112) -/
  | badOperands (n : Nat)
  /-- code 3, raised by decode: the operand index and the register construct (R113) -/
  | unknownRegister (j : Nat) (what : RegRef)
  /-- code 4, raised by decode of `j` and `beq`: the label name (R114) -/
  | unknownLabel (name : Token)
  /-- code 5, raised by `vsetvl`: the negative request (R115) -/
  | vlNegative (request : Int)
  /-- code 6, raised by `vslideup.vx` and `vslidedown.vx`: the shift (R116) -/
  | slideOutOfRange (shift : Int)
  /-- code 7, raised by `vlw` and `vsw`: the first out-of-range lane address (R117) -/
  | memOutOfRange (address : Int)
  /-- code 8, raised by `vindexmv`: the lane and its index (R118) -/
  | vIndexOutOfRange (lane : Nat) (index : Int)
deriving DecidableEq, Repr

end Sys2Proof
end

