-- ==== Sys2Proof/Machine/Assembler.lean ====
section
/-! DEFINITION. The assembler (30_encoding.md R59 to R70): from ordered text lines to the
instruction stream and the label table, or the first parse error. Register-name resolution (R68)
stands here because the assembler resolves the base of a memory operand with it. -/

namespace Sys2Proof

/-! ### Characters -/

/-- ASCII space, tab, vertical tab, form feed, carriage return (R60, decision D31). -/
def isSpace (c : Char) : Bool :=
  c.toNat == 32 || c.toNat == 9 || c.toNat == 11 || c.toNat == 12 || c.toNat == 13

/-- An ASCII decimal digit (R65, decision D38). -/
def isDecDigit (c : Char) : Bool := decide (48 ≤ c.toNat) && decide (c.toNat ≤ 57)

/-- A binary digit (R65). -/
def isBinDigit (c : Char) : Bool := c.toNat == 48 || c.toNat == 49

/-- An ASCII letter (R61). -/
def isLetter (c : Char) : Bool :=
  (decide (65 ≤ c.toNat) && decide (c.toNat ≤ 90)) ||
  (decide (97 ≤ c.toNat) && decide (c.toNat ≤ 122))

/-- A character of an identifier after its first (R61). -/
def isIdentChar (c : Char) : Bool := isLetter c || isDecDigit c || c.toNat == 95

/-- The value of a digit character. -/
def digitValue (c : Char) : Nat := c.toNat - 48

/-- The character of a digit value. -/
def digitChar (d : Nat) : Char := Char.ofNat (48 + d)

/-- The value of a digit string in a base. -/
def numeralValue (base : Nat) (ds : Token) : Nat :=
  ds.foldl (fun n c => base * n + digitValue c) 0

/-! ### Register names (R68) -/

/-- The index a canonical decimal spells: `0 .. 31`, no sign, no leading zero (R68, decision D6). -/
def decimalIndex : Token → Option RegIndex
  | [d] => if isDecDigit d then some (Fin.ofNat 32 (digitValue d)) else none
  | [d, e] =>
    if isDecDigit d && isDecDigit e && d.toNat != 48
        && decide (10 * digitValue d + digitValue e < 32) then
      some (Fin.ofNat 32 (10 * digitValue d + digitValue e))
    else none
  | _ => none

/-- The ABI names and the scalar register each names (R68; all but `zero` are the spec's
general-knowledge table, decision D5, log entry 6). -/
def abiNames : List (Token × RegIndex) :=
  [("zero".toList, 0), ("ra".toList, 1), ("sp".toList, 2), ("gp".toList, 3), ("tp".toList, 4)]
  ++ [("t0".toList, 5), ("t1".toList, 6), ("t2".toList, 7), ("s0".toList, 8), ("s1".toList, 9)]
  ++ [("a0".toList, 10), ("a1".toList, 11), ("a2".toList, 12), ("a3".toList, 13)]
  ++ [("a4".toList, 14), ("a5".toList, 15), ("a6".toList, 16), ("a7".toList, 17)]
  ++ [("s2".toList, 18), ("s3".toList, 19), ("s4".toList, 20), ("s5".toList, 21)]
  ++ [("s6".toList, 22), ("s7".toList, 23), ("s8".toList, 24), ("s9".toList, 25)]
  ++ [("s10".toList, 26), ("s11".toList, 27)]
  ++ [("t3".toList, 28), ("t4".toList, 29), ("t5".toList, 30), ("t6".toList, 31)]

/-- The index of an ABI name (R68). -/
def abiIndex (name : Token) : Option RegIndex :=
  (abiNames.find? fun e => decide (e.1 = name)).map Prod.snd

/-- The numeric form `x<N>` or `v<N>` (R68). -/
def numericRegister : Token → Option (RegClass × RegIndex)
  | [] => none
  | c :: ds =>
    if c = 'x' then (decimalIndex ds).map fun i => (.X, i)
    else if c = 'v' then (decimalIndex ds).map fun i => (.V, i)
    else none

/-- `resolve(name)`: the class and index a register name names (R68). -/
def resolve (name : Token) : Option (RegClass × RegIndex) :=
  match numericRegister name with
  | some r => some r
  | none => (abiIndex name).map fun i => (.X, i)

/-! ### Lines and tokens -/

/-- Everything from the first `;` on is discarded (R60). -/
def stripComment (line : Token) : Token := line.takeWhile fun c => !decide (c = ';')

/-- Leading and trailing whitespace is removed (R60). -/
def trim (line : Token) : Token :=
  ((line.dropWhile isSpace).reverse.dropWhile isSpace).reverse

/-- Splitting on runs of whitespace; `cur` is the token being read, reversed. -/
def splitTokens (cur : Token) : Token → List Token
  | [] => if cur = [] then [] else [cur.reverse]
  | c :: cs =>
    if isSpace c then
      (if cur = [] then splitTokens [] cs else cur.reverse :: splitTokens [] cs)
    else splitTokens (c :: cur) cs

/-- The whitespace-separated tokens of a line (R63). -/
def tokensOf (line : Token) : List Token := splitTokens [] line

/-- Exactly one trailing `,` is removed if present (R63, decision D28). -/
def stripComma (tok : Token) : Token :=
  if tok.getLast? = some ',' then tok.dropLast else tok

/-- The identifier pattern `[a-zA-Z][a-zA-Z0-9_]*` (R61). -/
def isIdentifier : Token → Bool
  | [] => false
  | c :: cs => isLetter c && cs.all isIdentChar

/-! ### Operand classification (R65) -/

/-- Test 1: one or more ASCII decimal digits. -/
def decimalLiteral (tok : Token) : Option Nat :=
  if tok ≠ [] ∧ tok.all isDecDigit then some (numeralValue 10 tok) else none

/-- Test 2: `0b` and one or more binary digits. -/
def binaryLiteral : Token → Option Nat
  | '0' :: 'b' :: bs => if bs ≠ [] ∧ bs.all isBinDigit then some (numeralValue 2 bs) else none
  | _ => none

/-- Test 3: the whole token is `[0-9]+\(.*\)`; its digits and the text between the parentheses
(R65, R66, decision D42). -/
def memoryForm (tok : Token) : Option (Token × Token) :=
  let digits := tok.takeWhile isDecDigit
  match tok.dropWhile isDecDigit with
  | '(' :: rest =>
    if digits ≠ [] ∧ rest.getLast? = some ')' then some (digits, rest.dropLast) else none
  | _ => none

/-- The operands one operand token contributes (R65, R66); `none` is an unresolvable base register,
the parse error `InvalidRegister`. -/
def operandsOf (tok : Token) : Option (List Operand) :=
  match decimalLiteral tok with
  | some n => some [.imm n]
  | none =>
    match binaryLiteral tok with
    | some n => some [.imm n]
    | none =>
      match memoryForm tok with
      | some (digits, r) =>
        (resolve r).map fun b => [.imm (numeralValue 10 digits), .reg b.1 b.2]
      | none => some [.ident tok]

/-- The operands of the operand tokens, in order. -/
def operandList : List Token → Option (List Operand)
  | [] => some []
  | t :: ts =>
    match operandsOf (stripComma t), operandList ts with
    | some os, some rest => some (os ++ rest)
    | _, _ => none

/-! ### The label table -/

/-- The index the label table binds a name to. -/
def labelIndex : LabelTable → Token → Option Nat
  | [], _ => none
  | e :: rest, name => if e.1 = name then some e.2 else labelIndex rest name

/-! ### Assembling -/

/-- A label line's name is checked, then bound to the index of the next instruction (R61, R62). -/
def defineLabel (line : Nat) (p : Program) (name : Token) : Except ParseError Program :=
  if isIdentifier name = false then .error ⟨.malformedLabel, line⟩
  else if (labelIndex p.labels name).isSome then .error ⟨.duplicateLabel, line⟩
  else .ok { p with labels := p.labels ++ [(name, p.slots.length)] }

/-- An instruction line appends one slot; its operand count and kinds are not checked (R63, R64). -/
def appendInstruction (line : Nat) (p : Program) : List Token → Except ParseError Program
  | [] => .ok p
  | opcode :: rest =>
    match operandList rest with
    | none => .error ⟨.invalidRegister, line⟩
    | some operands => .ok { p with slots := p.slots ++ [⟨line, opcode, operands⟩] }

/-- One text line (R60 to R63). -/
def assembleLine (line : Nat) (p : Program) (text : Token) : Except ParseError Program :=
  let t := trim (stripComment text)
  if t = [] then .ok p
  else if t.getLast? = some ':' then defineLabel line p t.dropLast
  else appendInstruction line p (tokensOf t)

/-- The lines from line number `line` on, stopping at the first parse error (R67). -/
def assembleFrom (line : Nat) (p : Program) : List Token → Except ParseError Program
  | [] => .ok p
  | text :: rest =>
    match assembleLine line p text with
    | .error e => .error e
    | .ok p' => assembleFrom (line + 1) p' rest

/-- The assembler: lines are numbered from 1 in input order (R59, R70). -/
def assemble (lines : List Token) : Except ParseError Program := assembleFrom 1 ⟨[], []⟩ lines

end Sys2Proof
end

