-- ==== Sys2Proof/WellFormed.lean ====
section
/-! DEFINITION. When a decoded instruction is well-formed in a program of `n` slots, and when a
label table is. Register indices need no check: their types bound them. The well-formedness of a
whole assembled program, `WF` of R79, needs decode and stands in Decode.lean. -/

namespace Sys2Proof

/-- An immediate or offset operand is a word whose value the literal range of R74 admits. -/
def immediateWf (w : Word) : Bool := decide (uval w ≤ Config.IMM_MAX)

/-- A control-transfer target lies in `[0, N]` (R62, R90). -/
def targetWf (n t : Nat) : Bool := decide (t ≤ n)

/-- A decoded instruction is well-formed for a program of `n` slots (R72, R74, R90). -/
def Instr.wf (n : Nat) : Instr → Bool
  | .addi _ _ imm => immediateWf imm
  | .add _ _ _ => true
  | .sub _ _ _ => true
  | .mul _ _ _ => true
  | .j target => targetWf n target
  | .beq _ _ target => targetWf n target
  | .vconfig => true
  | .vsetvl _ _ => true
  | .vlw _ offset _ => immediateWf offset
  | .vsw _ offset _ => immediateWf offset
  | .vmvXS _ _ => true
  | .vmvSX _ _ => true
  | .vmvVX _ _ => true
  | .vmvVV _ _ => true
  | .vaddVV _ _ _ => true
  | .vmulVX _ _ _ => true
  | .vslideupVX _ _ _ => true
  | .vslidedownVX _ _ _ => true
  | .vindexmv _ _ _ => true

/-- Every label of the table is bound to an index in `[0, n]` (R62). -/
def labelsWithin (n : Nat) (labels : LabelTable) : Bool := labels.all fun e => targetWf n e.2

/-- No name is bound twice (R61). -/
def labelsDistinct (labels : LabelTable) : Bool := decide (labels.map Prod.fst).Nodup

end Sys2Proof
end

