-- ==== Sys2Proof/Decode.lean ====
section
/-! DEFINITION. Decode at dispatch (30_encoding.md R71 to R77), total on every slot and rejecting by
name; the well-formedness `WF` of an assembled program (R79); and, after it, the encoder: the slot
and the text line of a well-formed instruction, from the same tables. The hardware has no binary
encoding (R57): `decodeTableWord` reads the bits as program text (log entry 2). -/

namespace Sys2Proof

/-! ### The opcode map -/

/-- The opcode token of each opcode (R71). -/
def Opcode.token : Opcode → Token
  | .addi => "addi".toList
  | .add => "add".toList
  | .sub => "sub".toList
  | .mul => "mul".toList
  | .j => "j".toList
  | .beq => "beq".toList
  | .vconfig => "vconfig".toList
  | .vsetvl => "vsetvl".toList
  | .vlw => "vlw".toList
  | .vsw => "vsw".toList
  | .vmvXS => "vmv.x.s".toList
  | .vmvSX => "vmv.s.x".toList
  | .vmvVX => "vmv.v.x".toList
  | .vmvVV => "vmv.v.v".toList
  | .vaddVV => "vadd.vv".toList
  | .vmulVX => "vmul.vx".toList
  | .vslideupVX => "vslideup.vx".toList
  | .vslidedownVX => "vslidedown.vx".toList
  | .vindexmv => "vindexmv".toList

/-- The closed set of R71. -/
def allOpcodes : List Opcode :=
  [.addi, .add, .sub, .mul, .j, .beq, .vconfig, .vsetvl, .vlw, .vsw]
  ++ [.vmvXS, .vmvSX, .vmvVX, .vmvVV, .vaddVV, .vmulVX, .vslideupVX, .vslidedownVX, .vindexmv]

/-- The opcode a token is, matched as an exact, case-sensitive string (R71, R76). -/
def opcodeOf (token : Token) : Option Opcode := allOpcodes.find? fun o => decide (o.token = token)

/-- The operand shape of each opcode (R72). -/
def Opcode.shape : Opcode → List Kind
  | .addi => [.X, .X, .I]
  | .add => [.X, .X, .X]
  | .sub => [.X, .X, .X]
  | .mul => [.X, .X, .X]
  | .j => [.L]
  | .beq => [.X, .X, .L]
  | .vconfig => []
  | .vsetvl => [.X, .X]
  | .vlw => [.V, .I, .X]
  | .vsw => [.V, .I, .X]
  | .vmvXS => [.X, .V]
  | .vmvSX => [.V, .X]
  | .vmvVX => [.V, .X]
  | .vmvVV => [.V, .V]
  | .vaddVV => [.V, .V, .V]
  | .vmulVX => [.V, .V, .X]
  | .vslideupVX => [.V, .V, .X]
  | .vslidedownVX => [.V, .V, .X]
  | .vindexmv => [.V, .V, .V]

/-! ### The checks of R73, in their order -/

/-- The kind check of one operand (R73, R74). -/
def kindFits : Kind → Operand → Bool
  | .I, .imm n => decide (n ≤ Config.IMM_MAX)
  | .I, .ident _ => false
  | .I, .reg _ _ => false
  | .X, .imm _ => false
  | .X, .ident _ => true
  | .X, .reg _ _ => true
  | .V, .imm _ => false
  | .V, .ident _ => true
  | .V, .reg _ _ => true
  | .L, .imm _ => false
  | .L, .ident _ => true
  | .L, .reg _ _ => false

/-- The kind check, left to right from operand index `j`: the first bad operand. -/
def kindFault (j : Nat) : List Kind → List Operand → Option FaultCause
  | k :: ks, o :: os => if kindFits k o then kindFault (j + 1) ks os else some (.badOperands j)
  | _, _ => none

/-- The register class an operand slot needs (R69). -/
def Kind.regClass : Kind → Option RegClass
  | .X => some .X
  | .V => some .V
  | .I => none
  | .L => none

/-- The class and index a register operand resolves to (R73). -/
def operandRegister : Operand → Option (RegClass × RegIndex)
  | .ident s => resolve s
  | .reg c i => some (c, i)
  | .imm _ => none

/-- How a fault names a register operand (R73). -/
def operandRef : Operand → RegRef
  | .ident s => .name s
  | .reg c i => .resolved c i
  | .imm _ => .name []

/-- Whether an operand resolves to a register of class `c` (R69). -/
def registerFits (c : RegClass) (o : Operand) : Bool :=
  decide ((operandRegister o).map Prod.fst = some c)

/-- Register resolution, left to right from operand index `j`: the first that fails. -/
def registerFault (j : Nat) : List Kind → List Operand → Option FaultCause
  | k :: ks, o :: os =>
    match k.regClass with
    | none => registerFault (j + 1) ks os
    | some c =>
      if registerFits c o then registerFault (j + 1) ks os
      else some (.unknownRegister j (operandRef o))
  | _, _ => none

/-- The name of a label operand. -/
def operandName : Operand → Token
  | .ident s => s
  | .reg _ _ => []
  | .imm _ => []

/-- Label resolution, left to right: the first name the table does not bind (R73, R75). -/
def labelFault (labels : LabelTable) : List Kind → List Operand → Option FaultCause
  | k :: ks, o :: os =>
    if k = .L ∧ labelIndex labels (operandName o) = none then
      some (.unknownLabel (operandName o))
    else labelFault labels ks os
  | _, _ => none

/-- The operand checks of R73 for a known opcode: the count, then kinds, registers, labels. -/
def operandFault (labels : LabelTable) (op : Opcode) (ops : List Operand) : Option FaultCause :=
  if ops.length ≠ op.shape.length then some (.badOperands ops.length)
  else
    match kindFault 0 op.shape ops with
    | some f => some f
    | none =>
      match registerFault 0 op.shape ops with
      | some f => some f
      | none => labelFault labels op.shape ops

/-! ### Building the decoded instruction

These read the operands of a slot that passed the checks; the values for other operands are never
used. -/

/-- Operand `j` as a register index (R73). -/
def registerArg (ops : List Operand) (j : Nat) : RegIndex :=
  match ops[j]? with
  | none => 0
  | some o =>
    match operandRegister o with
    | some r => r.2
    | none => 0

/-- Operand `j` as an immediate word, `word(n)` (R74). -/
def immediateArg (ops : List Operand) (j : Nat) : Word :=
  match ops[j]? with
  | some (.imm n) => wordOf n
  | _ => 0

/-- Operand `j` as a target index, `labels[s]` (R75). -/
def targetArg (labels : LabelTable) (ops : List Operand) (j : Nat) : Nat :=
  match ops[j]? with
  | none => 0
  | some o =>
    match labelIndex labels (operandName o) with
    | some t => t
    | none => 0

/-- The decoded instruction of a checked slot (R73). -/
def buildInstr (labels : LabelTable) (ops : List Operand) : Opcode → Instr
  | .addi => .addi (registerArg ops 0) (registerArg ops 1) (immediateArg ops 2)
  | .add => .add (registerArg ops 0) (registerArg ops 1) (registerArg ops 2)
  | .sub => .sub (registerArg ops 0) (registerArg ops 1) (registerArg ops 2)
  | .mul => .mul (registerArg ops 0) (registerArg ops 1) (registerArg ops 2)
  | .j => .j (targetArg labels ops 0)
  | .beq => .beq (registerArg ops 0) (registerArg ops 1) (targetArg labels ops 2)
  | .vconfig => .vconfig
  | .vsetvl => .vsetvl (registerArg ops 0) (registerArg ops 1)
  | .vlw => .vlw (registerArg ops 0) (immediateArg ops 1) (registerArg ops 2)
  | .vsw => .vsw (registerArg ops 0) (immediateArg ops 1) (registerArg ops 2)
  | .vmvXS => .vmvXS (registerArg ops 0) (registerArg ops 1)
  | .vmvSX => .vmvSX (registerArg ops 0) (registerArg ops 1)
  | .vmvVX => .vmvVX (registerArg ops 0) (registerArg ops 1)
  | .vmvVV => .vmvVV (registerArg ops 0) (registerArg ops 1)
  | .vaddVV => .vaddVV (registerArg ops 0) (registerArg ops 1) (registerArg ops 2)
  | .vmulVX => .vmulVX (registerArg ops 0) (registerArg ops 1) (registerArg ops 2)
  | .vslideupVX => .vslideupVX (registerArg ops 0) (registerArg ops 1) (registerArg ops 2)
  | .vslidedownVX => .vslidedownVX (registerArg ops 0) (registerArg ops 1) (registerArg ops 2)
  | .vindexmv => .vindexmv (registerArg ops 0) (registerArg ops 1) (registerArg ops 2)

/-- `decode(slot, labels)`: the decoded instruction, or the first fault in the order of R73. -/
def decode (labels : LabelTable) (slot : Slot) : Except FaultCause Instr :=
  match opcodeOf slot.opcode with
  | none => .error (.unknownOpcode slot.opcode)
  | some op =>
    match operandFault labels op slot.operands with
    | some f => .error f
    | none => .ok (buildInstr labels slot.operands op)

/-! ### Well-formed programs (R79) -/

/-- The fault decode raises on a slot, if any. -/
def decodeFault (labels : LabelTable) (slot : Slot) : Option FaultCause :=
  match decode labels slot with
  | .error f => some f
  | .ok _ => none

/-- The first slot, from index `k` on, that decode faults on. -/
def firstDecodeFault (labels : LabelTable) (k : Nat) : List Slot → Option (Nat × FaultCause)
  | [] => none
  | slot :: rest =>
    match decodeFault labels slot with
    | some f => some (k, f)
    | none => firstDecodeFault labels (k + 1) rest

/-- `WF`: decode raises no fault for any slot (R79). -/
def Program.wf (p : Program) : Bool := p.slots.all fun slot => (decodeFault p.labels slot).isNone

/-! ### The encoder -/

/-- The opcode of an instruction. -/
def Instr.opcode : Instr → Opcode
  | .addi _ _ _ => .addi
  | .add _ _ _ => .add
  | .sub _ _ _ => .sub
  | .mul _ _ _ => .mul
  | .j _ => .j
  | .beq _ _ _ => .beq
  | .vconfig => .vconfig
  | .vsetvl _ _ => .vsetvl
  | .vlw _ _ _ => .vlw
  | .vsw _ _ _ => .vsw
  | .vmvXS _ _ => .vmvXS
  | .vmvSX _ _ => .vmvSX
  | .vmvVX _ _ => .vmvVX
  | .vmvVV _ _ => .vmvVV
  | .vaddVV _ _ _ => .vaddVV
  | .vmulVX _ _ _ => .vmulVX
  | .vslideupVX _ _ _ => .vslideupVX
  | .vslidedownVX _ _ _ => .vslidedownVX
  | .vindexmv _ _ _ => .vindexmv

/-- The canonical decimal of a register index (R68). -/
def indexDigits (i : RegIndex) : Token :=
  if i.val < 10 then [digitChar i.val] else [digitChar (i.val / 10), digitChar (i.val % 10)]

/-- The numeric name of a register (R68). -/
def regName : RegClass → RegIndex → Token
  | .X, i => 'x' :: indexDigits i
  | .V, i => 'v' :: indexDigits i

/-- The operand that names a scalar register. -/
def xOperand (r : XReg) : Operand := .ident (regName .X r)

/-- The operand that names a vector register. -/
def vOperand (r : VReg) : Operand := .ident (regName .V r)

/-- The operand of an immediate word. -/
def immOperand (w : Word) : Operand := .imm (uval w)

/-- A label name the table resolves to the index `t`, if there is one. -/
def labelNamed (labels : LabelTable) (t : Nat) : Option Token :=
  (labels.find? fun e => decide (labelIndex labels e.1 = some t)).map Prod.fst

/-- The operands of an instruction, in the order of its shape (R72); a memory operand is in the
form `offset(base)`. `none` when no label names a target. -/
def encodeOperands (labels : LabelTable) : Instr → Option (List Operand)
  | .addi rd rs imm => some [xOperand rd, xOperand rs, immOperand imm]
  | .add rd rs1 rs2 => some [xOperand rd, xOperand rs1, xOperand rs2]
  | .sub rd rs1 rs2 => some [xOperand rd, xOperand rs1, xOperand rs2]
  | .mul rd rs1 rs2 => some [xOperand rd, xOperand rs1, xOperand rs2]
  | .j t => (labelNamed labels t).map fun l => [.ident l]
  | .beq rs1 rs2 t => (labelNamed labels t).map fun l => [xOperand rs1, xOperand rs2, .ident l]
  | .vconfig => some []
  | .vsetvl rd rs => some [xOperand rd, xOperand rs]
  | .vlw vd offset base => some [vOperand vd, immOperand offset, .reg .X base]
  | .vsw vs offset base => some [vOperand vs, immOperand offset, .reg .X base]
  | .vmvXS rd vs => some [xOperand rd, vOperand vs]
  | .vmvSX vd rs => some [vOperand vd, xOperand rs]
  | .vmvVX vd rs => some [vOperand vd, xOperand rs]
  | .vmvVV vd vs => some [vOperand vd, vOperand vs]
  | .vaddVV vd vs1 vs2 => some [vOperand vd, vOperand vs1, vOperand vs2]
  | .vmulVX vd vs rs => some [vOperand vd, vOperand vs, xOperand rs]
  | .vslideupVX vd vs rs => some [vOperand vd, vOperand vs, xOperand rs]
  | .vslidedownVX vd vs rs => some [vOperand vd, vOperand vs, xOperand rs]
  | .vindexmv vd vs vidx => some [vOperand vd, vOperand vs, vOperand vidx]

/-- The slot of an instruction at a source line. -/
def encode (labels : LabelTable) (line : Nat) (i : Instr) : Option Slot :=
  (encodeOperands labels i).map fun ops => ⟨line, i.opcode.token, ops⟩

/-- The decimal text of a natural number (R65). -/
def decimalText (n : Nat) : Token := Nat.toDigits 10 n

/-- The text of a slot's operands, an offset and its resolved base joined into the memory form
(R63, R66). -/
def operandText : List Operand → List Token
  | [] => []
  | .imm n :: .reg c i :: rest =>
    (decimalText n ++ '(' :: regName c i ++ [')']) :: operandText rest
  | .imm n :: rest => decimalText n :: operandText rest
  | .ident s :: rest => s :: operandText rest
  | .reg c i :: rest => regName c i :: operandText rest

/-- Operand tokens set out with a comma after each but the last (R78). -/
def joinOperands : List Token → Token
  | [] => []
  | [t] => ' ' :: t
  | t :: u :: rest => ' ' :: t ++ ',' :: joinOperands (u :: rest)

/-- The text line of a slot (R78). -/
def lineText (slot : Slot) : Token := slot.opcode ++ joinOperands (operandText slot.operands)

/-! ### Bits read as text (log entry 2) -/

/-- The first `n` bytes of `w`, the least significant first, as characters. -/
def charsOf : Nat → Nat → Token
  | 0, _ => []
  | n + 1, w => Char.ofNat (w % 256) :: charsOf n (w / 256)

/-- The lines of a text in which a line feed ends a line. -/
def splitLines (cur : Token) : Token → List Token
  | [] => [cur.reverse]
  | c :: cs => if c.toNat = 10 then cur.reverse :: splitLines [] cs else splitLines (c :: cur) cs

/-- The program text the low `nbits` bits of `w` hold: bytes, the first the least significant, up
to the first zero byte. -/
def textOfBits (nbits w : Nat) : List Token :=
  splitLines [] ((charsOf ((nbits + 7) / 8) w).takeWhile fun c => !decide (c.toNat = 0))

/-- The program those bits assemble to, if they do. -/
def programOfBits (nbits w : Nat) : Option Program :=
  match assemble (textOfBits nbits w) with
  | .ok p => some p
  | .error _ => none

/-- The instruction the decoder reads from the first slot of the text the bits hold; `none` where
the text does not assemble, holds no instruction, or decode faults. The hardware has no bit
encoding (R57), so the bits are program text (log entry 2). -/
def decodeTableWord (nbits w : Nat) : Option Instr :=
  match programOfBits nbits w with
  | none => none
  | some p =>
    match p.slots with
    | [] => none
    | slot :: _ =>
      match decode p.labels slot with
      | .ok i => some i
      | .error _ => none

end Sys2Proof
end

