-- ==== Sys2Proof/Machine/State.lean ====
section
/-! DEFINITION. The engine's state (10_state.md), all of it, as plain data; the reasons a step or a
launch stops; and the state right after reset (R37, R132). -/

namespace Sys2Proof.Machine

/-- The content of a vector register: `VLEN` word lanes (R22). -/
abbrev VecReg := Vector Word Config.VLEN

/-- Data memory (R27, R39): the listed cells, each an address and its word, addresses strictly
rising and no listed word 0; an unlisted address reads as 0, the reset value R27 gives. The smallest
addressable unit of this hardware is the word (R46), so a cell holds a word (log entry 1). -/
abbrev Memory := List (Nat × Word)

/-- The canonical form of memory: addresses strictly rising from `lo` on and below `MEM_WORDS`, and
no listed word equal to what an unlisted address reads as. -/
def Memory.wfFrom (lo : Nat) : Memory → Bool
  | [] => true
  | c :: rest =>
    decide (lo ≤ c.1) && decide (c.1 < Config.MEM_WORDS) && decide (c.2 ≠ 0)
      && Memory.wfFrom (c.1 + 1) rest

/-- The canonical form of memory. -/
def Memory.wf (m : Memory) : Bool := Memory.wfFrom 0 m

/-- A fault record: the cause (its code and info) and the index of the faulting instruction
(R31, R119). -/
structure FaultRecord where
  cause : FaultCause
  fpc : Nat
deriving DecidableEq, Repr

/-- The run status (R30). -/
inductive RunStatus where
  | running
  | halted
  | faulted
deriving DecidableEq, Repr

/-- The architectural state of the engine (10_state.md). -/
structure State where
  /-- the scalar registers (R18) -/
  x : Vector Word Config.NX
  /-- the vector registers (R22) -/
  vr : Vector VecReg Config.NV
  /-- the active vector length (R25) -/
  vl : Nat
  /-- data memory (R27) -/
  mem : Memory
  /-- the program counter, an instruction index (R26) -/
  pc : Nat
  /-- the number of retired instructions (R28) -/
  cycles : Nat
  /-- the number of lanes transferred by vector loads and stores (R29) -/
  memAccesses : Nat
  /-- the element count of the output matrix (R32) -/
  outCount : Nat
  /-- the fault record, `none` until a step faults (R31) -/
  fault : Option FaultRecord
  /-- the instruction stream (R33) -/
  slots : List Slot
  /-- the label table (R33) -/
  labels : LabelTable
  /-- whether the loader has been called; R139 allows one call (log entry 8) -/
  csrLoaded : Bool
  /-- whether a program has been loaded; R142 allows one load (log entry 8) -/
  programLoaded : Bool
deriving DecidableEq, Repr

/-- Why a step answers no successor. The spec's own faults (R110) are not here: a step that raises
one goes to the Faulted state, which is a next state (R120, log entry 7). -/
inductive Fault where
  /-- Raised by `step` in the Halted state, which has no successor (R86). Safe: nothing is claimed
  of a step the engine does not take. -/
  | halted
  /-- Raised by `step` in the Faulted state, which has no successor (R86, R120), with the record
  that state holds. Safe: as for `halted`. -/
  | faulted (record : FaultRecord)
deriving DecidableEq, Repr

/-- Why the loader refuses a call (R139). -/
inductive LoaderRefusal where
  /-- a row has another length than the matrix's column count -/
  | notRectangular
  /-- an entry lies outside the signed range of a word -/
  | entryTooLarge
  /-- the six arrays do not fit in data memory -/
  | arraysTooLarge
  /-- the loader has been called before -/
  | secondCall
deriving DecidableEq, Repr

/-- Why something is refused: an instruction without a meaning, or a host transaction that the spec
does not admit (R10, R80, R139, R142). -/
inductive Refusal where
  /-- Raised by a refused arm of `exec`. Safe. -/
  | notModelled (mnemonic : String)
  /-- Raised by `loadProgram`: the assembler's first parse error (R67, R109). Safe: the launch is
  refused as a whole. -/
  | parse (error : ParseError)
  /-- Raised by `loadProgram`: the program is not `WF`; the first slot decode faults on (R80). Safe. -/
  | notWellFormed (index : Nat) (cause : FaultCause)
  /-- Raised by `loadProgram` when a program is already loaded (R142). Safe. -/
  | programAlreadyLoaded
  /-- Raised by `loadCsr` (R139). Safe. -/
  | loader (reason : LoaderRefusal)
  /-- Raised by every host transaction after the first step (R140, R142). Safe. -/
  | afterFirstStep
  /-- Raised by a preload that names `x0` or an address outside data memory (R140, log entry 9).
  Safe. -/
  | noSuchTarget
deriving DecidableEq, Repr

/-- The state right after reset, engine construction (R37, R132): every field at the value the spec
gives; no program is loaded. -/
def State.reset : State where
  x := Vector.replicate Config.NX 0
  vr := Vector.replicate Config.NV (Vector.replicate Config.VLEN 0)
  vl := 0
  mem := []
  pc := 0
  cycles := 0
  memAccesses := 0
  outCount := 0
  fault := none
  slots := []
  labels := []
  csrLoaded := false
  programLoaded := false

end Sys2Proof.Machine
end

