-- ==== Sys2Proof/Machine/Ops.lean ====
section
/-! DEFINITION. The named operations over registers, lanes, memory and the control state that every
meaning is written with (00_scope.md R8), retirement (41_control.md R89), and taking a fault
(60_exceptions.md R120). -/

namespace Sys2Proof.Machine

/-! ### Scalar registers (R18, R19) -/

/-- `x[i]`: register 0 reads as the zero word (R8, R19, log entry 10). -/
def readX (s : State) (i : XReg) : Word := if i = 0 then 0 else s.x[i]

/-- `x[i] <- v`: discarded when `i = 0` (R8, R19). -/
def writeX (i : XReg) (v : Word) (s : State) : State :=
  if i = 0 then s else { s with x := s.x.set i v }

/-! ### Vector registers and lanes (R22, R23) -/

/-- Lane `k` of a vector register's content; there is no lane at or above `VLEN` (log entry 11). -/
def VecReg.lane (v : VecReg) (k : Nat) : Word := if h : k < Config.VLEN then v[k] else 0

/-- The content whose lane `k` is `f k`. -/
def VecReg.ofFn (f : Nat → Word) : VecReg := Vector.ofFn fun k => f k.val

/-- The content with lane `k` replaced. -/
def VecReg.setLane (v : VecReg) (k : Nat) (w : Word) : VecReg := v.setIfInBounds k w

/-- Lane gating (R23): the lanes `[0, n)` are `f`'s, the others keep what `old` holds. -/
def VecReg.gated (n : Nat) (old : VecReg) (f : Nat → Word) : VecReg :=
  VecReg.ofFn fun k => if k < n then f k else old.lane k

/-- The content of vector register `d`. -/
def readV (s : State) (d : VReg) : VecReg := s.vr[d]

/-- The content of vector register `d` becomes `v`. -/
def writeV (d : VReg) (v : VecReg) (s : State) : State := { s with vr := s.vr.set d v }

/-- `vr[d][k]` (R8). -/
def readLane (s : State) (d : VReg) (k : Nat) : Word := (readV s d).lane k

/-! ### The vector length and the counters (R25, R29) -/

/-- `vl <- n`. -/
def setVl (n : Nat) (s : State) : State := { s with vl := n }

/-- `mem_accesses <- mem_accesses + n`. -/
def countAccesses (n : Nat) (s : State) : State := { s with memAccesses := s.memAccesses + n }

/-! ### Data memory (R39 to R45) -/

/-- What an address reads as when memory lists no cell for it: the reset content (R27). -/
def Memory.unlisted : Word := 0

/-- The word at an address. -/
def Memory.read : Memory → Nat → Word
  | [], _ => Memory.unlisted
  | c :: rest, a => if c.1 = a then c.2 else Memory.read rest a

/-- The memory with one word written, kept in canonical form. -/
def Memory.write : Memory → Nat → Word → Memory
  | [], a, w => if w = Memory.unlisted then [] else [(a, w)]
  | c :: rest, a, w =>
    if a < c.1 then (if w = Memory.unlisted then c :: rest else (a, w) :: c :: rest)
    else if c.1 = a then (if w = Memory.unlisted then rest else (a, w) :: rest)
    else c :: Memory.write rest a w

/-- The memory with the words of a list written from an address on. -/
def Memory.writeList : Memory → Nat → List Word → Memory
  | m, _, [] => m
  | m, a, w :: ws => Memory.writeList (Memory.write m a w) (a + 1) ws

/-- `mem[a]`. -/
def readCell (s : State) (a : Nat) : Word := Memory.read s.mem a

/-- `MemRead(a, n)`; a meaning calls it only after the range check (R42). -/
def memRead (s : State) (a : Int) (n : Nat) : List Word :=
  (List.range n).map fun k : Nat => readCell s (a + (k : Int)).toNat

/-- `MemWrite(a, n, vs)` with `n` the length of `vs`; a meaning calls it only after the range check
(R43). -/
def memWrite (a : Int) (vs : List Word) (s : State) : State :=
  { s with mem := Memory.writeList s.mem a.toNat vs }

/-- Whether an integer is an address of data memory (R39). -/
def inMemory (a : Int) : Bool := decide (0 ≤ a) && decide (a < (Config.MEM_WORDS : Int))

/-- The range check of `n` lanes from `ea` on (R45): the first lane address outside memory. -/
def firstOutOfRange (ea : Int) (n : Nat) : Option Int :=
  ((List.range n).map fun k : Nat => ea + (k : Int)).find? fun a => !inMemory a

/-! ### Retirement (R89) -/

/-- An instruction retires: the pc goes to the redirect target `t` if there is one and to the next
index otherwise, `cycles` counts one, and register 0 is reset to 0 (R89). -/
def retire (t : Option Nat) (s : State) : State :=
  { s with
    pc := t.getD (s.pc + 1)
    cycles := s.cycles + 1
    x := s.x.set 0 0 }

/-! ### Taking a fault (R119, R120)

There is no return beside it: a fault ends the run, and no instruction returns from one (R122). -/

/-- Fault entry (R120): the record takes the cause and the current pc, and nothing else changes. -/
def takeFault (cause : FaultCause) (s : State) : State :=
  { s with fault := some ⟨cause, s.pc⟩ }

/-- The numeric code of a fault (R110; the spec's own numbers, decision D9). -/
def faultCode : FaultCause → Nat
  | .unknownOpcode _ => 1
  | .badOperands _ => 2
  | .unknownRegister _ _ => 3
  | .unknownLabel _ => 4
  | .vlNegative _ => 5
  | .slideOutOfRange _ => 6
  | .memOutOfRange _ => 7
  | .vIndexOutOfRange _ _ => 8

/-! ### The run status and fetch (R30, R87) -/

/-- The run status, derived from the fault record, the pc and `N` (R30). -/
def status (s : State) : RunStatus :=
  if s.fault ≠ none then .faulted
  else if s.pc < s.slots.length then .running
  else .halted

/-- Fetch: the slot at the pc (R87); there is none when the engine is Halted. -/
def fetch (s : State) : Option Slot := s.slots[s.pc]?

end Sys2Proof.Machine
end

