-- ==== Sys2Proof/Machine/Operands.lean ====
section
/-! DEFINITION. The operand forms of the meanings: signed register and immediate values, the one
addressing mode (20_memory.md R44), slide shifts (45_vector_arith.md R105, R106) and scatter
indices (R107). -/

namespace Sys2Proof.Machine

/-- `sval(x[r])`: a scalar register read as a signed integer (R7, R18). -/
def signedX (s : State) (r : XReg) : Int := sval (readX s r)

/-- `sval(vr[d][k])`: a lane read as a signed integer. -/
def signedLane (s : State) (d : VReg) (k : Nat) : Int := sval (readLane s d k)

/-- `ea = sval(x[base]) + sval(offset)`, an integer that does not wrap (R44, decision D40). -/
def effectiveAddress (s : State) (base : XReg) (offset : Word) : Int :=
  signedX s base + sval offset

/-- The range check of a vector load or store of `vl` lanes (R45). -/
def transferFault (s : State) (ea : Int) : Option FaultCause :=
  (firstOutOfRange ea s.vl).map FaultCause.memOutOfRange

/-- The lanes `[0, vl)` of a register, in order. -/
def activeLanes (s : State) (d : VReg) : List Word := (List.range s.vl).map fun k => readLane s d k

/-- The range check of a slide's shift: `0 <= s <= vl` (R105, R106, decision D15). -/
def slideFault (s : State) (shift : Int) : Option FaultCause :=
  if shift < 0 ∨ (s.vl : Int) < shift then some (.slideOutOfRange shift) else none

/-- Whether an integer is a lane index of a vector register (R107). -/
def isLaneIndex (j : Int) : Bool := decide (0 ≤ j) && decide (j < (Config.VLEN : Int))

/-- The bounds check of a scatter (R107): the first active lane whose index is outside
`[0, VLEN)`. -/
def scatterFault (s : State) (vidx : VReg) : Option FaultCause :=
  ((List.range s.vl).find? fun i => !isLaneIndex (signedLane s vidx i)).map fun i =>
    FaultCause.vIndexOutOfRange i (signedLane s vidx i)

/-- The writes of a scatter of the active lanes, in ascending order, so that a later lane
overwrites (R107, decision D19). -/
def scatter (s : State) (vs vidx : VReg) (old : VecReg) : VecReg :=
  (List.range s.vl).foldl
    (fun v i => v.setLane (signedLane s vidx i).toNat (readLane s vs i)) old

end Sys2Proof.Machine
end

