-- ==== Sys2Proof/Machine/Flags.lean ====
section
/-! DEFINITION. The engine has no flags, condition codes or predicate registers (10_state.md R34),
and arithmetic detects no overflow (40_scalar_alu.md R81). The only condition is `beq`'s, computed
from the two registers and left nowhere (41_control.md R92). -/

namespace Sys2Proof.Machine

/-- `beq`'s condition: the two words are equal (R92). -/
def branchTaken (s : State) (rs1 rs2 : XReg) : Bool := decide (readX s rs1 = readX s rs2)

end Sys2Proof.Machine
end

