-- ==== Sys2Proof/Machine/Control.lean ====
section
/-! DEFINITION. The control-transfer instructions (41_control.md). Decode has replaced the label by
the index it names (R75, R90). -/

namespace Sys2Proof.Machine

/-- `j label`: a redirect, whatever the target, its own index too (R91, decision D13). -/
def execJ (target : Nat) (s : State) : Host.Outcome State Fault Refusal :=
  .next (retire (some target) s)

/-- `beq rs1, rs2, label`: a redirect when the words are equal (R92). -/
def execBeq (rs1 rs2 : XReg) (target : Nat) (s : State) : Host.Outcome State Fault Refusal :=
  .next (retire (if branchTaken s rs1 rs2 then some target else none) s)

end Sys2Proof.Machine
end

