-- ==== Sys2Proof/Machine/ScalarAlu.lean ====
section
/-! DEFINITION. The scalar arithmetic instructions (40_scalar_alu.md): results are computed on
integers and reduced to a word (R81, log entry 3). -/

namespace Sys2Proof.Machine

/-- The register writes of a scalar arithmetic instruction, retired (R81, R89). -/
def aluResult (rd : XReg) (n : Int) (s : State) : Host.Outcome State Fault Refusal :=
  .next (retire none (writeX rd (wordOf n) s))

/-- `addi rd, rs, imm` (R82). -/
def execAddi (rd rs : XReg) (imm : Word) (s : State) : Host.Outcome State Fault Refusal :=
  aluResult rd (signedX s rs + sval imm) s

/-- `add rd, rs1, rs2` (R83). -/
def execAdd (rd rs1 rs2 : XReg) (s : State) : Host.Outcome State Fault Refusal :=
  aluResult rd (signedX s rs1 + signedX s rs2) s

/-- `sub rd, rs1, rs2` (R84). -/
def execSub (rd rs1 rs2 : XReg) (s : State) : Host.Outcome State Fault Refusal :=
  aluResult rd (signedX s rs1 - signedX s rs2) s

/-- `mul rd, rs1, rs2` (R85). -/
def execMul (rd rs1 rs2 : XReg) (s : State) : Host.Outcome State Fault Refusal :=
  aluResult rd (signedX s rs1 * signedX s rs2) s

end Sys2Proof.Machine
end

