-- ==== Sys2Proof/Machine/VectorArith.lean ====
section
/-! DEFINITION. The vector arithmetic, slide and scatter instructions (45_vector_arith.md). Every
source is read from the state before the instruction (00_scope.md R9, decision D18). -/

namespace Sys2Proof.Machine

/-- `vadd.vv vd, vs1, vs2`: all `VLEN` lanes, `vl` ignored (R103). -/
def execVaddVV (vd vs1 vs2 : VReg) (s : State) : Host.Outcome State Fault Refusal :=
  .next (retire none (writeV vd
    (VecReg.ofFn fun k => wordOf (signedLane s vs1 k + signedLane s vs2 k)) s))

/-- `vmul.vx vd, vs, rs`: the lanes `[0, vl)` (R104). -/
def execVmulVX (vd vs : VReg) (rs : XReg) (s : State) : Host.Outcome State Fault Refusal :=
  .next (retire none (writeV vd
    ((readV s vd).gated s.vl fun k => wordOf (signedLane s vs k * signedX s rs)) s))

/-- Lane `k` of the destination of a slide toward lane 0 by `n`, for `k` in `[0, vl)`, under each
value of the parameter (R105). -/
def slideUpLane (boundary : Config.SlideupBoundary) (s : State) (vd vs : VReg) (n k : Nat) : Word :=
  if k < s.vl - n then readLane s vs (k + n)
  else
    match boundary with
    | .natural => 0
    | .reference => if k = s.vl - n then readLane s vd k else 0

/-- `vslideup.vx` under a given value of `SLIDEUP_BOUNDARY` (R105). -/
def slideUp (boundary : Config.SlideupBoundary) (vd vs : VReg) (rs : XReg) (s : State) :
    Host.Outcome State Fault Refusal :=
  match slideFault s (signedX s rs) with
  | some cause => .next (takeFault cause s)
  | none =>
    .next (retire none (writeV vd
      ((readV s vd).gated s.vl (slideUpLane boundary s vd vs (signedX s rs).toNat)) s))

/-- `vslideup.vx vd, vs, rs`: the boundary lane is the OPEN parameter's (R105, conflict C5,
log entry 4). -/
def execVslideupVX (vd vs : VReg) (rs : XReg) (s : State) : Host.Outcome State Fault Refusal :=
  slideUp Config.slideupBoundary vd vs rs s

/-- Lane `k` of the destination of a slide away from lane 0 by `n` (R106). -/
def slideDownLane (s : State) (vs : VReg) (n k : Nat) : Word :=
  if k < n then 0 else readLane s vs (k - n)

/-- `vslidedown.vx vd, vs, rs` (R106). -/
def execVslidedownVX (vd vs : VReg) (rs : XReg) (s : State) : Host.Outcome State Fault Refusal :=
  match slideFault s (signedX s rs) with
  | some cause => .next (takeFault cause s)
  | none =>
    .next (retire none (writeV vd
      ((readV s vd).gated s.vl (slideDownLane s vs (signedX s rs).toNat)) s))

/-- `vindexmv vd, vs, vidx`: every active index is checked, then the lanes are scattered (R107). -/
def execVindexmv (vd vs vidx : VReg) (s : State) : Host.Outcome State Fault Refusal :=
  match scatterFault s vidx with
  | some cause => .next (takeFault cause s)
  | none => .next (retire none (writeV vd (scatter s vs vidx (readV s vd)) s))

end Sys2Proof.Machine
end

