-- ==== Sys2Proof/Machine/VectorConfig.lean ====
section
/-! DEFINITION. The vector-control instructions (42_vector_config.md). -/

namespace Sys2Proof.Machine

/-- `vconfig`: `vl <- VLEN` (R95). -/
def execVconfig (s : State) : Host.Outcome State Fault Refusal :=
  .next (retire none (setVl Config.VLEN s))

/-- `vsetvl rd, rs`: `vl <- min(VLEN, rs)`, copied to `rd`; a negative request faults (R96,
decision D14). -/
def execVsetvl (rd rs : XReg) (s : State) : Host.Outcome State Fault Refusal :=
  if signedX s rs < 0 then .next (takeFault (.vlNegative (signedX s rs)) s)
  else
    let n := min Config.VLEN (signedX s rs).toNat
    .next (retire none (writeX rd (wordOf n) (setVl n s)))

end Sys2Proof.Machine
end

