-- ==== Sys2Proof/Machine/VectorMemory.lean ====
section
/-! DEFINITION. The vector load and store, the only instructions that reach data memory
(43_vector_memory.md, 20_memory.md R41). -/

namespace Sys2Proof.Machine

/-- `vlw vd, offset(base)`: the range check, then `vl` consecutive words into the lanes `[0, vl)`
(R97). -/
def execVlw (vd : VReg) (offset : Word) (base : XReg) (s : State) :
    Host.Outcome State Fault Refusal :=
  let ea := effectiveAddress s base offset
  match transferFault s ea with
  | some cause => .next (takeFault cause s)
  | none =>
    let ws := memRead s ea s.vl
    .next (retire none (countAccesses s.vl
      (writeV vd ((readV s vd).gated s.vl fun k => ws.getD k 0) s)))

/-- `vsw vs, offset(base)`: the range check, then the lanes `[0, vl)` to consecutive words (R98). -/
def execVsw (vs : VReg) (offset : Word) (base : XReg) (s : State) :
    Host.Outcome State Fault Refusal :=
  let ea := effectiveAddress s base offset
  match transferFault s ea with
  | some cause => .next (takeFault cause s)
  | none => .next (retire none (countAccesses s.vl (memWrite ea (activeLanes s vs) s)))

end Sys2Proof.Machine
end

