-- ==== Sys2Proof/Machine/VectorMove.lean ====
section
/-! DEFINITION. The moves between scalar registers and vector lanes (44_vector_move.md). -/

namespace Sys2Proof.Machine

/-- `vmv.x.s rd, vs`: lane 0, whatever `vl` is (R99, decision D21). -/
def execVmvXS (rd : XReg) (vs : VReg) (s : State) : Host.Outcome State Fault Refusal :=
  .next (retire none (writeX rd (readLane s vs 0) s))

/-- `vmv.s.x vd, rs`: lane 0, whatever `vl` is; the other lanes keep their values (R100). -/
def execVmvSX (vd : VReg) (rs : XReg) (s : State) : Host.Outcome State Fault Refusal :=
  .next (retire none (writeV vd ((readV s vd).setLane 0 (readX s rs)) s))

/-- `vmv.v.x vd, rs`: a broadcast to the lanes `[0, vl)` (R101). -/
def execVmvVX (vd : VReg) (rs : XReg) (s : State) : Host.Outcome State Fault Refusal :=
  .next (retire none (writeV vd ((readV s vd).gated s.vl fun _ => readX s rs) s))

/-- `vmv.v.v vd, vs`: a copy of the lanes `[0, vl)` (R102). -/
def execVmvVV (vd vs : VReg) (s : State) : Host.Outcome State Fault Refusal :=
  .next (retire none (writeV vd ((readV s vd).gated s.vl fun k => readLane s vs k) s))

end Sys2Proof.Machine
end

