-- ==== Sys2Proof/Machine/Dispatch.lean ====
section
/-! DEFINITION. The dispatch on the opcode (41_control.md R88): one arm per constructor. -/

namespace Sys2Proof.Machine

def exec (i : Instr) (s : State) : Host.Outcome State Fault Refusal :=
  match i with
  | .addi rd rs imm => Sys2Proof.Machine.execAddi rd rs imm s
  | .add rd rs1 rs2 => Sys2Proof.Machine.execAdd rd rs1 rs2 s
  | .sub rd rs1 rs2 => Sys2Proof.Machine.execSub rd rs1 rs2 s
  | .mul rd rs1 rs2 => Sys2Proof.Machine.execMul rd rs1 rs2 s
  | .j target => Sys2Proof.Machine.execJ target s
  | .beq rs1 rs2 target => Sys2Proof.Machine.execBeq rs1 rs2 target s
  | .vconfig => Sys2Proof.Machine.execVconfig s
  | .vsetvl rd rs => Sys2Proof.Machine.execVsetvl rd rs s
  | .vlw vd offset base => Sys2Proof.Machine.execVlw vd offset base s
  | .vsw vs offset base => Sys2Proof.Machine.execVsw vs offset base s
  | .vmvXS rd vs => Sys2Proof.Machine.execVmvXS rd vs s
  | .vmvSX vd rs => Sys2Proof.Machine.execVmvSX vd rs s
  | .vmvVX vd rs => Sys2Proof.Machine.execVmvVX vd rs s
  | .vmvVV vd vs => Sys2Proof.Machine.execVmvVV vd vs s
  | .vaddVV vd vs1 vs2 => Sys2Proof.Machine.execVaddVV vd vs1 vs2 s
  | .vmulVX vd vs rs => Sys2Proof.Machine.execVmulVX vd vs rs s
  | .vslideupVX vd vs rs => Sys2Proof.Machine.execVslideupVX vd vs rs s
  | .vslidedownVX vd vs rs => Sys2Proof.Machine.execVslidedownVX vd vs rs s
  | .vindexmv vd vs vidx => Sys2Proof.Machine.execVindexmv vd vs vidx s

end Sys2Proof.Machine
end

