-- ==== Sys2Proof/Machine/Step.lean ====
section
/-! DEFINITION. One step of the engine (41_control.md R86 to R89): the guard, fetch, decode, execute. -/

namespace Sys2Proof.Machine

/-- One step. The Faulted and the Halted state have no successor (R86). A fault decode raises is
taken (R88, R120). Every other fault is taken by the meaning that raises it, and each meaning
retires its instruction (R89). -/
def step (s : State) : Host.Outcome State Fault Refusal :=
  match s.fault with
  | some record => .fault (.faulted record)
  | none =>
    match fetch s with
    | none => .fault .halted
    | some slot =>
      match decode s.labels slot with
      | .error cause => .next (takeFault cause s)
      | .ok i => exec i s

/-- The instruction stream with a slot at an index: replaced there, or the stream extended up to
there. -/
def placeSlot (slots : List Slot) (k : Nat) (slot : Slot) : List Slot :=
  if k < slots.length then slots.set k slot
  else slots ++ List.replicate (k + 1 - slots.length) slot

/-- `s` with the instruction of the program text the bits hold (log entry 2) as the slot at the pc,
that text's labels before the others, and no fault recorded, so that the next step runs it. It
stands for loading a program from outside (R141). Where the text holds no instruction, `s`. -/
def State.withFetchWord (s : State) (nbits w : Nat) : State :=
  match programOfBits nbits w with
  | none => s
  | some p =>
    match p.slots with
    | [] => s
    | slot :: _ =>
      { s with
        slots := placeSlot s.slots s.pc slot
        labels := p.labels ++ s.labels
        fault := none }

end Sys2Proof.Machine
end

