-- ==== Sys2Proof/Machine/Loader.lean ====
section
/-! DEFINITION. The sparse encoder (70_reset_and_hazards.md R133, R134) and the loader `load_csr`
(R135 to R139). -/

namespace Sys2Proof.Machine

/-! ### The sparse encoder -/

/-- A dense integer matrix: its column count and its rows. The count stands beside the rows so that
a matrix without rows has one too (log entry 12). -/
structure DenseMatrix where
  cols : Nat
  rows : List (List Int)
deriving DecidableEq, Repr

/-- Every row has the matrix's column count (R133, R139). -/
def DenseMatrix.rectangular (m : DenseMatrix) : Bool :=
  m.rows.all fun row => decide (row.length = m.cols)

/-- The compressed-row form of a matrix (R133). -/
structure Csr where
  rowPtr : List Nat
  colIdx : List Nat
  values : List Int
deriving DecidableEq, Repr

/-- The columns and values of the non-zero entries of a row, left to right from column `j` (R133). -/
def rowEntries (j : Nat) : List Int → List (Nat × Int)
  | [] => []
  | v :: vs => if v ≠ 0 then (j, v) :: rowEntries (j + 1) vs else rowEntries (j + 1) vs

/-- One row of the row-major scan (R133). -/
def csrAppendRow (c : Csr) (row : List Int) : Csr where
  rowPtr := c.rowPtr ++ [c.values.length + (rowEntries 0 row).length]
  colIdx := c.colIdx ++ (rowEntries 0 row).map Prod.fst
  values := c.values ++ (rowEntries 0 row).map Prod.snd

/-- `encode(M)`: the row-major scan (R133). -/
def csrEncode (m : DenseMatrix) : Csr := m.rows.foldl csrAppendRow ⟨[0], [], []⟩

/-- The value a row's entries give column `j`: zero where they give none (R134). -/
def entryAt (entries : List (Nat × Int)) (j : Nat) : Int :=
  match entries.find? fun e => decide (e.1 = j) with
  | some e => e.2
  | none => 0

/-- Row `i` of the dense matrix a compressed-row form describes (R134). -/
def csrRow (cols : Nat) (c : Csr) (i : Nat) : List Int :=
  let entries := ((c.colIdx.zip c.values).take (c.rowPtr.getD (i + 1) 0)).drop (c.rowPtr.getD i 0)
  (List.range cols).map fun j => entryAt entries j

/-- The dense matrix a compressed-row form describes (R134). -/
def csrReconstruct (cols : Nat) (c : Csr) : DenseMatrix where
  cols := cols
  rows := (List.range (c.rowPtr.length - 1)).map fun i => csrRow cols c i

/-! ### The loader -/

/-- `Bt[i][j] = B[j][i]` (R135). -/
def DenseMatrix.transpose (m : DenseMatrix) : DenseMatrix where
  cols := m.rows.length
  rows := (List.range m.cols).map fun j => m.rows.map fun row => row.getD j 0

/-- The three arrays of a compressed-row form as integers, in the order row pointers, column
indices, values. -/
def Csr.arrays (c : Csr) : List (List Int) :=
  [c.rowPtr.map fun n : Nat => (n : Int), c.colIdx.map fun n : Nat => (n : Int), c.values]

/-- The six arrays in their memory order: `A`'s, then those of `B`'s transpose (R135, R136,
decision D26). -/
def loaderArrays (a b : DenseMatrix) : List (List Int) :=
  (csrEncode a).arrays ++ (csrEncode b.transpose).arrays

/-- The base of each array, and after them the address following the last one (R136). -/
def arrayBases (base : Nat) : List (List Int) → List Nat
  | [] => [base]
  | a :: rest => base :: arrayBases (base + a.length) rest

/-- `base[6]`, the address following the last loaded array (R136). -/
def loaderEnd (a b : DenseMatrix) : Nat := ((loaderArrays a b).map List.length).sum

/-- The arrays copied one after another from an address on (R136). -/
def copyArrays (base : Nat) (m : Memory) : List (List Int) → Memory
  | [] => m
  | a :: rest => copyArrays (base + a.length) (Memory.writeList m base (a.map wordOf)) rest

/-- Consecutive scalar registers from number `r` on take the words of a list (R137). -/
def writeRegs (r : Nat) (s : State) : List Nat → State
  | [] => s
  | n :: rest => writeRegs (r + 1) (writeX (Fin.ofNat Config.NX r) (wordOf n) s) rest

/-- The register writes of the loader (R137): the six bases, the six lengths, `A`'s column count,
its row count, and the write cursor. -/
def loaderRegisters (p : Config.LoaderRegs) (a b : DenseMatrix) (s : State) : State :=
  let arrays := loaderArrays a b
  let s1 := writeRegs p.addrReg0 s ((arrayBases 0 arrays).take 6)
  let s2 := writeRegs (p.addrReg0 + 6) s1 (arrays.map List.length)
  let s3 := writeRegs p.acols s2 [a.cols]
  let s4 := writeRegs p.arows s3 [a.rows.length]
  writeRegs p.cursor s4 [loaderEnd a b]

/-- An integer in the signed range of a word (R139). -/
def fitsWord (n : Int) : Bool :=
  decide (-((Config.IMM_MAX : Int) + 1) ≤ n) && decide (n ≤ (Config.IMM_MAX : Int))

/-- Every entry of a matrix fits a word (R139). -/
def DenseMatrix.fits (m : DenseMatrix) : Bool := m.rows.all fun row => row.all fitsWord

/-- Whether the first step has been taken: it retired an instruction or recorded a fault
(R28, R31, R140, log entry 8). -/
def started (s : State) : Bool := decide (s.cycles ≠ 0) || s.fault.isSome

/-- The precondition of the loader that a call breaks first (R139). -/
def loaderRefusal (a b : DenseMatrix) (s : State) : Option Refusal :=
  if started s then some .afterFirstStep
  else if s.csrLoaded then some (.loader .secondCall)
  else if (a.rectangular && b.rectangular) = false then some (.loader .notRectangular)
  else if (a.fits && b.fits) = false then some (.loader .entryTooLarge)
  else if Config.MEM_WORDS < loaderEnd a b then some (.loader .arraysTooLarge)
  else none

/-- The effect of an admitted call of the loader under a placement of its registers
(R136 to R138). -/
def loaderEffect (p : Config.LoaderRegs) (a b : DenseMatrix) (s : State) : State :=
  { loaderRegisters p a b s with
    mem := copyArrays 0 s.mem (loaderArrays a b)
    outCount := a.rows.length * b.cols
    csrLoaded := true }

/-- `load_csr(A, B)` under a placement of the loader's registers (R135 to R139). -/
def loadCsrAt (p : Config.LoaderRegs) (a b : DenseMatrix) (s : State) :
    Host.Outcome State Fault Refusal :=
  match loaderRefusal a b s with
  | some r => .refused r
  | none => .next (loaderEffect p a b s)

/-- `load_csr(A, B)` (R135 to R139); the register numbers are OPEN (log entry 5). -/
def loadCsr (a b : DenseMatrix) (s : State) : Host.Outcome State Fault Refusal :=
  loadCsrAt Config.loaderRegs a b s

end Sys2Proof.Machine
end

