-- ==== Sys2Proof/Machine/Launch.lean ====
section
/-! DEFINITION. What the host does before the first step (70_reset_and_hazards.md R140 to R142): the
preload writes, loading the program with the admission check (30_encoding.md R80), and the boot
sequence from reset. The engine is constructed in `State.reset`. -/

namespace Sys2Proof.Machine

/-- One preload write of the host (R140). `vl` is written by no host operation (R25). -/
inductive Preload where
  /-- a scalar register other than `x0` -/
  | scalar (r : XReg) (w : Word)
  /-- a lane of a vector register -/
  | lane (d : VReg) (k : Fin Config.VLEN) (w : Word)
  /-- a memory cell -/
  | cell (a : Nat) (w : Word)
deriving DecidableEq, Repr

/-- Whether a preload names something the host may write (R140). -/
def preloadAllowed : Preload → Bool
  | .scalar r _ => decide (r ≠ 0)
  | .lane _ _ _ => true
  | .cell a _ => decide (a < Config.MEM_WORDS)

/-- The effect of a preload write (R140). -/
def preloadEffect : Preload → State → State
  | .scalar r w, s => writeX r w s
  | .lane d k w, s => writeV d ((readV s d).setLane k.val w) s
  | .cell a w, s => { s with mem := Memory.write s.mem a w }

/-- The host's preload: before the first step and only then (R140, R142). -/
def preload (p : Preload) (s : State) : Host.Outcome State Fault Refusal :=
  if started s then .refused .afterFirstStep
  else if preloadAllowed p then .next (preloadEffect p s)
  else .refused .noSuchTarget

/-- Preload writes, one after another. -/
def preloads : List Preload → State → Host.Outcome State Fault Refusal
  | [], s => .next s
  | p :: rest, s =>
    match preload p s with
    | .next s' => preloads rest s'
    | .fault r => .fault r
    | .refused r => .refused r

/-- Loading an assembled program: refused when it is not `WF` (R79, R80). -/
def admitProgram (p : Program) (s : State) : Host.Outcome State Fault Refusal :=
  match firstDecodeFault p.labels 0 p.slots with
  | some f => .refused (.notWellFormed f.1 f.2)
  | none => .next { s with slots := p.slots, labels := p.labels, programLoaded := true }

/-- The host loads the program text: once, before the first step; a parse error refuses the launch
(R67, R141, R142). -/
def loadProgram (lines : List Token) (s : State) : Host.Outcome State Fault Refusal :=
  if started s then .refused .afterFirstStep
  else if s.programLoaded then .refused .programAlreadyLoaded
  else
    match assemble lines with
    | .error e => .refused (.parse e)
    | .ok p => admitProgram p s

/-- A launch from reset (R141): the loader if matrices are given, the preload writes, the program. -/
def boot (matrices : Option (DenseMatrix × DenseMatrix)) (writes : List Preload)
    (lines : List Token) : Host.Outcome State Fault Refusal :=
  let loaded : Host.Outcome State Fault Refusal :=
    match matrices with
    | none => .next State.reset
    | some m => loadCsr m.1 m.2 State.reset
  match loaded with
  | .fault r => .fault r
  | .refused r => .refused r
  | .next s1 =>
    match preloads writes s1 with
    | .fault r => .fault r
    | .refused r => .refused r
    | .next s2 => loadProgram lines s2

end Sys2Proof.Machine
end

