-- ==== Sys2Proof/Machine/Run.lean ====
section
/-! DEFINITION. The run loop and what the host reads afterwards (70_reset_and_hazards.md R142 to
R145). -/

namespace Sys2Proof.Machine

/-- At most `n` steps of the run loop: it steps while the engine is Running (R145). -/
def run : Nat → State → State
  | 0, s => s
  | n + 1, s =>
    match step s with
    | .next s' => run n s'
    | .fault _ => s
    | .refused _ => s

/-- The observable outputs of R143; the whole state is readable besides. -/
structure Readout where
  /-- the final scalar register file -/
  scalars : List Word
  /-- the first lanes of the first vector registers -/
  lanes : List (List Word)
  /-- the first 128 memory words -/
  cells : List Word
  cycles : Nat
  memAccesses : Nat
deriving DecidableEq, Repr

/-- The readout of the first `n` lanes of the first `m` vector registers, numbers of the host's
choice (R143, implementation-defined item I16). -/
def readout (n m : Nat) (s : State) : Readout where
  scalars := (List.finRange Config.NX).map (readX s)
  lanes := ((List.finRange Config.NV).take m).map fun d => (List.range n).map (readLane s d)
  cells := (List.range 128).map (readCell s)
  cycles := s.cycles
  memAccesses := s.memAccesses

/-- The result region under the software convention of R144: the `out_count` cells that end before
the address in `REG_CURSOR`; `none` where that is not a region of data memory (log entry 13). -/
def resultRegionAt (p : Config.LoaderRegs) (s : State) : Option (List Word) :=
  let stop := signedX s (Fin.ofNat Config.NX p.cursor)
  let start := stop - s.outCount
  match firstOutOfRange start s.outCount with
  | some _ => none
  | none => some (memRead s start s.outCount)

/-- The result region under the OPEN register numbers (R144, log entry 5). -/
def resultRegion (s : State) : Option (List Word) := resultRegionAt Config.loaderRegs s

end Sys2Proof.Machine
end

