-- ==== Sys2Proof/Safety.lean ====
section
/-! DEFINITION. The terms statements are made in: what an instruction leaves unchanged, what it is
to retire and to fault, the invariant of the engine's state, admitted states, and safe runs. -/

namespace Sys2Proof.Machine

/-! ### Frames -/

/-- Every scalar register reads as before. -/
def ScalarsKept (s t : State) : Prop := ∀ r, readX t r = readX s r

/-- Every scalar register but `rd` reads as before. -/
def OtherScalarsKept (rd : XReg) (s t : State) : Prop := ∀ r, r ≠ rd → readX t r = readX s r

/-- Every lane of every vector register reads as before. -/
def VectorsKept (s t : State) : Prop :=
  ∀ d k, k < Config.VLEN → readLane t d k = readLane s d k

/-- Every lane of every vector register but `vd` reads as before. -/
def OtherVectorsKept (vd : VReg) (s t : State) : Prop :=
  ∀ d, d ≠ vd → ∀ k, k < Config.VLEN → readLane t d k = readLane s d k

/-- Every memory cell reads as before. -/
def MemoryKept (s t : State) : Prop := ∀ a, readCell t a = readCell s a

/-- What no step changes: the program, the label table and the host's own records
(10_state.md R32, R33). -/
structure LaunchKept (s t : State) : Prop where
  slots : t.slots = s.slots
  labels : t.labels = s.labels
  outCount : t.outCount = s.outCount
  csrLoaded : t.csrLoaded = s.csrLoaded
  programLoaded : t.programLoaded = s.programLoaded

/-- Retirement as an observer sees it (41_control.md R89): the pc is `next`, one more instruction is
counted, register 0 holds 0, no fault is recorded, and the launch is as before. -/
structure Retired (next : Nat) (s t : State) : Prop where
  pc : t.pc = next
  cycles : t.cycles = s.cycles + 1
  zero : t.x[0] = 0
  fault : t.fault = s.fault
  launch : LaunchKept s t

/-- Fault entry as an observer sees it (60_exceptions.md R120): the record is the cause and the pc,
and nothing else has changed. -/
structure FaultTaken (cause : FaultCause) (s t : State) : Prop where
  fault : t.fault = some ⟨cause, s.pc⟩
  x : t.x = s.x
  vr : t.vr = s.vr
  vl : t.vl = s.vl
  mem : t.mem = s.mem
  pc : t.pc = s.pc
  cycles : t.cycles = s.cycles
  memAccesses : t.memAccesses = s.memAccesses
  launch : LaunchKept s t

/-- What a host preload keeps besides registers, lanes and memory: the pc, the length, the counters,
the fault record and the launch (70_reset_and_hazards.md R140). -/
structure ControlKept (s t : State) : Prop where
  pc : t.pc = s.pc
  vl : t.vl = s.vl
  cycles : t.cycles = s.cycles
  memAccesses : t.memAccesses = s.memAccesses
  fault : t.fault = s.fault
  launch : LaunchKept s t

/-! ### Operands as decode reads them -/

/-- An operand of the kind a slot of a shape takes: an immediate slot takes only `Imm(n)` with `n` up
to `2^(XLEN-1) - 1`, a register slot only a name or a resolved base, a label slot only a name
(30_encoding.md R73, R74). -/
def OperandOfKind : Kind → Operand → Prop
  | .I, o => ∃ n : Nat, o = .imm n ∧ n ≤ 2147483647
  | .X, o => (∃ name, o = .ident name) ∨ ∃ c i, o = .reg c i
  | .V, o => (∃ name, o = .ident name) ∨ ∃ c i, o = .reg c i
  | .L, o => ∃ name, o = .ident name

/-- The register class a slot of a shape needs (30_encoding.md R69). -/
def NeedsClass (k : Kind) (c : RegClass) : Prop := (k = .X ∧ c = .X) ∨ (k = .V ∧ c = .V)

/-- An operand that names register `i` of class `c`: a base resolved to it, or a name that resolves
to it (30_encoding.md R69, R73, decision D4). -/
def NamesRegister (c : RegClass) (i : RegIndex) (o : Operand) : Prop :=
  o = .reg c i ∨ ∃ name, o = .ident name ∧ resolve name = some (c, i)

/-! ### What each instruction reads and writes -/

/-- The scalar register an instruction writes (10_state.md R21). -/
def scalarDest : Instr → Option XReg
  | .addi rd _ _ => some rd
  | .add rd _ _ => some rd
  | .sub rd _ _ => some rd
  | .mul rd _ _ => some rd
  | .j _ => none
  | .beq _ _ _ => none
  | .vconfig => none
  | .vsetvl rd _ => some rd
  | .vlw _ _ _ => none
  | .vsw _ _ _ => none
  | .vmvXS rd _ => some rd
  | .vmvSX _ _ => none
  | .vmvVX _ _ => none
  | .vmvVV _ _ => none
  | .vaddVV _ _ _ => none
  | .vmulVX _ _ _ => none
  | .vslideupVX _ _ _ => none
  | .vslidedownVX _ _ _ => none
  | .vindexmv _ _ _ => none

/-- The scalar registers an instruction reads (10_state.md R21). -/
def scalarSources : Instr → List XReg
  | .addi _ rs _ => [rs]
  | .add _ rs1 rs2 => [rs1, rs2]
  | .sub _ rs1 rs2 => [rs1, rs2]
  | .mul _ rs1 rs2 => [rs1, rs2]
  | .j _ => []
  | .beq rs1 rs2 _ => [rs1, rs2]
  | .vconfig => []
  | .vsetvl _ rs => [rs]
  | .vlw _ _ base => [base]
  | .vsw _ _ base => [base]
  | .vmvXS _ _ => []
  | .vmvSX _ rs => [rs]
  | .vmvVX _ rs => [rs]
  | .vmvVV _ _ => []
  | .vaddVV _ _ _ => []
  | .vmulVX _ _ rs => [rs]
  | .vslideupVX _ _ rs => [rs]
  | .vslidedownVX _ _ rs => [rs]
  | .vindexmv _ _ _ => []

/-- The vector register an instruction writes (10_state.md R24). -/
def vectorDest : Instr → Option VReg
  | .addi _ _ _ => none
  | .add _ _ _ => none
  | .sub _ _ _ => none
  | .mul _ _ _ => none
  | .j _ => none
  | .beq _ _ _ => none
  | .vconfig => none
  | .vsetvl _ _ => none
  | .vlw vd _ _ => some vd
  | .vsw _ _ _ => none
  | .vmvXS _ _ => none
  | .vmvSX vd _ => some vd
  | .vmvVX vd _ => some vd
  | .vmvVV vd _ => some vd
  | .vaddVV vd _ _ => some vd
  | .vmulVX vd _ _ => some vd
  | .vslideupVX vd _ _ => some vd
  | .vslidedownVX vd _ _ => some vd
  | .vindexmv vd _ _ => some vd

/-- The vector registers an instruction reads (10_state.md R24). -/
def vectorSources : Instr → List VReg
  | .addi _ _ _ => []
  | .add _ _ _ => []
  | .sub _ _ _ => []
  | .mul _ _ _ => []
  | .j _ => []
  | .beq _ _ _ => []
  | .vconfig => []
  | .vsetvl _ _ => []
  | .vlw _ _ _ => []
  | .vsw vs _ _ => [vs]
  | .vmvXS _ vs => [vs]
  | .vmvSX _ _ => []
  | .vmvVX _ _ => []
  | .vmvVV _ vs => [vs]
  | .vaddVV _ vs1 vs2 => [vs1, vs2]
  | .vmulVX _ vs _ => [vs]
  | .vslideupVX _ vs _ => [vs]
  | .vslidedownVX _ vs _ => [vs]
  | .vindexmv _ vs vidx => [vs, vidx]

/-- Whether an instruction is `vlw`, the only one that reads memory (20_memory.md R41). -/
def isLoad (i : Instr) : Bool := decide (i.opcode = .vlw)

/-- Whether an instruction is `vsw`, the only one that writes memory (20_memory.md R41). -/
def isStore (i : Instr) : Bool := decide (i.opcode = .vsw)

/-- Whether an instruction sets `vl` (10_state.md R25). -/
def setsLength (i : Instr) : Bool := decide (i.opcode = .vconfig) || decide (i.opcode = .vsetvl)

/-- The index a retiring instruction leaves the pc at (41_control.md R89, R91, R92). -/
def nextIndex (s : State) : Instr → Nat
  | .j target => target
  | .beq rs1 rs2 target => if readX s rs1 = readX s rs2 then target else s.pc + 1
  | .addi _ _ _ => s.pc + 1
  | .add _ _ _ => s.pc + 1
  | .sub _ _ _ => s.pc + 1
  | .mul _ _ _ => s.pc + 1
  | .vconfig => s.pc + 1
  | .vsetvl _ _ => s.pc + 1
  | .vlw _ _ _ => s.pc + 1
  | .vsw _ _ _ => s.pc + 1
  | .vmvXS _ _ => s.pc + 1
  | .vmvSX _ _ => s.pc + 1
  | .vmvVX _ _ => s.pc + 1
  | .vmvVV _ _ => s.pc + 1
  | .vaddVV _ _ _ => s.pc + 1
  | .vmulVX _ _ _ => s.pc + 1
  | .vslideupVX _ _ _ => s.pc + 1
  | .vslidedownVX _ _ _ => s.pc + 1
  | .vindexmv _ _ _ => s.pc + 1

/-- Retirement at the next index, without a redirect (41_control.md R89). -/
def RetiredNext (s t : State) : Prop := Retired (s.pc + 1) s t

/-! ### The invariant -/

/-- The program of a state. -/
def State.program (s : State) : Program := ⟨s.slots, s.labels⟩

/-- What holds in every reachable state: `vl` is at most `VLEN` (R25), memory is in canonical form,
register 0 holds 0 (R19), the pc is in `[0, N]` (R26), every label is bound within `[0, N]` (R62),
and a fault record names the instruction at the pc (R31, R120). -/
structure Inv (s : State) : Prop where
  vl : s.vl ≤ Config.VLEN
  mem : s.mem.wf = true
  zero : s.x[0] = 0
  pc : s.pc ≤ s.slots.length
  labels : labelsWithin s.slots.length s.labels = true
  fault : ∀ r, s.fault = some r → r.fpc = s.pc ∧ s.pc < s.slots.length

/-- A state of an admitted launch (30_encoding.md R80): the invariant holds and the program is
`WF`. -/
structure Admitted (s : State) : Prop where
  inv : Inv s
  wf : s.program.wf = true

/-! ### Safe runs -/

/-- A run of `n` steps is safe when it ends without a fault (60_exceptions.md R108, R120). -/
def SafeRun (n : Nat) (s : State) : Prop := (run n s).fault = none

/-- A fault that decode raises, codes 1 to 4 (R110). -/
def isDecodeFault (c : FaultCause) : Bool := decide (faultCode c ≤ 4)

end Sys2Proof.Machine
end

