-- ==== Sys2Proof/Certificates/Slice0/Obligations.lean ====
section
/-! DEFINITION. The statements about the model, for the provers. Where a clause rests on one of the
spec's own decisions (D entries of 92_eei_decisions.md), the docstring names it: such a clause is
the spec's choice, not the source's. -/

open Sys2Proof Sys2Proof.Machine

/-! ### The step -/

/-- A step of a state without a fault record, whose slot at the pc decodes to `i`, is the execution
of `i` in that state: nothing is added around it (41_control.md, section 1). -/
def Obligations.StepRunsDecodedInstruction : Prop :=
  ∀ (s : State) (slot : Slot) (i : Instr), s.fault = none → s.slots[s.pc]? = some slot →
    decode s.labels slot = .ok i → step s = exec i s

/-- A step whose slot does not decode takes the fault decode raises: the record holds the cause and
the pc, and nothing else changes (60_exceptions.md section 3, decision D10). -/
def Obligations.DecodeFaultIsTaken : Prop :=
  ∀ (s : State) (slot : Slot) (c : FaultCause), s.fault = none → s.slots[s.pc]? = some slot →
    decode s.labels slot = .error c → ∃ t, step s = .next t ∧ FaultTaken c s t

/-- The engine takes a step exactly when it is Running: no fault recorded and `pc < N`. Halted and
Faulted have no successor (41_control.md section 1, decision D36; the named stops are the model's
form, log entry 7). -/
def Obligations.StepAnswersExactlyWhenRunning : Prop :=
  ∀ s : State,
    ((∃ t, step s = .next t) ↔ s.fault = none ∧ s.pc < s.slots.length) ∧
    (s.fault = none → s.slots.length ≤ s.pc → step s = .fault .halted) ∧
    (∀ r, s.fault = some r → step s = .fault (.faulted r))

/-- A step either faults precisely (the record names the pc, nothing else changes, the engine is
Faulted and takes no further step) or records no fault (60_exceptions.md section 3, decisions D9 and
D10). -/
def Obligations.FaultsArePrecise : Prop :=
  ∀ (s t : State) (r : FaultRecord), step s = .next t → t.fault = some r →
    FaultTaken r.cause s t ∧ r.fpc = s.pc ∧ status t = .faulted ∧ step t = .fault (.faulted r)

/-- A step that records no fault ran a decoded instruction and retired it: the pc goes to the target
of `j` or of a taken `beq` and to the next index otherwise, one cycle is counted, register 0 holds 0
(41_control.md section 1; a jump to its own index redirects by decision D13). -/
def Obligations.RetirementSetsPcAndCounts : Prop :=
  ∀ s t : State, step s = .next t → t.fault = none →
    ∃ slot i, s.slots[s.pc]? = some slot ∧ decode s.labels slot = .ok i ∧
      Retired (nextIndex s i) s t

/-- Register 0 is hardwired to zero: it reads 0 in every state, a write to it leaves the state as it
was, and after every retired instruction the stored register holds 0 (10_state.md R19). -/
def Obligations.RegisterZeroIsHardwired : Prop :=
  (∀ s : State, readX s 0 = 0) ∧ (∀ (s : State) (v : Word), writeX 0 v s = s) ∧
  (∀ s t : State, step s = .next t → t.fault = none → t.x[0] = 0)

/-- No step changes the instruction stream, the label table, the output element count or the host's
records of the launch (10_state.md section 7, 20_memory.md section 5; the output element count is
written by the loader alone, 10_state.md section 6, R32; the records are the model's, log entry 8). -/
def Obligations.LaunchNeverChanges : Prop :=
  ∀ s t : State, step s = .next t → LaunchKept s t

/-- The execution of a decoded instruction does not read the instruction stream or the label table:
in any other program it answers the same (10_state.md section 7: the stream is read only by fetch
and the table only in resolving a target). -/
def Obligations.ExecutionIgnoresTheProgram : Prop :=
  ∀ (i : Instr) (s t : State) (slots : List Slot) (labels : LabelTable), exec i s = .next t →
    exec i { s with slots := slots, labels := labels }
      = .next { t with slots := slots, labels := labels }

/-- The counters and the output element count are read by no instruction: started from other counts,
an instruction answers the same but for the counts, which differ by what they differed by
(10_state.md section 6). -/
def Obligations.ExecutionIgnoresTheCounters : Prop :=
  ∀ (i : Instr) (s t : State) (c m o : Nat), exec i s = .next t →
    ∃ dc dm, t.cycles = s.cycles + dc ∧ t.memAccesses = s.memAccesses + dm ∧
      exec i { s with cycles := c, memAccesses := m, outCount := o }
        = .next { t with cycles := c + dc, memAccesses := m + dm, outCount := o }

/-! ### What instructions write and read -/

/-- Scalar-register access: an instruction changes no register but its destination, and reads none
but its sources: from a register file that agrees on the sources it answers the same outside the
register file, and writes the same word (10_state.md section 1, the access lists). -/
def Obligations.ScalarAccessIsTheListed : Prop :=
  ∀ (i : Instr) (s t : State), exec i s = .next t →
    (∀ r, scalarDest i ≠ some r → readX t r = readX s r) ∧
    (∀ x' : Vector Word Config.NX,
      (∀ r, r ∈ scalarSources i → readX { s with x := x' } r = readX s r) →
      ∃ t', exec i { s with x := x' } = .next t' ∧
        { t' with x := t.x } = t ∧
        (s.fault = none → t.fault = none → ∀ rd, scalarDest i = some rd →
          readX t' rd = readX t rd))

/-- Vector-register access: an instruction changes no vector register but its destination, and
reads none but its sources: from vector registers that agree on the sources it answers the same
outside them, and each lane of each register gets the same word or is kept in both (10_state.md
section 2, the access lists and "A lane an instruction does not write keeps its value"). -/
def Obligations.VectorAccessIsTheListed : Prop :=
  ∀ (i : Instr) (s t : State), exec i s = .next t →
    (∀ d, vectorDest i ≠ some d → ∀ k, k < Config.VLEN → readLane t d k = readLane s d k) ∧
    (∀ vr' : Vector VecReg Config.NV,
      (∀ d, d ∈ vectorSources i → vr'[d] = s.vr[d]) →
      ∃ t', exec i { s with vr := vr' } = .next t' ∧
        { t' with vr := t.vr } = t ∧
        ∀ (d : VReg) (k : Nat), k < Config.VLEN →
          readLane t' d k = readLane t d k ∨
          (readLane t' d k = vr'[d].lane k ∧ readLane t d k = readLane s d k))

/-- Only two instructions reach data memory: one that is not `vsw` writes none of it, one that is not
`vlw` reads none of it (started from another memory it answers the same but for memory), and
instruction fetch never reads it (20_memory.md R41). -/
def Obligations.OnlyVectorLoadAndStoreReachMemory : Prop :=
  (∀ (i : Instr) (s t : State), exec i s = .next t → isStore i = false → t.mem = s.mem) ∧
  (∀ (i : Instr) (s t : State) (m : Memory), exec i s = .next t → isLoad i = false →
    ∃ m', exec i { s with mem := m } = .next { t with mem := m' }) ∧
  (∀ (s : State) (m : Memory), fetch { s with mem := m } = fetch s)

/-- `vl` is written only by `vconfig` and `vsetvl`, which leave it in `[0, VLEN]`, and by no host
operation (10_state.md section 3; the preload is the spec's own, decision D24). -/
def Obligations.LengthIsSetOnlyByConfiguration : Prop :=
  (∀ (i : Instr) (s t : State), exec i s = .next t → setsLength i = false → t.vl = s.vl) ∧
  (∀ (i : Instr) (s t : State), exec i s = .next t → s.vl ≤ Config.VLEN → t.vl ≤ Config.VLEN) ∧
  (∀ (a b : DenseMatrix) (s t : State), loadCsr a b s = .next t → t.vl = s.vl) ∧
  (∀ (p : Preload) (s t : State), preload p s = .next t → t.vl = s.vl) ∧
  (∀ (lines : List Token) (s t : State), loadProgram lines s = .next t → t.vl = s.vl)

/-- `mem_accesses` is incremented by `vl` by each retiring `vlw` and `vsw` and by no other
instruction (10_state.md section 6). -/
def Obligations.AccessesCountTransferredLanes : Prop :=
  ∀ s t : State, step s = .next t →
    ∃ slot, s.slots[s.pc]? = some slot ∧
      t.memAccesses = s.memAccesses +
        (match decode s.labels slot with
         | .ok i => if (isLoad i || isStore i) && t.fault.isNone then s.vl else 0
         | .error _ => 0)

/-- Execution faults by opcode: only `vsetvl`, the slides, the vector load and store and the scatter
raise one, each only its own (60_exceptions.md sections 1 and 3, decisions D9 and D11). -/
def Obligations.ExecutionFaultsByOpcode : Prop :=
  ∀ (i : Instr) (s t : State) (r : FaultRecord), s.fault = none → exec i s = .next t →
    t.fault = some r →
    (i.opcode = .vsetvl ∧ faultCode r.cause = 5) ∨
    ((i.opcode = .vslideupVX ∨ i.opcode = .vslidedownVX) ∧ faultCode r.cause = 6) ∨
    ((i.opcode = .vlw ∨ i.opcode = .vsw) ∧ faultCode r.cause = 7) ∨
    (i.opcode = .vindexmv ∧ faultCode r.cause = 8)

/-! ### The invariant, reset and admitted runs -/

/-- Every step keeps the invariant: `vl` at most `VLEN`, register 0 zero, the pc and every label in
`[0, N]` (10_state.md sections 1, 3, 4 and 7), a fault record naming the pc (10_state.md section 6,
R31; 60_exceptions.md section 3, R120), and memory canonical, a clause that is the model's own choice
of form (log entry 1). -/
def Obligations.StepKeepsInvariant : Prop :=
  ∀ s t : State, Inv s → step s = .next t → Inv t

/-- The reset state meets the invariant (10_state.md section 9); its canonical-memory clause is the
model's own choice of form (log entry 1). -/
def Obligations.ResetMeetsInvariant : Prop := Inv State.reset

/-- Reset leaves every register, lane and cell zero, `vl`, `pc`, `cycles`, `mem_accesses` and
`out_count` 0 and no fault (10_state.md section 9; the fault record and `out_count` by decisions D9
and D22). With no program loaded the engine is Halted. -/
def Obligations.ResetState : Prop :=
  (∀ r, readX State.reset r = 0) ∧ (∀ d k, readLane State.reset d k = 0) ∧
  (∀ a, readCell State.reset a = 0) ∧ State.reset.vl = 0 ∧ State.reset.pc = 0 ∧
  State.reset.cycles = 0 ∧ State.reset.memAccesses = 0 ∧ State.reset.outCount = 0 ∧
  State.reset.fault = none ∧ status State.reset = .halted

/-- A run of a well-formed program from a state without a fault never records a decode fault, and
stays in that program (30_encoding.md section 6, conflict C2, decision D8). -/
def Obligations.WellFormedRunsRaiseNoDecodeFault : Prop :=
  ∀ (s : State) (n : Nat), s.program.wf = true → s.fault = none →
    (run n s).program = s.program ∧
    ∀ r, (run n s).fault = some r → isDecodeFault r.cause = false

/-- A launch that is not refused gives an admitted state at its entry point: the invariant holds, the
program is the assembled text and `WF`, the pc, `vl` and the counters are 0 and no fault is recorded
(70_reset_and_hazards.md sections 1 and 4, 30_encoding.md section 6, decisions D8 and D24). The
invariant's canonical-memory clause is the model's own choice of form (log entry 1). -/
def Obligations.BootGivesAdmittedState : Prop :=
  ∀ (matrices : Option (DenseMatrix × DenseMatrix)) (writes : List Preload) (lines : List Token)
    (s : State), boot matrices writes lines = .next s →
    Admitted s ∧ assemble lines = .ok s.program ∧ s.pc = 0 ∧ s.vl = 0 ∧ s.cycles = 0 ∧
      s.memAccesses = 0 ∧ s.fault = none

/-- Loading a program: before the first step and once only. It is accepted exactly when the text
assembles and the program is `WF`, and then only the program changes; a text that does not is refused
with its parse error or as not well-formed, and so is a load after the first step or a second one
(30_encoding.md section 6, decision D8; 70_reset_and_hazards.md section 4, decision D23). "The first
step" is read off `cycles` and the fault record, and "a program has been loaded" is a record of the
model (log entry 8); the named refusals are the model's (log entry 9). -/
def Obligations.LoadProgramAdmitsExactlyWellFormed : Prop :=
  ∀ (lines : List Token) (s : State),
    ((s.cycles ≠ 0 ∨ s.fault ≠ none) → loadProgram lines s = .refused .afterFirstStep) ∧
    (s.cycles = 0 → s.fault = none →
      (s.programLoaded = true → loadProgram lines s = .refused .programAlreadyLoaded) ∧
      (s.programLoaded = false →
        (∀ t, loadProgram lines s = .next t ↔
          ∃ p, assemble lines = .ok p ∧ p.wf = true ∧
            t = { s with slots := p.slots, labels := p.labels, programLoaded := true }) ∧
        (∀ e, assemble lines = .error e → loadProgram lines s = .refused (.parse e)) ∧
        (∀ p, assemble lines = .ok p → p.wf = false →
          ∃ k c, loadProgram lines s = .refused (.notWellFormed k c))))

/-! ### Decode and encode -/

/-- A few instruction texts, one for each family, and the instruction each decodes to
(30_encoding.md sections 2 to 4). -/
def Obligations.FamilyTextsDecode : Prop :=
  (∃ p, assemble ["addi x1, x0, 0b101".toList] = .ok p ∧
    p.slots.map (decode p.labels) = [.ok (.addi 1 0 5)]) ∧
  (∃ p, assemble ["L:".toList, "beq x1, x2, L".toList, "j E".toList, "E:".toList] = .ok p ∧
    p.slots.map (decode p.labels) = [.ok (.beq 1 2 0), .ok (.j 2)]) ∧
  (∃ p, assemble ["vsetvl x5, x6".toList] = .ok p ∧
    p.slots.map (decode p.labels) = [.ok (.vsetvl 5 6)]) ∧
  (∃ p, assemble ["vlw v1, 2(x10)".toList, "vsw v1, 2, x10".toList] = .ok p ∧
    p.slots.map (decode p.labels) = [.ok (.vlw 1 2 10), .ok (.vsw 1 2 10)]) ∧
  (∃ p, assemble ["vmv.x.s x11, v4".toList] = .ok p ∧
    p.slots.map (decode p.labels) = [.ok (.vmvXS 11 4)]) ∧
  (∃ p, assemble ["vslideup.vx v5, v3, x8".toList] = .ok p ∧
    p.slots.map (decode p.labels) = [.ok (.vslideupVX 5 3 8)])

/-- Decode checks in the order of 30_encoding.md section 4 and raises the first that applies: the
opcode token, the operand count, the kinds left to right, the registers left to right, the label;
a slot that passes all of them decodes to an instruction of its opcode. An operand is of a slot's
kind and names a register of a slot's class in the spec's own forms (the order, the kind fault and the
class check are the spec's own, decisions D4, D7 and D11). -/
def Obligations.DecodeRaisesTheFirstFault : Prop :=
  ∀ (labels : LabelTable) (line : Nat) (token : Token) (ops : List Operand),
    ((∀ op : Opcode, op.token ≠ token) →
      decode labels ⟨line, token, ops⟩ = .error (.unknownOpcode token)) ∧
    ∀ op : Opcode, op.token = token →
      (ops.length ≠ op.shape.length →
        decode labels ⟨line, token, ops⟩ = .error (.badOperands ops.length)) ∧
      (ops.length = op.shape.length →
        (∀ (j : Nat) (k : Kind) (o : Operand),
          op.shape[j]? = some k → ops[j]? = some o → ¬ OperandOfKind k o →
          (∀ (i : Nat) (k' : Kind) (o' : Operand),
            i < j → op.shape[i]? = some k' → ops[i]? = some o' → OperandOfKind k' o') →
          decode labels ⟨line, token, ops⟩ = .error (.badOperands j)) ∧
        ((∀ (i : Nat) (k : Kind) (o : Operand),
          op.shape[i]? = some k → ops[i]? = some o → OperandOfKind k o) →
          (∀ (j : Nat) (k : Kind) (c : RegClass) (o : Operand),
            op.shape[j]? = some k → NeedsClass k c → ops[j]? = some o →
            (∀ r, ¬ NamesRegister c r o) →
            (∀ (i : Nat) (k' : Kind) (c' : RegClass) (o' : Operand),
              i < j → op.shape[i]? = some k' → NeedsClass k' c' → ops[i]? = some o' →
              ∃ r, NamesRegister c' r o') →
            (∀ name, o = .ident name →
              decode labels ⟨line, token, ops⟩ = .error (.unknownRegister j (.name name))) ∧
            (∀ d r, o = .reg d r →
              decode labels ⟨line, token, ops⟩ = .error (.unknownRegister j (.resolved d r)))) ∧
          ((∀ (i : Nat) (k : Kind) (c : RegClass) (o : Operand),
            op.shape[i]? = some k → NeedsClass k c → ops[i]? = some o →
              ∃ r, NamesRegister c r o) →
            (∀ (j : Nat) (name : Token), op.shape[j]? = some .L → ops[j]? = some (.ident name) →
              labelIndex labels name = none →
              decode labels ⟨line, token, ops⟩ = .error (.unknownLabel name)) ∧
            ((∀ (j : Nat) (name : Token), op.shape[j]? = some .L →
                ops[j]? = some (.ident name) → labelIndex labels name ≠ none) →
              ∃ i, decode labels ⟨line, token, ops⟩ = .ok i ∧ i.opcode = op))))

/-- Each opcode's token with the operands of its shape, in order, decodes to its instruction: a
register operand is any that names the register in the class the slot needs, by its numeric name, its
ABI name or as a resolved base, an immediate is its word and a label the index it is bound to
(30_encoding.md sections 3 and 4; the class check is decision D4, the immediate range D3). -/
def Obligations.EachOpcodeDecodesItsOperands : Prop :=
  ∀ (labels : LabelTable) (line : Nat) (x1 x2 x3 : XReg) (v1 v2 v3 : VReg)
    (a1 a2 a3 b1 b2 b3 : Operand),
    NamesRegister .X x1 a1 → NamesRegister .X x2 a2 → NamesRegister .X x3 a3 →
    NamesRegister .V v1 b1 → NamesRegister .V v2 b2 → NamesRegister .V v3 b3 →
    (∀ n : Nat, n ≤ 2147483647 →
      decode labels ⟨line, "addi".toList, [a1, a2, .imm n]⟩ = .ok (.addi x1 x2 (wordOf n)) ∧
      decode labels ⟨line, "vlw".toList, [b1, .imm n, a1]⟩ = .ok (.vlw v1 (wordOf n) x1) ∧
      decode labels ⟨line, "vsw".toList, [b1, .imm n, a1]⟩ = .ok (.vsw v1 (wordOf n) x1)) ∧
    (∀ (name : Token) (t : Nat), labelIndex labels name = some t →
      decode labels ⟨line, "j".toList, [.ident name]⟩ = .ok (.j t) ∧
      decode labels ⟨line, "beq".toList, [a1, a2, .ident name]⟩ = .ok (.beq x1 x2 t)) ∧
    decode labels ⟨line, "add".toList, [a1, a2, a3]⟩ = .ok (.add x1 x2 x3) ∧
    decode labels ⟨line, "sub".toList, [a1, a2, a3]⟩ = .ok (.sub x1 x2 x3) ∧
    decode labels ⟨line, "mul".toList, [a1, a2, a3]⟩ = .ok (.mul x1 x2 x3) ∧
    decode labels ⟨line, "vconfig".toList, []⟩ = .ok .vconfig ∧
    decode labels ⟨line, "vsetvl".toList, [a1, a2]⟩ = .ok (.vsetvl x1 x2) ∧
    decode labels ⟨line, "vmv.x.s".toList, [a1, b1]⟩ = .ok (.vmvXS x1 v1) ∧
    decode labels ⟨line, "vmv.s.x".toList, [b1, a1]⟩ = .ok (.vmvSX v1 x1) ∧
    decode labels ⟨line, "vmv.v.x".toList, [b1, a1]⟩ = .ok (.vmvVX v1 x1) ∧
    decode labels ⟨line, "vmv.v.v".toList, [b1, b2]⟩ = .ok (.vmvVV v1 v2) ∧
    decode labels ⟨line, "vadd.vv".toList, [b1, b2, b3]⟩ = .ok (.vaddVV v1 v2 v3) ∧
    decode labels ⟨line, "vmul.vx".toList, [b1, b2, a1]⟩ = .ok (.vmulVX v1 v2 x1) ∧
    decode labels ⟨line, "vslideup.vx".toList, [b1, b2, a1]⟩ = .ok (.vslideupVX v1 v2 x1) ∧
    decode labels ⟨line, "vslidedown.vx".toList, [b1, b2, a1]⟩ = .ok (.vslidedownVX v1 v2 x1) ∧
    decode labels ⟨line, "vindexmv".toList, [b1, b2, b3]⟩ = .ok (.vindexmv v1 v2 v3)

/-- An immediate operand is accepted exactly up to `2^(XLEN-1) - 1` and decodes to the word of that
signed value, unshifted and unscaled (30_encoding.md section 4, decision D3). -/
def Obligations.ImmediatesDecodeToTheirValue : Prop :=
  (∀ n : Nat, n ≤ 2147483647 → sval (wordOf n) = n) ∧
  (∀ (labels : LabelTable) (line n : Nat) (rd rs : XReg),
    (n ≤ 2147483647 →
      decode labels ⟨line, "addi".toList, [xOperand rd, xOperand rs, .imm n]⟩
        = .ok (.addi rd rs (wordOf n))) ∧
    (2147483647 < n →
      decode labels ⟨line, "addi".toList, [xOperand rd, xOperand rs, .imm n]⟩
        = .error (.badOperands 2))) ∧
  (∀ (labels : LabelTable) (line n : Nat) (v : VReg) (base : XReg),
    (n ≤ 2147483647 →
      decode labels ⟨line, "vlw".toList, [vOperand v, .imm n, xOperand base]⟩
        = .ok (.vlw v (wordOf n) base) ∧
      decode labels ⟨line, "vsw".toList, [vOperand v, .imm n, xOperand base]⟩
        = .ok (.vsw v (wordOf n) base)) ∧
    (2147483647 < n →
      decode labels ⟨line, "vlw".toList, [vOperand v, .imm n, xOperand base]⟩
        = .error (.badOperands 1) ∧
      decode labels ⟨line, "vsw".toList, [vOperand v, .imm n, xOperand base]⟩
        = .error (.badOperands 1)))

/-- A register name resolves to a class and index exactly when it is the class letter and the
canonical decimal of the index, or an ABI name of a scalar register (30_encoding.md section 2,
decisions D5, D6 and D30). -/
def Obligations.RegisterNamesResolve : Prop :=
  ∀ (name : Token) (c : RegClass) (i : RegIndex),
    resolve name = some (c, i) ↔ name = regName c i ∨ (c = .X ∧ (name, i) ∈ abiNames)

/-- The memory form `offset(base)` and the three-token form `offset, base` decode to the same
instruction, for every name of a scalar register (30_encoding.md section 3). -/
def Obligations.MemoryFormsDecodeAlike : Prop :=
  ∀ (digits name : Token) (n : Nat) (base : XReg), decimalLiteral digits = some n →
    resolve name = some (.X, base) →
    operandsOf (digits ++ '(' :: name ++ [')']) = some [.imm n, .reg .X base] ∧
    ∀ (labels : LabelTable) (line : Nat) (o : Operand) (token : Token),
      token = "vlw".toList ∨ token = "vsw".toList →
      decode labels ⟨line, token, [o, .imm n, .reg .X base]⟩
        = decode labels ⟨line, token, [o, .imm n, .ident name]⟩

/-- Decode and encode agree: the encoder gives a slot for every well-formed instruction whose target,
if it has one, some label names, and the slot decodes to that instruction, operand for operand. -/
def Obligations.DecodeInvertsEncode : Prop :=
  ∀ (labels : LabelTable) (line n : Nat) (i : Instr), i.wf n = true →
    (∀ t, (i = .j t ∨ ∃ a b, i = .beq a b t) → ∃ name, labelIndex labels name = some t) →
    ∃ slot, encode labels line i = some slot ∧ decode labels slot = .ok i

/-- The assembler reads back what the encoder writes as text: the line of an encoded well-formed
instruction assembles to exactly its slot. -/
def Obligations.AssemblerReadsEncodedText : Prop :=
  ∀ (labels : LabelTable) (line n : Nat) (i : Instr) (slot : Slot) (p : Program),
    i.wf n = true → (∀ e, e ∈ labels → isIdentifier e.1 = true) →
    encode labels line i = some slot →
    assembleLine line p (lineText slot) = .ok { p with slots := p.slots ++ [slot] }

/-- Every decoded instruction is well-formed for a program whose labels lie within it: its immediate
is in range, its target in `[0, N]` (30_encoding.md section 4, 41_control.md section 2). -/
def Obligations.DecodedInstructionsAreWellFormed : Prop :=
  ∀ (labels : LabelTable) (slot : Slot) (n : Nat) (i : Instr), labelsWithin n labels = true →
    decode labels slot = .ok i → i.wf n = true

/-! ### The assembler -/

/-- A label definition binds its name to the number of instruction slots before it, whatever lines
follow, and occupies no slot itself; that index is at most `N`, it is `N` for a label after the last
instruction, and a jump there halts the engine (30_encoding.md R62). -/
def Obligations.LabelsBindTheNextInstruction : Prop :=
  (∀ (before after : List Token) (name : Token) (p : Program), isIdentifier name = true →
    assemble (before ++ (name ++ [':']) :: after) = .ok p →
    ∃ q, assemble before = .ok q ∧
      assemble (before ++ [name ++ [':']])
        = .ok { q with labels := q.labels ++ [(name, q.slots.length)] } ∧
      labelIndex p.labels name = some q.slots.length ∧ q.slots.length ≤ p.slots.length ∧
      (p.slots = q.slots → labelIndex p.labels name = some p.slots.length)) ∧
  (∀ s t : State, s.fault = none → exec (.j s.slots.length) s = .next t → status t = .halted)

/-- Every label of an assembled program is an identifier, bound once, to an index in `[0, N]`
(30_encoding.md section 2). -/
def Obligations.LabelTableIsWellFormed : Prop :=
  ∀ (lines : List Token) (p : Program), assemble lines = .ok p →
    labelsWithin p.slots.length p.labels = true ∧ labelsDistinct p.labels = true ∧
      ∀ e, e ∈ p.labels → isIdentifier e.1 = true

/-- The assembler stops at the first line in error and reports its 1-based number: the lines before
it assemble (30_encoding.md section 2). -/
def Obligations.FirstParseErrorStops : Prop :=
  ∀ (lines : List Token) (e : ParseError), assemble lines = .error e →
    ∃ before text after p, lines = before ++ text :: after ∧ assemble before = .ok p ∧
      assembleLine e.line p text = .error e ∧ e.line = before.length + 1

/-- A comment, surrounding whitespace and a blank line have no effect (30_encoding.md section 2; the
whitespace set is decision D31). -/
def Obligations.CommentsAndBlanksHaveNoEffect : Prop :=
  ∀ (line : Nat) (p : Program) (text comment spaces spaces' : Token),
    spaces.all isSpace = true → spaces'.all isSpace = true →
    assembleLine line p (text ++ ';' :: comment) = assembleLine line p text ∧
    assembleLine line p (spaces ++ text ++ spaces') = assembleLine line p text ∧
    assembleLine line p spaces = .ok p

/-! ### Data memory -/

/-- `MemRead` and `MemWrite` (20_memory.md section 2): where every address exists, a write of a list
makes the cells read its words and changes no other cell and nothing but memory, and a read gives
the words of its addresses in order; with no word, the read is empty and the write changes nothing,
at every address (R42, R43). That memory is canonical before a write and stays so is the model's own
choice of form (log entry 1). -/
def Obligations.MemoryReadsAndWrites : Prop :=
  (∀ (s : State) (a : Int) (ws : List Word), s.mem.wf = true →
    (∀ k : Nat, k < ws.length → 0 ≤ a + k ∧ a + k < 1024) →
    memRead (memWrite a ws s) a ws.length = ws ∧
    (∀ b : Nat, ((b : Int) < a ∨ a + ws.length ≤ b) →
      readCell (memWrite a ws s) b = readCell s b) ∧
    { memWrite a ws s with mem := s.mem } = s ∧ (memWrite a ws s).mem.wf = true) ∧
  (∀ (s : State) (a : Int) (n k : Nat), (∀ k : Nat, k < n → 0 ≤ a + k ∧ a + k < 1024) → k < n →
    (memRead s a n)[k]? = some (readCell s (a + k).toNat)) ∧
  (∀ (s : State) (a : Int), memRead s a 0 = [] ∧ memWrite a [] s = s)

/-- A vector store followed by a vector load from the same base and offset gives the destination the
stored lanes, in every state where the store passes its range check (20_memory.md section 5) and
memory is canonical, the model's own choice of form (log entry 1). -/
def Obligations.LoadAfterStoreGivesTheStoredLanes : Prop :=
  ∀ (s : State) (vs vd : VReg) (offset : Word) (base : XReg), s.mem.wf = true →
    (∀ k : Nat, k < s.vl → 0 ≤ sval (readX s base) + sval offset + k ∧
      sval (readX s base) + sval offset + k < 1024) →
    ∃ t u, exec (.vsw vs offset base) s = .next t ∧ exec (.vlw vd offset base) t = .next u ∧
      u.fault = s.fault ∧
      ∀ k, k < s.vl → k < Config.VLEN → readLane u vd k = readLane s vs k

/-! ### Scalar arithmetic: result, completion and frame -/

/-- `addi`: `rd` is the sum reduced to a word, exact when the sum fits a word; a write to `x0` is
discarded; nothing else changes but the pc and `cycles` (40_scalar_alu.md section 2; the wrap is
decision D2, log entry 3). -/
def Obligations.AddiResult : Prop :=
  ∀ (rd rs : XReg) (imm : Word) (s : State), ∃ t, exec (.addi rd rs imm) s = .next t ∧
    RetiredNext s t ∧
    readX t rd = (if rd = 0 then 0 else wordOf (sval (readX s rs) + sval imm)) ∧
    (rd ≠ 0 → -2147483648 ≤ sval (readX s rs) + sval imm →
      sval (readX s rs) + sval imm < 2147483648 →
      sval (readX t rd) = sval (readX s rs) + sval imm) ∧
    OtherScalarsKept rd s t ∧ VectorsKept s t ∧ MemoryKept s t ∧ t.vl = s.vl ∧
    t.memAccesses = s.memAccesses

/-- `add`, as `addi` with a second register (40_scalar_alu.md section 2, decision D2). -/
def Obligations.AddResult : Prop :=
  ∀ (rd rs1 rs2 : XReg) (s : State), ∃ t, exec (.add rd rs1 rs2) s = .next t ∧
    RetiredNext s t ∧
    readX t rd = (if rd = 0 then 0 else wordOf (sval (readX s rs1) + sval (readX s rs2))) ∧
    (rd ≠ 0 → -2147483648 ≤ sval (readX s rs1) + sval (readX s rs2) →
      sval (readX s rs1) + sval (readX s rs2) < 2147483648 →
      sval (readX t rd) = sval (readX s rs1) + sval (readX s rs2)) ∧
    OtherScalarsKept rd s t ∧ VectorsKept s t ∧ MemoryKept s t ∧ t.vl = s.vl ∧
    t.memAccesses = s.memAccesses

/-- `sub` (40_scalar_alu.md section 2, decision D2). -/
def Obligations.SubResult : Prop :=
  ∀ (rd rs1 rs2 : XReg) (s : State), ∃ t, exec (.sub rd rs1 rs2) s = .next t ∧
    RetiredNext s t ∧
    readX t rd = (if rd = 0 then 0 else wordOf (sval (readX s rs1) - sval (readX s rs2))) ∧
    (rd ≠ 0 → -2147483648 ≤ sval (readX s rs1) - sval (readX s rs2) →
      sval (readX s rs1) - sval (readX s rs2) < 2147483648 →
      sval (readX t rd) = sval (readX s rs1) - sval (readX s rs2)) ∧
    OtherScalarsKept rd s t ∧ VectorsKept s t ∧ MemoryKept s t ∧ t.vl = s.vl ∧
    t.memAccesses = s.memAccesses

/-- `mul`: the low bits of the product, whatever the signs (40_scalar_alu.md section 2, decision
D2). -/
def Obligations.MulResult : Prop :=
  ∀ (rd rs1 rs2 : XReg) (s : State), ∃ t, exec (.mul rd rs1 rs2) s = .next t ∧
    RetiredNext s t ∧
    readX t rd = (if rd = 0 then 0 else wordOf (sval (readX s rs1) * sval (readX s rs2))) ∧
    (rd ≠ 0 → -2147483648 ≤ sval (readX s rs1) * sval (readX s rs2) →
      sval (readX s rs1) * sval (readX s rs2) < 2147483648 →
      sval (readX t rd) = sval (readX s rs1) * sval (readX s rs2)) ∧
    OtherScalarsKept rd s t ∧ VectorsKept s t ∧ MemoryKept s t ∧ t.vl = s.vl ∧
    t.memAccesses = s.memAccesses

/-! ### Control transfer -/

/-- `j`: the pc is the target, whatever it is, and one cycle is counted; no register, lane, cell or
length changes (41_control.md section 3; a jump to its own index is decision D13). -/
def Obligations.JumpResult : Prop :=
  ∀ (target : Nat) (s : State), ∃ t, exec (.j target) s = .next t ∧ Retired target s t ∧
    ScalarsKept s t ∧ VectorsKept s t ∧ MemoryKept s t ∧ t.vl = s.vl ∧
    t.memAccesses = s.memAccesses

/-- `beq`: the pc is the target when the two registers hold equal words, that is equal signed values,
and the next index otherwise; no register, lane, cell or length changes (41_control.md section 3). -/
def Obligations.BranchResult : Prop :=
  ∀ (rs1 rs2 : XReg) (target : Nat) (s : State), ∃ t, exec (.beq rs1 rs2 target) s = .next t ∧
    (sval (readX s rs1) = sval (readX s rs2) → Retired target s t) ∧
    (sval (readX s rs1) ≠ sval (readX s rs2) → RetiredNext s t) ∧
    ScalarsKept s t ∧ VectorsKept s t ∧ MemoryKept s t ∧ t.vl = s.vl ∧
    t.memAccesses = s.memAccesses

/-! ### Vector configuration -/

/-- `vconfig`: `vl` is `VLEN`, and no register, lane or cell changes (42_vector_config.md, `vconfig`);
it takes no operand, and any other number is a fault that carries that number (30_encoding.md section
4, decision D7). -/
def Obligations.VconfigResult : Prop :=
  (∀ s : State, ∃ t, exec .vconfig s = .next t ∧ RetiredNext s t ∧ t.vl = 128 ∧
    ScalarsKept s t ∧ VectorsKept s t ∧ MemoryKept s t ∧ t.memAccesses = s.memAccesses) ∧
  (∀ (labels : LabelTable) (line : Nat) (ops : List Operand),
    decode labels ⟨line, "vconfig".toList, ops⟩
      = if ops = [] then .ok .vconfig else .error (.badOperands ops.length))

/-- `vsetvl`: with a request that is not negative, `vl` and `rd` are the request clamped to `VLEN`
and nothing else changes; a negative request faults (42_vector_config.md, `vsetvl`; the fault is
decision D14). -/
def Obligations.VsetvlResult : Prop :=
  ∀ (rd rs : XReg) (s : State),
    (0 ≤ sval (readX s rs) → ∃ t, exec (.vsetvl rd rs) s = .next t ∧ RetiredNext s t ∧
      (t.vl : Int) = min 128 (sval (readX s rs)) ∧
      sval (readX t rd) = (if rd = 0 then 0 else min 128 (sval (readX s rs))) ∧
      OtherScalarsKept rd s t ∧ VectorsKept s t ∧ MemoryKept s t ∧
      t.memAccesses = s.memAccesses) ∧
    (sval (readX s rs) < 0 → ∃ t, exec (.vsetvl rd rs) s = .next t ∧
      FaultTaken (.vlNegative (sval (readX s rs))) s t)

/-! ### Vector memory -/

/-- `vlw`: where every lane address exists, the lanes `[0, vl)` of `vd` are the consecutive words from
`x[base] + offset` on, the others are kept, and `vl` accesses are counted; otherwise the first
address that does not exist is reported and nothing is transferred (43_vector_memory.md, `vlw`; the
range check is decision D20). -/
def Obligations.VectorLoadResult : Prop :=
  ∀ (vd : VReg) (offset : Word) (base : XReg) (s : State),
    ((∀ k : Nat, k < s.vl → 0 ≤ sval (readX s base) + sval offset + k ∧
        sval (readX s base) + sval offset + k < 1024) →
      ∃ t, exec (.vlw vd offset base) s = .next t ∧ RetiredNext s t ∧
        (∀ k, k < s.vl → k < Config.VLEN →
          readLane t vd k = readCell s (sval (readX s base) + sval offset + k).toNat) ∧
        (∀ k, s.vl ≤ k → k < Config.VLEN → readLane t vd k = readLane s vd k) ∧
        ScalarsKept s t ∧ OtherVectorsKept vd s t ∧ MemoryKept s t ∧ t.vl = s.vl ∧
        t.memAccesses = s.memAccesses + s.vl) ∧
    (∀ k : Nat, k < s.vl → inMemory (sval (readX s base) + sval offset + k) = false →
      (∀ j : Nat, j < k → inMemory (sval (readX s base) + sval offset + j) = true) →
      ∃ t, exec (.vlw vd offset base) s = .next t ∧
        FaultTaken (.memOutOfRange (sval (readX s base) + sval offset + k)) s t)

/-- `vsw`: where every lane address exists, the cells from `x[base] + offset` on read the lanes
`[0, vl)` of `vs`, every cell outside them and every register, lane and length is kept, and `vl`
accesses are counted; otherwise the first address that does not exist is reported and nothing is
written (43_vector_memory.md, `vsw`; the range check is decision D20). Canonical memory, under which the
stored cells are read back, is the model's own choice of form (log entry 1) and an invariant of it. -/
def Obligations.VectorStoreResult : Prop :=
  ∀ (vs : VReg) (offset : Word) (base : XReg) (s : State),
    ((∀ k : Nat, k < s.vl → 0 ≤ sval (readX s base) + sval offset + k ∧
        sval (readX s base) + sval offset + k < 1024) →
      ∃ t, exec (.vsw vs offset base) s = .next t ∧ RetiredNext s t ∧
        (s.mem.wf = true → ∀ k, k < s.vl →
          readCell t (sval (readX s base) + sval offset + k).toNat = readLane s vs k) ∧
        (∀ a : Nat, ((a : Int) < sval (readX s base) + sval offset ∨
            sval (readX s base) + sval offset + s.vl ≤ a) → readCell t a = readCell s a) ∧
        ScalarsKept s t ∧ VectorsKept s t ∧ t.vl = s.vl ∧
        t.memAccesses = s.memAccesses + s.vl) ∧
    (∀ k : Nat, k < s.vl → inMemory (sval (readX s base) + sval offset + k) = false →
      (∀ j : Nat, j < k → inMemory (sval (readX s base) + sval offset + j) = true) →
      ∃ t, exec (.vsw vs offset base) s = .next t ∧
        FaultTaken (.memOutOfRange (sval (readX s base) + sval offset + k)) s t)

/-! ### Moves -/

/-- `vmv.x.s`: `rd` is lane 0 of `vs`, whatever `vl` is; nothing else changes (44_vector_move.md,
`vmv.x.s`; lane 0 with `vl` = 0 is decision D21). -/
def Obligations.MoveLaneToScalarResult : Prop :=
  ∀ (rd : XReg) (vs : VReg) (s : State), ∃ t, exec (.vmvXS rd vs) s = .next t ∧
    RetiredNext s t ∧ readX t rd = (if rd = 0 then 0 else readLane s vs 0) ∧
    OtherScalarsKept rd s t ∧ VectorsKept s t ∧ MemoryKept s t ∧ t.vl = s.vl ∧
    t.memAccesses = s.memAccesses

/-- `vmv.s.x`: lane 0 of `vd` is `x[rs]`, whatever `vl` is, and its other lanes are kept
(44_vector_move.md, `vmv.s.x`; lane 0 with `vl` = 0 is decision D21). -/
def Obligations.MoveScalarToLaneResult : Prop :=
  ∀ (vd : VReg) (rs : XReg) (s : State), ∃ t, exec (.vmvSX vd rs) s = .next t ∧
    RetiredNext s t ∧ readLane t vd 0 = readX s rs ∧
    (∀ k, 0 < k → k < Config.VLEN → readLane t vd k = readLane s vd k) ∧
    ScalarsKept s t ∧ OtherVectorsKept vd s t ∧ MemoryKept s t ∧ t.vl = s.vl ∧
    t.memAccesses = s.memAccesses

/-- `vmv.v.x`: the lanes `[0, vl)` of `vd` are `x[rs]`, the others are kept
(44_vector_move.md R101). -/
def Obligations.BroadcastResult : Prop :=
  ∀ (vd : VReg) (rs : XReg) (s : State), ∃ t, exec (.vmvVX vd rs) s = .next t ∧
    RetiredNext s t ∧
    (∀ k, k < s.vl → k < Config.VLEN → readLane t vd k = readX s rs) ∧
    (∀ k, s.vl ≤ k → k < Config.VLEN → readLane t vd k = readLane s vd k) ∧
    ScalarsKept s t ∧ OtherVectorsKept vd s t ∧ MemoryKept s t ∧ t.vl = s.vl ∧
    t.memAccesses = s.memAccesses

/-- `vmv.v.v`: the lanes `[0, vl)` of `vd` are those of `vs`, the others are kept
(44_vector_move.md R102). -/
def Obligations.VectorCopyResult : Prop :=
  ∀ (vd vs : VReg) (s : State), ∃ t, exec (.vmvVV vd vs) s = .next t ∧
    RetiredNext s t ∧
    (∀ k, k < s.vl → k < Config.VLEN → readLane t vd k = readLane s vs k) ∧
    (∀ k, s.vl ≤ k → k < Config.VLEN → readLane t vd k = readLane s vd k) ∧
    ScalarsKept s t ∧ OtherVectorsKept vd s t ∧ MemoryKept s t ∧ t.vl = s.vl ∧
    t.memAccesses = s.memAccesses

/-! ### Vector arithmetic, slides, scatter -/

/-- `vadd.vv`: every lane of `vd`, at or above `vl` too, is the sum of the lanes reduced to a word;
nothing else changes (45_vector_arith.md, `vadd.vv`, conflict C6; the wrap is decision D2). -/
def Obligations.VectorAddResult : Prop :=
  ∀ (vd vs1 vs2 : VReg) (s : State), ∃ t, exec (.vaddVV vd vs1 vs2) s = .next t ∧
    RetiredNext s t ∧
    (∀ k, k < Config.VLEN →
      readLane t vd k = wordOf (sval (readLane s vs1 k) + sval (readLane s vs2 k))) ∧
    ScalarsKept s t ∧ OtherVectorsKept vd s t ∧ MemoryKept s t ∧ t.vl = s.vl ∧
    t.memAccesses = s.memAccesses

/-- `vmul.vx`: the lanes `[0, vl)` of `vd` are the products with `x[rs]` reduced to words, the others
are kept (45_vector_arith.md, `vmul.vx`; the wrap is decision D2). -/
def Obligations.VectorScaleResult : Prop :=
  ∀ (vd vs : VReg) (rs : XReg) (s : State), ∃ t, exec (.vmulVX vd vs rs) s = .next t ∧
    RetiredNext s t ∧
    (∀ k, k < s.vl → k < Config.VLEN →
      readLane t vd k = wordOf (sval (readLane s vs k) * sval (readX s rs))) ∧
    (∀ k, s.vl ≤ k → k < Config.VLEN → readLane t vd k = readLane s vd k) ∧
    ScalarsKept s t ∧ OtherVectorsKept vd s t ∧ MemoryKept s t ∧ t.vl = s.vl ∧
    t.memAccesses = s.memAccesses

/-- `vslideup.vx`: with a shift `n` in `[0, vl]` the lanes `[0, vl - n)` of `vd` are the lanes
`[n, vl)` of `vs`, the lanes above `vl - n` and below `vl` are zero, lane `vl - n` (when below `vl`)
is zero or kept as `SLIDEUP_BOUNDARY` says, and the lanes from `vl` on are kept; any other shift
faults (45_vector_arith.md, `vslideup.vx`, conflict C5, decisions D15 to D18). -/
def Obligations.SlideUpResult : Prop :=
  ∀ (vd vs : VReg) (rs : XReg) (s : State),
    (∀ n : Nat, sval (readX s rs) = n → n ≤ s.vl →
      ∃ t, exec (.vslideupVX vd vs rs) s = .next t ∧ RetiredNext s t ∧
        (∀ k, k < s.vl - n → k < Config.VLEN → readLane t vd k = readLane s vs (k + n)) ∧
        (∀ k, s.vl - n < k → k < s.vl → k < Config.VLEN → readLane t vd k = 0) ∧
        (0 < n → s.vl - n < Config.VLEN →
          (Config.slideupBoundary = .natural → readLane t vd (s.vl - n) = 0) ∧
          (Config.slideupBoundary = .reference →
            readLane t vd (s.vl - n) = readLane s vd (s.vl - n))) ∧
        (∀ k, s.vl ≤ k → k < Config.VLEN → readLane t vd k = readLane s vd k) ∧
        ScalarsKept s t ∧ OtherVectorsKept vd s t ∧ MemoryKept s t ∧ t.vl = s.vl ∧
        t.memAccesses = s.memAccesses) ∧
    ((sval (readX s rs) < 0 ∨ (s.vl : Int) < sval (readX s rs)) →
      ∃ t, exec (.vslideupVX vd vs rs) s = .next t ∧
        FaultTaken (.slideOutOfRange (sval (readX s rs))) s t)

/-- `vslidedown.vx`: with a shift `n` in `[0, vl]` the lanes `[n, vl)` of `vd` are the lanes
`[0, vl - n)` of `vs`, the lanes below `n` are zero, and the lanes from `vl` on are kept; any other
shift faults (45_vector_arith.md, `vslidedown.vx`, decisions D15 and D18). -/
def Obligations.SlideDownResult : Prop :=
  ∀ (vd vs : VReg) (rs : XReg) (s : State),
    (∀ n : Nat, sval (readX s rs) = n → n ≤ s.vl →
      ∃ t, exec (.vslidedownVX vd vs rs) s = .next t ∧ RetiredNext s t ∧
        (∀ k, n ≤ k → k < s.vl → k < Config.VLEN → readLane t vd k = readLane s vs (k - n)) ∧
        (∀ k, k < n → k < Config.VLEN → readLane t vd k = 0) ∧
        (∀ k, s.vl ≤ k → k < Config.VLEN → readLane t vd k = readLane s vd k) ∧
        ScalarsKept s t ∧ OtherVectorsKept vd s t ∧ MemoryKept s t ∧ t.vl = s.vl ∧
        t.memAccesses = s.memAccesses) ∧
    ((sval (readX s rs) < 0 ∨ (s.vl : Int) < sval (readX s rs)) →
      ∃ t, exec (.vslidedownVX vd vs rs) s = .next t ∧
        FaultTaken (.slideOutOfRange (sval (readX s rs))) s t)

/-- `vindexmv`: with every active index in `[0, VLEN)`, lane `vidx[i]` of `vd` is `vs[i]` for the
highest active `i` with that index, and every lane no active index names is kept; otherwise the
first active lane whose index is outside is reported and nothing is written (45_vector_arith.md,
`vindexmv`, decisions D18 and D19). -/
def Obligations.ScatterResult : Prop :=
  ∀ (vd vs vidx : VReg) (s : State),
    ((∀ i : Nat, i < s.vl → 0 ≤ sval (readLane s vidx i) ∧ sval (readLane s vidx i) < 128) →
      ∃ t, exec (.vindexmv vd vs vidx) s = .next t ∧ RetiredNext s t ∧
        (∀ i : Nat, i < s.vl →
          (∀ j, i < j → j < s.vl → sval (readLane s vidx j) ≠ sval (readLane s vidx i)) →
          readLane t vd (sval (readLane s vidx i)).toNat = readLane s vs i) ∧
        (∀ k : Nat, k < Config.VLEN → (∀ i, i < s.vl → sval (readLane s vidx i) ≠ k) →
          readLane t vd k = readLane s vd k) ∧
        ScalarsKept s t ∧ OtherVectorsKept vd s t ∧ MemoryKept s t ∧ t.vl = s.vl ∧
        t.memAccesses = s.memAccesses) ∧
    (∀ i : Nat, i < s.vl → isLaneIndex (sval (readLane s vidx i)) = false →
      (∀ j, j < i → isLaneIndex (sval (readLane s vidx j)) = true) →
      ∃ t, exec (.vindexmv vd vs vidx) s = .next t ∧
        FaultTaken (.vIndexOutOfRange i (sval (readLane s vidx i))) s t)

/-! ### The sparse encoder, the loader and the preload -/

/-- The sparse encoder: for every rectangular matrix, the row pointers start at 0, have one entry
more than there are rows and rise by the count of non-zero entries of each row, so that the last is
the length of the two parallel arrays; the values are the non-zero entries in row-major order, and the
column indices are their columns in the same order; the matrix is reconstructed exactly; and the
spec's worked example comes out (70_reset_and_hazards.md R133, R134). -/
def Obligations.SparseEncoderIsFaithful : Prop :=
  csrEncode ⟨4, [[3, 2, 0, 0], [0, 0, 0, 0], [4, 5, 1, 0], [0, 0, 3, 2]]⟩
    = ⟨[0, 2, 2, 5, 7], [0, 1, 0, 1, 2, 2, 3], [3, 2, 4, 5, 1, 3, 2]⟩ ∧
  ∀ m : DenseMatrix, m.rectangular = true →
    csrReconstruct m.cols (csrEncode m) = m ∧
    (csrEncode m).rowPtr.length = m.rows.length + 1 ∧
    (csrEncode m).rowPtr[0]? = some 0 ∧
    (∀ i row, m.rows[i]? = some row → ∃ p q, (csrEncode m).rowPtr[i]? = some p ∧
      (csrEncode m).rowPtr[i + 1]? = some q ∧ q = p + (row.filter fun v => decide (v ≠ 0)).length) ∧
    (csrEncode m).rowPtr.getLast? = some (csrEncode m).values.length ∧
    (csrEncode m).colIdx.length = (csrEncode m).values.length ∧
    (csrEncode m).values = (m.rows.flatten.filter fun v => decide (v ≠ 0)) ∧
    (csrEncode m).colIdx = m.rows.flatMap fun row =>
      (List.range m.cols).filter fun j => decide (row[j]? ≠ some 0)

/-- The loader's memory layout: the six arrays are `A`'s row pointers, column indices and values, then
those of `B`'s transpose, whose entry `[i][j]` is `B`'s `[j][i]`; each starts where the previous one
ends, from address 0 on, its words in order, and every cell from the end of the last array on is as
before (70_reset_and_hazards.md section 3, conflict C9; the array order is decision D26, the refusal
of arrays that do not fit D27). That memory is canonical before and stays so is the model's own form
(log entry 1). -/
def Obligations.LoaderLaysOutTheArrays : Prop :=
  ∀ (a b : DenseMatrix) (s t : State), loadCsr a b s = .next t → s.mem.wf = true →
    (b.transpose.cols = b.rows.length ∧ b.transpose.rows.length = b.cols ∧
      b.transpose.rectangular = true ∧
      ∀ (i j : Nat) (row row' : List Int), b.transpose.rows[i]? = some row → b.rows[j]? = some row' →
        row[j]? = row'[i]?) ∧
    ∀ arrays : List (List Int), arrays =
      [(csrEncode a).rowPtr.map Int.ofNat, (csrEncode a).colIdx.map Int.ofNat, (csrEncode a).values,
        (csrEncode b.transpose).rowPtr.map Int.ofNat,
        (csrEncode b.transpose).colIdx.map Int.ofNat, (csrEncode b.transpose).values] →
      (∀ k array j v, arrays[k]? = some array → array[j]? = some v →
        readCell t (((arrays.take k).map List.length).sum + j) = wordOf v) ∧
      (∀ c, (arrays.map List.length).sum ≤ c → readCell t c = readCell s c) ∧ t.mem.wf = true

/-- The loader's registers: for the OPEN register numbers, the six bases, the six lengths, `A`'s
column and row counts and the write cursor; every other register, every lane, `vl`, the pc, the
counters and the program are kept; the output element count is rows of `A` times columns of `B`; and
the call is recorded, so that a second one is refused (70_reset_and_hazards.md section 3; the placement
is decision D25, log entry 5; the array order D26; at most one call D27, recorded as log entry 8
says). That every further call, one that fails another check too, is refused by the name `secondCall`
is the model's own choice of names and of their order (log entry 9). -/
def Obligations.LoaderRecordsTheLayout : Prop :=
  ∀ (a b : DenseMatrix) (s t : State), loadCsr a b s = .next t →
    (∀ arrays : List (List Int), arrays =
      [(csrEncode a).rowPtr.map Int.ofNat, (csrEncode a).colIdx.map Int.ofNat, (csrEncode a).values,
        (csrEncode b.transpose).rowPtr.map Int.ofNat,
        (csrEncode b.transpose).colIdx.map Int.ofNat, (csrEncode b.transpose).values] →
      (∀ k array, arrays[k]? = some array →
        readX t (Fin.ofNat 32 (Config.loaderRegs.addrReg0 + k))
          = wordOf ((arrays.take k).map List.length).sum ∧
        readX t (Fin.ofNat 32 (Config.loaderRegs.addrReg0 + 6 + k)) = wordOf array.length) ∧
      readX t (Fin.ofNat 32 Config.loaderRegs.cursor) = wordOf (arrays.map List.length).sum) ∧
    readX t (Fin.ofNat 32 Config.loaderRegs.acols) = wordOf a.cols ∧
    readX t (Fin.ofNat 32 Config.loaderRegs.arows) = wordOf a.rows.length ∧
    (∀ r : XReg, (r.val < Config.loaderRegs.addrReg0 ∨ Config.loaderRegs.addrReg0 + 12 ≤ r.val) →
      r.val ≠ Config.loaderRegs.acols → r.val ≠ Config.loaderRegs.arows →
      r.val ≠ Config.loaderRegs.cursor → readX t r = readX s r) ∧
    VectorsKept s t ∧ t.vl = s.vl ∧ t.pc = s.pc ∧ t.cycles = s.cycles ∧
    t.memAccesses = s.memAccesses ∧ t.fault = s.fault ∧ t.slots = s.slots ∧
    t.labels = s.labels ∧ t.programLoaded = s.programLoaded ∧
    t.outCount = a.rows.length * b.cols ∧ t.csrLoaded = true ∧
    ∀ a' b', loadCsr a' b' t = .refused (.loader .secondCall)

/-- The loader is admitted exactly when both matrices are rectangular, every entry is in the signed
range of a word, the six arrays fit in memory, it has not been called before and no step has been
taken; a call that is not admitted is refused (70_reset_and_hazards.md section 3, decision D27). "Not
called before" and "no step taken" are read off `csrLoaded`, `cycles` and the fault record (log
entry 8). -/
def Obligations.LoaderIsAdmittedExactlyWhen : Prop :=
  ∀ (a b : DenseMatrix) (s : State),
    ((∃ t, loadCsr a b s = .next t) ↔
      (∀ m, m = a ∨ m = b → ∀ row, row ∈ m.rows → row.length = m.cols ∧
        ∀ v, v ∈ row → -2147483648 ≤ v ∧ v < 2147483648) ∧
      (csrEncode a).rowPtr.length + (csrEncode a).colIdx.length + (csrEncode a).values.length
        + (csrEncode b.transpose).rowPtr.length + (csrEncode b.transpose).colIdx.length
        + (csrEncode b.transpose).values.length ≤ 1024 ∧
      s.csrLoaded = false ∧ s.cycles = 0 ∧ s.fault = none) ∧
    ((∃ t, loadCsr a b s = .next t) ∨ ∃ r, loadCsr a b s = .refused r)

/-- The host's preload: before the first step it writes exactly the named register (not `x0`), lane
or cell and nothing else; after it, and at `x0` or an address outside memory, it is refused
(70_reset_and_hazards.md section 3, decision D24). "The first step" is read off `cycles` and the fault
record (log entry 8), the refusals are the model's (log entry 9), and that a written cell is read back
in canonical memory, which stays canonical, rests on the model's own form of memory (log entry 1). -/
def Obligations.PreloadWritesOnlyBeforeTheFirstStep : Prop :=
  ∀ (s : State),
    ((s.cycles ≠ 0 ∨ s.fault ≠ none) → ∀ p, preload p s = .refused .afterFirstStep) ∧
    (s.cycles = 0 → s.fault = none →
      (∀ (r : XReg) (w : Word), r ≠ 0 → ∃ t, preload (.scalar r w) s = .next t ∧
        readX t r = w ∧ OtherScalarsKept r s t ∧ VectorsKept s t ∧ MemoryKept s t ∧
        ControlKept s t) ∧
      (∀ (d : VReg) (k : Fin 128) (w : Word), ∃ t, preload (.lane d k w) s = .next t ∧
        readLane t d k = w ∧ (∀ j, j ≠ k.val → j < 128 → readLane t d j = readLane s d j) ∧
        OtherVectorsKept d s t ∧ ScalarsKept s t ∧ MemoryKept s t ∧ ControlKept s t) ∧
      (∀ (a : Nat) (w : Word), a < 1024 → ∃ t, preload (.cell a w) s = .next t ∧
        (s.mem.wf = true → readCell t a = w ∧ t.mem.wf = true) ∧
        (∀ b, b ≠ a → readCell t b = readCell s b) ∧
        ScalarsKept s t ∧ VectorsKept s t ∧ ControlKept s t) ∧
      (∀ w, preload (.scalar 0 w) s = .refused .noSuchTarget) ∧
      (∀ (a : Nat) (w : Word), 1024 ≤ a → preload (.cell a w) s = .refused .noSuchTarget))
end

