-- ==== Sys2Proof/Laws/Assembler.lean ====
section
/-! SUPPORT. What a line does to the program (30_encoding.md R60 to R63), and assembling a text in
two parts. -/

namespace Sys2Proof

/-- A line has no effect, binds a new identifier to the next index, or appends one slot. -/
theorem assembleLine_cases {line : Nat} {p q : Program} {text : Token}
    (h : assembleLine line p text = .ok q) :
    q = p ∨
    (∃ name, isIdentifier name = true ∧ labelIndex p.labels name = none ∧
      q = { p with labels := p.labels ++ [(name, p.slots.length)] }) ∨
    ∃ slot, q = { p with slots := p.slots ++ [slot] } := by
  simp only [assembleLine] at h
  split at h
  · exact .inl (by simpa using h.symm)
  · split at h
    · simp only [defineLabel] at h
      split at h
      · cases h
      · rename_i h1
        split at h
        · cases h
        · rename_i h2
          exact .inr (.inl ⟨_, by simpa using h1, by simpa using h2, by simpa using h.symm⟩)
    · cases ht : tokensOf (trim (stripComment text)) with
      | nil =>
        rw [ht] at h
        exact .inl (by simpa [appendInstruction] using h.symm)
      | cons opcode rest =>
        rw [ht] at h
        simp only [appendInstruction] at h
        split at h
        · cases h
        · exact .inr (.inr ⟨_, by simpa using h.symm⟩)

/-- A parse error is reported with the line it is found on (R67). -/
theorem assembleLine_error {line : Nat} {p : Program} {text : Token} {e : ParseError}
    (h : assembleLine line p text = .error e) : e.line = line := by
  simp only [assembleLine] at h
  split at h
  · cases h
  · split at h
    · simp only [defineLabel] at h
      split at h
      · cases h; rfl
      · split at h <;> cases h; rfl
    · cases ht : tokensOf (trim (stripComment text)) with
      | nil => rw [ht] at h; cases h
      | cons opcode rest =>
        rw [ht] at h
        simp only [appendInstruction] at h
        split at h <;> cases h; rfl

/-- Assembling a text in two parts. -/
theorem assembleFrom_append (a b : List Token) (line : Nat) (p : Program) :
    assembleFrom line p (a ++ b) =
      match assembleFrom line p a with
      | .error e => .error e
      | .ok q => assembleFrom (line + a.length) q b := by
  induction a generalizing line p with
  | nil => simp [assembleFrom]
  | cons text rest ih =>
    simp only [List.cons_append, assembleFrom]
    cases assembleLine line p text with
    | error e => rfl
    | ok q =>
      simp only
      rw [ih]
      cases assembleFrom (line + 1) q rest with
      | error e => rfl
      | ok r =>
        simp only [List.length_cons]
        congr 1
        omega

end Sys2Proof
end

