-- ==== Sys2Proof/Laws/PerInstr.lean ====
section
/-! SUPPORT. Statements about every instruction as syntax, one lemma per constructor. `EncodeShape`:
the encoder writes the opcode token of the instruction's opcode and exactly the operands of its
shape (30_encoding.md R71, R72). -/

namespace Sys2Proof

/-- Each opcode's token is recognised as that opcode (R71). -/
@[simp] theorem opcodeOf_token (o : Opcode) : opcodeOf o.token = some o := by
  cases o <;> decide

/-! The kind checks of the operands the encoder writes. -/

@[simp] theorem kindFits_xOperand (r : XReg) : kindFits .X (xOperand r) = true := rfl
@[simp] theorem kindFits_vOperand (r : VReg) : kindFits .V (vOperand r) = true := rfl
@[simp] theorem kindFits_immOperand (w : Word) : kindFits .I (immOperand w) = immediateWf w := rfl
@[simp] theorem kindFits_base (r : XReg) : kindFits .X (.reg .X r) = true := rfl
@[simp] theorem kindFits_label (l : Token) : kindFits .L (.ident l) = true := rfl

end Sys2Proof

namespace Sys2Proof.Laws.EncodeShape

/-- Every slot the encoder gives for `i` has the token of `i`'s opcode, which is recognised as that
opcode, and as many operands, of the kinds, as the opcode's shape has. -/
def Statement (i : Instr) : Prop :=
  ∀ (labels : LabelTable) (line n : Nat) (slot : Slot), i.wf n = true →
    encode labels line i = some slot →
    opcodeOf slot.opcode = some i.opcode ∧ slot.operands.length = i.opcode.shape.length ∧
      kindFault 0 i.opcode.shape slot.operands = none

theorem addi (rd : XReg) (rs : XReg) (imm : Word) : Statement (Instr.addi rd rs imm) := by
  intro labels line n slot hw h
  simp only [encode, encodeOperands, Option.map_some, Option.some.injEq] at h
  subst h
  simp_all [Instr.opcode, Opcode.shape, kindFault, Instr.wf]

theorem add (rd : XReg) (rs1 : XReg) (rs2 : XReg) : Statement (Instr.add rd rs1 rs2) := by
  intro labels line n slot hw h
  simp only [encode, encodeOperands, Option.map_some, Option.some.injEq] at h
  subst h
  simp_all [Instr.opcode, Opcode.shape, kindFault, Instr.wf]

theorem sub (rd : XReg) (rs1 : XReg) (rs2 : XReg) : Statement (Instr.sub rd rs1 rs2) := by
  intro labels line n slot hw h
  simp only [encode, encodeOperands, Option.map_some, Option.some.injEq] at h
  subst h
  simp_all [Instr.opcode, Opcode.shape, kindFault, Instr.wf]

theorem mul (rd : XReg) (rs1 : XReg) (rs2 : XReg) : Statement (Instr.mul rd rs1 rs2) := by
  intro labels line n slot hw h
  simp only [encode, encodeOperands, Option.map_some, Option.some.injEq] at h
  subst h
  simp_all [Instr.opcode, Opcode.shape, kindFault, Instr.wf]

theorem j (t : Nat) : Statement (Instr.j t) := by
  intro labels line n slot _ h
  simp only [encode, encodeOperands, Option.map_map, Option.map_eq_some_iff] at h
  obtain ⟨l, -, rfl⟩ := h
  simp [Instr.opcode, Opcode.shape, kindFault]

theorem beq (rs1 : XReg) (rs2 : XReg) (t : Nat) : Statement (Instr.beq rs1 rs2 t) := by
  intro labels line n slot _ h
  simp only [encode, encodeOperands, Option.map_map, Option.map_eq_some_iff] at h
  obtain ⟨l, -, rfl⟩ := h
  simp [Instr.opcode, Opcode.shape, kindFault]

theorem vconfig : Statement (Instr.vconfig) := by
  intro labels line n slot hw h
  simp only [encode, encodeOperands, Option.map_some, Option.some.injEq] at h
  subst h
  simp_all [Instr.opcode, Opcode.shape, kindFault, Instr.wf]

theorem vsetvl (rd : XReg) (rs : XReg) : Statement (Instr.vsetvl rd rs) := by
  intro labels line n slot hw h
  simp only [encode, encodeOperands, Option.map_some, Option.some.injEq] at h
  subst h
  simp_all [Instr.opcode, Opcode.shape, kindFault, Instr.wf]

theorem vlw (vd : VReg) (offset : Word) (base : XReg) : Statement (Instr.vlw vd offset base) := by
  intro labels line n slot hw h
  simp only [encode, encodeOperands, Option.map_some, Option.some.injEq] at h
  subst h
  simp_all [Instr.opcode, Opcode.shape, kindFault, Instr.wf]

theorem vsw (vs : VReg) (offset : Word) (base : XReg) : Statement (Instr.vsw vs offset base) := by
  intro labels line n slot hw h
  simp only [encode, encodeOperands, Option.map_some, Option.some.injEq] at h
  subst h
  simp_all [Instr.opcode, Opcode.shape, kindFault, Instr.wf]

theorem vmvXS (rd : XReg) (vs : VReg) : Statement (Instr.vmvXS rd vs) := by
  intro labels line n slot hw h
  simp only [encode, encodeOperands, Option.map_some, Option.some.injEq] at h
  subst h
  simp_all [Instr.opcode, Opcode.shape, kindFault, Instr.wf]

theorem vmvSX (vd : VReg) (rs : XReg) : Statement (Instr.vmvSX vd rs) := by
  intro labels line n slot hw h
  simp only [encode, encodeOperands, Option.map_some, Option.some.injEq] at h
  subst h
  simp_all [Instr.opcode, Opcode.shape, kindFault, Instr.wf]

theorem vmvVX (vd : VReg) (rs : XReg) : Statement (Instr.vmvVX vd rs) := by
  intro labels line n slot hw h
  simp only [encode, encodeOperands, Option.map_some, Option.some.injEq] at h
  subst h
  simp_all [Instr.opcode, Opcode.shape, kindFault, Instr.wf]

theorem vmvVV (vd : VReg) (vs : VReg) : Statement (Instr.vmvVV vd vs) := by
  intro labels line n slot hw h
  simp only [encode, encodeOperands, Option.map_some, Option.some.injEq] at h
  subst h
  simp_all [Instr.opcode, Opcode.shape, kindFault, Instr.wf]

theorem vaddVV (vd : VReg) (vs1 : VReg) (vs2 : VReg) : Statement (Instr.vaddVV vd vs1 vs2) := by
  intro labels line n slot hw h
  simp only [encode, encodeOperands, Option.map_some, Option.some.injEq] at h
  subst h
  simp_all [Instr.opcode, Opcode.shape, kindFault, Instr.wf]

theorem vmulVX (vd : VReg) (vs : VReg) (rs : XReg) : Statement (Instr.vmulVX vd vs rs) := by
  intro labels line n slot hw h
  simp only [encode, encodeOperands, Option.map_some, Option.some.injEq] at h
  subst h
  simp_all [Instr.opcode, Opcode.shape, kindFault, Instr.wf]

theorem vslideupVX (vd : VReg) (vs : VReg) (rs : XReg) : Statement (Instr.vslideupVX vd vs rs) := by
  intro labels line n slot hw h
  simp only [encode, encodeOperands, Option.map_some, Option.some.injEq] at h
  subst h
  simp_all [Instr.opcode, Opcode.shape, kindFault, Instr.wf]

theorem vslidedownVX (vd : VReg) (vs : VReg) (rs : XReg) : Statement (Instr.vslidedownVX vd vs rs) := by
  intro labels line n slot hw h
  simp only [encode, encodeOperands, Option.map_some, Option.some.injEq] at h
  subst h
  simp_all [Instr.opcode, Opcode.shape, kindFault, Instr.wf]

theorem vindexmv (vd : VReg) (vs : VReg) (vidx : VReg) : Statement (Instr.vindexmv vd vs vidx) := by
  intro labels line n slot hw h
  simp only [encode, encodeOperands, Option.map_some, Option.some.injEq] at h
  subst h
  simp_all [Instr.opcode, Opcode.shape, kindFault, Instr.wf]

end Sys2Proof.Laws.EncodeShape
end

