-- ==== Sys2Proof/Laws/Decode.lean ====
section
/-! SUPPORT. What each check of decode says (30_encoding.md R73), and what reading a checked slot's
operands gives. -/

namespace Sys2Proof

/-! ### The first fault of each check -/

/-- The kind check passes exactly when every operand fits its kind. -/
theorem kindFault_eq_none {ks : List Kind} {os : List Operand} {j : Nat} :
    kindFault j ks os = none ↔
      ∀ (i : Nat) (k : Kind) (o : Operand),
        ks[i]? = some k → os[i]? = some o → kindFits k o = true := by
  induction ks generalizing os j with
  | nil => simp [kindFault]
  | cons k ks ih =>
    cases os with
    | nil => simp [kindFault]
    | cons o os =>
      simp only [kindFault]
      constructor
      · intro h
        split at h
        · rename_i hk
          intro i k' o' h1 h2
          cases i with
          | zero => simp_all
          | succ i => exact ih.1 h i k' o' (by simpa using h1) (by simpa using h2)
        · cases h
      · intro h
        rw [if_pos (h 0 k o rfl rfl)]
        exact ih.2 fun i k' o' h1 h2 => h (i + 1) k' o' (by simpa using h1) (by simpa using h2)

/-- The kind check reports the first operand that does not fit. -/
theorem kindFault_eq_some {ks : List Kind} {os : List Operand} {b j : Nat} {k : Kind} {o : Operand}
    (hk : ks[j]? = some k) (ho : os[j]? = some o) (hbad : kindFits k o = false)
    (hgood : ∀ (i : Nat) (k' : Kind) (o' : Operand), i < j → ks[i]? = some k' → os[i]? = some o' → kindFits k' o' = true) :
    kindFault b ks os = some (.badOperands (b + j)) := by
  induction ks generalizing os b j with
  | nil => simp at hk
  | cons k0 ks ih =>
    cases os with
    | nil => simp at ho
    | cons o0 os =>
      simp only [kindFault]
      cases j with
      | zero =>
        simp only [List.getElem?_cons_zero, Option.some.injEq] at hk ho
        subst hk ho
        simp [hbad]
      | succ j =>
        rw [if_pos (hgood 0 k0 o0 (by omega) rfl rfl)]
        rw [ih (b := b + 1) (j := j) (by simpa using hk) (by simpa using ho)
          fun i k' o' hi h1 h2 => hgood (i + 1) k' o' (by omega) (by simpa using h1) (by simpa using h2)]
        congr 2
        omega

/-- Register resolution passes exactly when every register operand resolves to its class. -/
theorem registerFault_eq_none {ks : List Kind} {os : List Operand} {j : Nat} :
    registerFault j ks os = none ↔
      ∀ (i : Nat) (k : Kind) (c : RegClass) (o : Operand), ks[i]? = some k → k.regClass = some c → os[i]? = some o →
        registerFits c o = true := by
  induction ks generalizing os j with
  | nil => simp [registerFault]
  | cons k ks ih =>
    cases os with
    | nil => simp [registerFault]
    | cons o os =>
      simp only [registerFault]
      constructor
      · intro h i k' c o' h1 h2 h3
        cases i with
        | zero =>
          simp only [List.getElem?_cons_zero, Option.some.injEq] at h1 h3
          subst h1 h3
          rw [h2] at h
          simp only at h
          split at h
          · assumption
          · cases h
        | succ i =>
          have hrest : registerFault (j + 1) ks os = none := by
            split at h
            · exact h
            · split at h
              · exact h
              · cases h
          exact ih.1 hrest i k' c o' (by simpa using h1) h2 (by simpa using h3)
      · intro h
        have hrest : registerFault (j + 1) ks os = none :=
          ih.2 fun i k' c o' h1 h2 h3 => h (i + 1) k' c o' (by simpa using h1) h2 (by simpa using h3)
        split
        · exact hrest
        · rename_i c hc
          rw [if_pos (h 0 k c o rfl hc rfl)]
          exact hrest

/-- Register resolution reports the first register operand that does not resolve to its class. -/
theorem registerFault_eq_some {ks : List Kind} {os : List Operand} {b j : Nat} {k : Kind}
    {c : RegClass} {o : Operand} (hk : ks[j]? = some k) (hc : k.regClass = some c)
    (ho : os[j]? = some o) (hbad : registerFits c o = false)
    (hgood : ∀ (i : Nat) (k' : Kind) (c' : RegClass) (o' : Operand), i < j → ks[i]? = some k' → k'.regClass = some c' → os[i]? = some o' →
      registerFits c' o' = true) :
    registerFault b ks os = some (.unknownRegister (b + j) (operandRef o)) := by
  induction ks generalizing os b j with
  | nil => simp at hk
  | cons k0 ks ih =>
    cases os with
    | nil => simp at ho
    | cons o0 os =>
      simp only [registerFault]
      cases j with
      | zero =>
        simp only [List.getElem?_cons_zero, Option.some.injEq] at hk ho
        subst hk ho
        simp [hc, hbad]
      | succ j =>
        have hrest := ih (b := b + 1) (j := j) (by simpa using hk) (by simpa using ho)
          fun i k' c' o' hi h1 h2 h3 =>
            hgood (i + 1) k' c' o' (by omega) (by simpa using h1) h2 (by simpa using h3)
        have hb : b + 1 + j = b + (j + 1) := by omega
        rw [hb] at hrest
        split
        · exact hrest
        · rename_i c0 hc0
          rw [if_pos (hgood 0 k0 c0 o0 (by omega) rfl hc0 rfl)]
          exact hrest

/-- Label resolution passes exactly when every label operand is in the table. -/
theorem labelFault_eq_none {labels : LabelTable} {ks : List Kind} {os : List Operand} :
    labelFault labels ks os = none ↔
      ∀ (i : Nat) (o : Operand), ks[i]? = some Kind.L → os[i]? = some o → labelIndex labels (operandName o) ≠ none := by
  induction ks generalizing os with
  | nil => simp [labelFault]
  | cons k ks ih =>
    cases os with
    | nil => simp [labelFault]
    | cons o os =>
      simp only [labelFault]
      constructor
      · intro h i o' h1 h2
        split at h
        · cases h
        · rename_i hn
          cases i with
          | zero =>
            simp only [List.getElem?_cons_zero, Option.some.injEq] at h1 h2
            subst h1 h2
            exact fun e => hn ⟨rfl, e⟩
          | succ i => exact ih.1 h i o' (by simpa using h1) (by simpa using h2)
      · intro h
        rw [if_neg]
        · exact ih.2 fun i o' h1 h2 => h (i + 1) o' (by simpa using h1) (by simpa using h2)
        · rintro ⟨rfl, e⟩
          exact h 0 o rfl rfl e

/-- A slot decodes exactly when its opcode is one of the 19 and it passes the four checks. -/
theorem decode_eq_ok {labels : LabelTable} {slot : Slot} {i : Instr} :
    decode labels slot = .ok i ↔
      ∃ op, opcodeOf slot.opcode = some op ∧ slot.operands.length = op.shape.length ∧
        kindFault 0 op.shape slot.operands = none ∧
        registerFault 0 op.shape slot.operands = none ∧
        labelFault labels op.shape slot.operands = none ∧
        i = buildInstr labels slot.operands op := by
  unfold decode
  cases ho : opcodeOf slot.opcode with
  | none => simp
  | some op =>
    simp only [operandFault]
    by_cases hl : slot.operands.length = op.shape.length
    · cases hk : kindFault 0 op.shape slot.operands with
      | some f => simp [hl, hk]
      | none =>
        cases hr : registerFault 0 op.shape slot.operands with
        | some f => simp [hl, hk, hr]
        | none =>
          cases hb : labelFault labels op.shape slot.operands with
          | some f => simp [hl, hk, hr, hb]
          | none => simp [hl, hk, hr, hb, eq_comm]
    · simp [hl]

/-- A token is matched exactly to the opcode whose token it is (R71). -/
theorem opcodeOf_eq_some {token : Token} {op : Opcode} :
    opcodeOf token = some op ↔ op.token = token := by
  constructor
  · intro h
    have := List.find?_some h
    simpa using this
  · rintro rfl
    exact opcodeOf_token op

/-! ### The checks in the spec's own forms -/

/-- The kind check of one operand is R73's table. -/
theorem kindFits_iff {k : Kind} {o : Operand} :
    kindFits k o = true ↔ Machine.OperandOfKind k o := by
  cases k <;> cases o <;> simp [kindFits, Machine.OperandOfKind]

/-- The class a slot needs is its kind's. -/
theorem regClass_iff {k : Kind} {c : RegClass} :
    k.regClass = some c ↔ Machine.NeedsClass k c := by
  cases k <;> cases c <;> simp [Kind.regClass, Machine.NeedsClass]

/-- An operand names a register exactly when it resolves to it. -/
theorem namesRegister_iff {c : RegClass} {i : RegIndex} {o : Operand} :
    Machine.NamesRegister c i o ↔ operandRegister o = some (c, i) := by
  cases o <;> simp [Machine.NamesRegister, operandRegister]

/-- The register check of one operand: it names a register of the class (R69). -/
theorem registerFits_iff {c : RegClass} {o : Operand} :
    registerFits c o = true ↔ ∃ i, Machine.NamesRegister c i o := by
  simp [registerFits, namesRegister_iff]

/-- A register operand is of a register kind. -/
theorem kindFits_of_namesRegister {k : Kind} {c d : RegClass} {i : RegIndex} {o : Operand}
    (hk : k.regClass = some d) (h : Machine.NamesRegister c i o) : kindFits k o = true := by
  obtain rfl | ⟨name, rfl, -⟩ := h <;> cases k <;> simp_all [Kind.regClass, kindFits]

/-! ### Label tables -/

theorem labelIndex_mem {labels : LabelTable} {name : Token} {t : Nat}
    (h : labelIndex labels name = some t) : (name, t) ∈ labels := by
  induction labels with
  | nil => simp [labelIndex] at h
  | cons e rest ih =>
    simp only [labelIndex] at h
    split at h
    · rename_i he
      cases h
      subst he
      simp
    · exact List.mem_cons_of_mem _ (ih h)

/-- A label of a table within `n` names an index in `[0, n]` (R62). -/
theorem labelIndex_le {labels : LabelTable} {name : Token} {n t : Nat}
    (hl : labelsWithin n labels = true) (h : labelIndex labels name = some t) : t ≤ n := by
  have := List.all_eq_true.1 hl _ (labelIndex_mem h)
  simpa [targetWf] using this

/-! ### Operands -/

/-- The numeric name of a register resolves to it (R68). -/
theorem resolve_regName (c : RegClass) (i : RegIndex) : resolve (regName c i) = some (c, i) := by
  cases c <;> revert i <;> decide

end Sys2Proof
end

