-- ==== Sys2Proof/Laws/State.lean ====
section
/-! SUPPORT. One lemma per field for each operation that updates the state, so that no proof unfolds
a record update. -/

namespace Sys2Proof.Machine

@[simp] theorem retire_x (t : Option Nat) (s : State) : (retire t s).x = s.x.set 0 0 := rfl
@[simp] theorem retire_vr (t : Option Nat) (s : State) : (retire t s).vr = s.vr := rfl
@[simp] theorem retire_vl (t : Option Nat) (s : State) : (retire t s).vl = s.vl := rfl
@[simp] theorem retire_mem (t : Option Nat) (s : State) : (retire t s).mem = s.mem := rfl
@[simp] theorem retire_pc (t : Option Nat) (s : State) : (retire t s).pc = t.getD (s.pc + 1) := rfl
@[simp] theorem retire_cycles (t : Option Nat) (s : State) : (retire t s).cycles = s.cycles + 1 := rfl
@[simp] theorem retire_memAccesses (t : Option Nat) (s : State) : (retire t s).memAccesses = s.memAccesses := rfl
@[simp] theorem retire_outCount (t : Option Nat) (s : State) : (retire t s).outCount = s.outCount := rfl
@[simp] theorem retire_fault (t : Option Nat) (s : State) : (retire t s).fault = s.fault := rfl
@[simp] theorem retire_slots (t : Option Nat) (s : State) : (retire t s).slots = s.slots := rfl
@[simp] theorem retire_labels (t : Option Nat) (s : State) : (retire t s).labels = s.labels := rfl
@[simp] theorem retire_csrLoaded (t : Option Nat) (s : State) : (retire t s).csrLoaded = s.csrLoaded := rfl
@[simp] theorem retire_programLoaded (t : Option Nat) (s : State) : (retire t s).programLoaded = s.programLoaded := rfl

@[simp] theorem takeFault_x (c : FaultCause) (s : State) : (takeFault c s).x = s.x := rfl
@[simp] theorem takeFault_vr (c : FaultCause) (s : State) : (takeFault c s).vr = s.vr := rfl
@[simp] theorem takeFault_vl (c : FaultCause) (s : State) : (takeFault c s).vl = s.vl := rfl
@[simp] theorem takeFault_mem (c : FaultCause) (s : State) : (takeFault c s).mem = s.mem := rfl
@[simp] theorem takeFault_pc (c : FaultCause) (s : State) : (takeFault c s).pc = s.pc := rfl
@[simp] theorem takeFault_cycles (c : FaultCause) (s : State) : (takeFault c s).cycles = s.cycles := rfl
@[simp] theorem takeFault_memAccesses (c : FaultCause) (s : State) : (takeFault c s).memAccesses = s.memAccesses := rfl
@[simp] theorem takeFault_outCount (c : FaultCause) (s : State) : (takeFault c s).outCount = s.outCount := rfl
@[simp] theorem takeFault_fault (c : FaultCause) (s : State) : (takeFault c s).fault = some ⟨c, s.pc⟩ := rfl
@[simp] theorem takeFault_slots (c : FaultCause) (s : State) : (takeFault c s).slots = s.slots := rfl
@[simp] theorem takeFault_labels (c : FaultCause) (s : State) : (takeFault c s).labels = s.labels := rfl
@[simp] theorem takeFault_csrLoaded (c : FaultCause) (s : State) : (takeFault c s).csrLoaded = s.csrLoaded := rfl
@[simp] theorem takeFault_programLoaded (c : FaultCause) (s : State) : (takeFault c s).programLoaded = s.programLoaded := rfl

@[simp] theorem setVl_x (n : Nat) (s : State) : (setVl n s).x = s.x := rfl
@[simp] theorem setVl_vr (n : Nat) (s : State) : (setVl n s).vr = s.vr := rfl
@[simp] theorem setVl_vl (n : Nat) (s : State) : (setVl n s).vl = n := rfl
@[simp] theorem setVl_mem (n : Nat) (s : State) : (setVl n s).mem = s.mem := rfl
@[simp] theorem setVl_pc (n : Nat) (s : State) : (setVl n s).pc = s.pc := rfl
@[simp] theorem setVl_cycles (n : Nat) (s : State) : (setVl n s).cycles = s.cycles := rfl
@[simp] theorem setVl_memAccesses (n : Nat) (s : State) : (setVl n s).memAccesses = s.memAccesses := rfl
@[simp] theorem setVl_outCount (n : Nat) (s : State) : (setVl n s).outCount = s.outCount := rfl
@[simp] theorem setVl_fault (n : Nat) (s : State) : (setVl n s).fault = s.fault := rfl
@[simp] theorem setVl_slots (n : Nat) (s : State) : (setVl n s).slots = s.slots := rfl
@[simp] theorem setVl_labels (n : Nat) (s : State) : (setVl n s).labels = s.labels := rfl
@[simp] theorem setVl_csrLoaded (n : Nat) (s : State) : (setVl n s).csrLoaded = s.csrLoaded := rfl
@[simp] theorem setVl_programLoaded (n : Nat) (s : State) : (setVl n s).programLoaded = s.programLoaded := rfl

@[simp] theorem countAccesses_x (n : Nat) (s : State) : (countAccesses n s).x = s.x := rfl
@[simp] theorem countAccesses_vr (n : Nat) (s : State) : (countAccesses n s).vr = s.vr := rfl
@[simp] theorem countAccesses_vl (n : Nat) (s : State) : (countAccesses n s).vl = s.vl := rfl
@[simp] theorem countAccesses_mem (n : Nat) (s : State) : (countAccesses n s).mem = s.mem := rfl
@[simp] theorem countAccesses_pc (n : Nat) (s : State) : (countAccesses n s).pc = s.pc := rfl
@[simp] theorem countAccesses_cycles (n : Nat) (s : State) : (countAccesses n s).cycles = s.cycles := rfl
@[simp] theorem countAccesses_memAccesses (n : Nat) (s : State) : (countAccesses n s).memAccesses = s.memAccesses + n := rfl
@[simp] theorem countAccesses_outCount (n : Nat) (s : State) : (countAccesses n s).outCount = s.outCount := rfl
@[simp] theorem countAccesses_fault (n : Nat) (s : State) : (countAccesses n s).fault = s.fault := rfl
@[simp] theorem countAccesses_slots (n : Nat) (s : State) : (countAccesses n s).slots = s.slots := rfl
@[simp] theorem countAccesses_labels (n : Nat) (s : State) : (countAccesses n s).labels = s.labels := rfl
@[simp] theorem countAccesses_csrLoaded (n : Nat) (s : State) : (countAccesses n s).csrLoaded = s.csrLoaded := rfl
@[simp] theorem countAccesses_programLoaded (n : Nat) (s : State) : (countAccesses n s).programLoaded = s.programLoaded := rfl

@[simp] theorem memWrite_x (a : Int) (ws : List Word) (s : State) : (memWrite a ws s).x = s.x := rfl
@[simp] theorem memWrite_vr (a : Int) (ws : List Word) (s : State) : (memWrite a ws s).vr = s.vr := rfl
@[simp] theorem memWrite_vl (a : Int) (ws : List Word) (s : State) : (memWrite a ws s).vl = s.vl := rfl
@[simp] theorem memWrite_mem (a : Int) (ws : List Word) (s : State) : (memWrite a ws s).mem = Memory.writeList s.mem a.toNat ws := rfl
@[simp] theorem memWrite_pc (a : Int) (ws : List Word) (s : State) : (memWrite a ws s).pc = s.pc := rfl
@[simp] theorem memWrite_cycles (a : Int) (ws : List Word) (s : State) : (memWrite a ws s).cycles = s.cycles := rfl
@[simp] theorem memWrite_memAccesses (a : Int) (ws : List Word) (s : State) : (memWrite a ws s).memAccesses = s.memAccesses := rfl
@[simp] theorem memWrite_outCount (a : Int) (ws : List Word) (s : State) : (memWrite a ws s).outCount = s.outCount := rfl
@[simp] theorem memWrite_fault (a : Int) (ws : List Word) (s : State) : (memWrite a ws s).fault = s.fault := rfl
@[simp] theorem memWrite_slots (a : Int) (ws : List Word) (s : State) : (memWrite a ws s).slots = s.slots := rfl
@[simp] theorem memWrite_labels (a : Int) (ws : List Word) (s : State) : (memWrite a ws s).labels = s.labels := rfl
@[simp] theorem memWrite_csrLoaded (a : Int) (ws : List Word) (s : State) : (memWrite a ws s).csrLoaded = s.csrLoaded := rfl
@[simp] theorem memWrite_programLoaded (a : Int) (ws : List Word) (s : State) : (memWrite a ws s).programLoaded = s.programLoaded := rfl

@[simp] theorem writeV_x (d : VReg) (v : VecReg) (s : State) : (writeV d v s).x = s.x := rfl
@[simp] theorem writeV_vr (d : VReg) (v : VecReg) (s : State) : (writeV d v s).vr = s.vr.set d v := rfl
@[simp] theorem writeV_vl (d : VReg) (v : VecReg) (s : State) : (writeV d v s).vl = s.vl := rfl
@[simp] theorem writeV_mem (d : VReg) (v : VecReg) (s : State) : (writeV d v s).mem = s.mem := rfl
@[simp] theorem writeV_pc (d : VReg) (v : VecReg) (s : State) : (writeV d v s).pc = s.pc := rfl
@[simp] theorem writeV_cycles (d : VReg) (v : VecReg) (s : State) : (writeV d v s).cycles = s.cycles := rfl
@[simp] theorem writeV_memAccesses (d : VReg) (v : VecReg) (s : State) : (writeV d v s).memAccesses = s.memAccesses := rfl
@[simp] theorem writeV_outCount (d : VReg) (v : VecReg) (s : State) : (writeV d v s).outCount = s.outCount := rfl
@[simp] theorem writeV_fault (d : VReg) (v : VecReg) (s : State) : (writeV d v s).fault = s.fault := rfl
@[simp] theorem writeV_slots (d : VReg) (v : VecReg) (s : State) : (writeV d v s).slots = s.slots := rfl
@[simp] theorem writeV_labels (d : VReg) (v : VecReg) (s : State) : (writeV d v s).labels = s.labels := rfl
@[simp] theorem writeV_csrLoaded (d : VReg) (v : VecReg) (s : State) : (writeV d v s).csrLoaded = s.csrLoaded := rfl
@[simp] theorem writeV_programLoaded (d : VReg) (v : VecReg) (s : State) : (writeV d v s).programLoaded = s.programLoaded := rfl

theorem writeX_x (i : XReg) (v : Word) (s : State) :
    (writeX i v s).x = if i = 0 then s.x else s.x.set i v := by
  unfold writeX; split <;> rfl
@[simp] theorem writeX_vr (i : XReg) (v : Word) (s : State) : (writeX i v s).vr = s.vr := by
  unfold writeX; split <;> rfl
@[simp] theorem writeX_vl (i : XReg) (v : Word) (s : State) : (writeX i v s).vl = s.vl := by
  unfold writeX; split <;> rfl
@[simp] theorem writeX_mem (i : XReg) (v : Word) (s : State) : (writeX i v s).mem = s.mem := by
  unfold writeX; split <;> rfl
@[simp] theorem writeX_pc (i : XReg) (v : Word) (s : State) : (writeX i v s).pc = s.pc := by
  unfold writeX; split <;> rfl
@[simp] theorem writeX_cycles (i : XReg) (v : Word) (s : State) : (writeX i v s).cycles = s.cycles := by
  unfold writeX; split <;> rfl
@[simp] theorem writeX_memAccesses (i : XReg) (v : Word) (s : State) : (writeX i v s).memAccesses = s.memAccesses := by
  unfold writeX; split <;> rfl
@[simp] theorem writeX_outCount (i : XReg) (v : Word) (s : State) : (writeX i v s).outCount = s.outCount := by
  unfold writeX; split <;> rfl
@[simp] theorem writeX_fault (i : XReg) (v : Word) (s : State) : (writeX i v s).fault = s.fault := by
  unfold writeX; split <;> rfl
@[simp] theorem writeX_slots (i : XReg) (v : Word) (s : State) : (writeX i v s).slots = s.slots := by
  unfold writeX; split <;> rfl
@[simp] theorem writeX_labels (i : XReg) (v : Word) (s : State) : (writeX i v s).labels = s.labels := by
  unfold writeX; split <;> rfl
@[simp] theorem writeX_csrLoaded (i : XReg) (v : Word) (s : State) : (writeX i v s).csrLoaded = s.csrLoaded := by
  unfold writeX; split <;> rfl
@[simp] theorem writeX_programLoaded (i : XReg) (v : Word) (s : State) : (writeX i v s).programLoaded = s.programLoaded := by
  unfold writeX; split <;> rfl

end Sys2Proof.Machine
end

