-- ==== Sys2Proof/Laws/Memory.lean ====
section
/-! SUPPORT. Data memory: a write is read back, leaves every other address alone, and keeps the
canonical form. -/

namespace Sys2Proof.Machine

theorem Memory.wfFrom_cons {lo : Nat} {c : Nat × Word} {m : Memory} :
    Memory.wfFrom lo (c :: m) = true ↔
      lo ≤ c.1 ∧ c.1 < Config.MEM_WORDS ∧ c.2 ≠ 0 ∧ Memory.wfFrom (c.1 + 1) m = true := by
  simp [Memory.wfFrom, and_assoc]

theorem Memory.wfFrom_mono {lo lo' : Nat} {m : Memory} (h : lo' ≤ lo)
    (hm : Memory.wfFrom lo m = true) : Memory.wfFrom lo' m = true := by
  cases m with
  | nil => rfl
  | cons c rest =>
    rw [Memory.wfFrom_cons] at hm ⊢
    exact ⟨h.trans hm.1, hm.2⟩

/-- Below its first listed address a canonical memory reads as unlisted. -/
theorem Memory.read_eq_unlisted {lo a : Nat} {m : Memory} (hm : Memory.wfFrom lo m = true)
    (h : a < lo) : Memory.read m a = Memory.unlisted := by
  induction m generalizing lo with
  | nil => rfl
  | cons c rest ih =>
    rw [Memory.wfFrom_cons] at hm
    simp only [Memory.read]
    rw [if_neg (by omega)]
    exact ih hm.2.2.2 (by omega)

/-- A write keeps the canonical form. -/
theorem Memory.write_wfFrom {lo a : Nat} {m : Memory} (w : Word) (hm : Memory.wfFrom lo m = true)
    (hlo : lo ≤ a) (ha : a < Config.MEM_WORDS) : Memory.wfFrom lo (Memory.write m a w) = true := by
  induction m generalizing lo with
  | nil =>
    simp only [Memory.write]
    split
    · rfl
    · rename_i h
      rw [Memory.wfFrom_cons]
      exact ⟨hlo, ha, h, rfl⟩
  | cons c rest ih =>
    have hc := hm
    rw [Memory.wfFrom_cons] at hc
    obtain ⟨h1, h2, h3, h4⟩ := hc
    simp only [Memory.write]
    split
    · split
      · exact hm
      · rename_i hac hw
        rw [Memory.wfFrom_cons]
        exact ⟨hlo, ha, hw, Memory.wfFrom_cons.2 ⟨hac, h2, h3, h4⟩⟩
    · split
      · split
        · exact Memory.wfFrom_mono (by omega) h4
        · rename_i hca hw
          subst hca
          exact Memory.wfFrom_cons.2 ⟨hlo, ha, hw, h4⟩
      · exact Memory.wfFrom_cons.2 ⟨h1, h2, h3, ih h4 (by omega)⟩

/-- Every memory write keeps the canonical form. -/
theorem Memory.write_wf {a : Nat} {m : Memory} (w : Word) (hm : m.wf = true)
    (ha : a < Config.MEM_WORDS) : (Memory.write m a w).wf = true :=
  Memory.write_wfFrom w hm (Nat.zero_le a) ha

/-- A write leaves every other address alone, in every memory. -/
theorem Memory.read_write_ne {a b : Nat} (m : Memory) (w : Word) (h : b ≠ a) :
    Memory.read (Memory.write m a w) b = Memory.read m b := by
  induction m with
  | nil =>
    simp only [Memory.write]
    split
    · rfl
    · simp [Memory.read, Ne.symm h]
  | cons c rest ih =>
    simp only [Memory.write]
    split
    · split
      · rfl
      · simp [Memory.read, Ne.symm h]
    · split
      · rename_i hca
        subst hca
        split <;> simp [Memory.read, Ne.symm h]
      · simp only [Memory.read, ih]

/-- A canonical memory reads back what was written. -/
theorem Memory.read_write_self {lo a : Nat} {m : Memory} (w : Word)
    (hm : Memory.wfFrom lo m = true) : Memory.read (Memory.write m a w) a = w := by
  induction m generalizing lo with
  | nil =>
    simp only [Memory.write]
    split
    · rename_i h
      simp [Memory.read, h]
    · simp [Memory.read]
  | cons c rest ih =>
    have hc := hm
    rw [Memory.wfFrom_cons] at hc
    simp only [Memory.write]
    split
    · split
      · rename_i hac hw
        rw [hw]
        simp only [Memory.read]
        rw [if_neg (by omega)]
        exact Memory.read_eq_unlisted hc.2.2.2 (by omega)
      · simp [Memory.read]
    · split
      · rename_i hca
        split
        · rename_i hw
          rw [hw]
          exact Memory.read_eq_unlisted hc.2.2.2 (by omega)
        · simp [Memory.read]
      · rename_i hca
        simp only [Memory.read, if_neg hca]
        exact ih hc.2.2.2

/-- Writing a list keeps the canonical form when its addresses exist. -/
theorem Memory.writeList_wf (ws : List Word) {a : Nat} {m : Memory} (hm : m.wf = true)
    (ha : ws ≠ [] → a + ws.length ≤ Config.MEM_WORDS) : (Memory.writeList m a ws).wf = true := by
  induction ws generalizing a m with
  | nil => exact hm
  | cons w ws ih =>
    have h := ha (by simp)
    simp only [List.length_cons] at h
    exact ih (Memory.write_wf (a := a) w hm (by omega)) (fun _ => by omega)

/-- Writing a list leaves every address outside it alone. -/
theorem Memory.read_writeList_outside (ws : List Word) {a b : Nat} (m : Memory)
    (h : b < a ∨ a + ws.length ≤ b) :
    Memory.read (Memory.writeList m a ws) b = Memory.read m b := by
  induction ws generalizing a m with
  | nil => rfl
  | cons w ws ih =>
    simp only [List.length_cons] at h
    simp only [Memory.writeList]
    rw [ih _ (by omega), Memory.read_write_ne _ _ (by omega)]

/-- Writing a list at existing addresses is read back. -/
theorem Memory.read_writeList_inside (ws : List Word) {a k : Nat} {m : Memory} (hm : m.wf = true)
    (ha : a + ws.length ≤ Config.MEM_WORDS) (hk : k < ws.length) :
    Memory.read (Memory.writeList m a ws) (a + k) = ws[k] := by
  induction ws generalizing a k m with
  | nil => simp at hk
  | cons w ws ih =>
    simp only [List.length_cons] at ha hk
    simp only [Memory.writeList]
    cases k with
    | zero =>
      rw [Memory.read_writeList_outside _ _ (by omega)]
      exact Memory.read_write_self w hm
    | succ k =>
      have h := ih (a := a + 1) (k := k) (Memory.write_wf (a := a) w hm (by omega)) (by omega) (by omega)
      rw [show a + (k + 1) = a + 1 + k by omega, h]
      rfl

/-- Reset memory is in canonical form. -/
theorem reset_memory_wf : State.reset.mem.wf = true := rfl

end Sys2Proof.Machine
end

