-- ==== Sys2Proof/Laws/Ops.lean ====
section
/-! SUPPORT. What each shared operation does, said once: register and lane writes, gating, the range
checks, retirement and fault entry. -/

namespace Sys2Proof.Machine

/-! ### Scalar registers -/

theorem readX_zero (s : State) : readX s 0 = 0 := rfl

/-- A register reads the same in two states whose register files agree. -/
theorem readX_congr {s t : State} (h : t.x = s.x) (r : XReg) : readX t r = readX s r := by
  simp [readX, h]

/-- What a register write does, register 0 included (R8, R19). -/
theorem readX_writeX (s : State) (i r : XReg) (v : Word) :
    readX (writeX i v s) r = if r = i ∧ i ≠ 0 then v else readX s r := by
  by_cases hi : i = 0
  · simp [writeX, hi]
  · by_cases hr : r = 0
    · subst hr
      simp [readX, Ne.symm hi]
    · by_cases h : r = i
      · subst h
        simp [readX, writeX, hi]
      · have : (i : Nat) ≠ (r : Nat) := fun e => h (Fin.ext e.symm)
        simp [readX, writeX, hi, hr, h, this]

/-- Retirement changes no register's value: register 0 reads 0 before and after. -/
@[simp] theorem readX_retire (t : Option Nat) (s : State) (r : XReg) :
    readX (retire t s) r = readX s r := by
  by_cases hr : r = 0
  · simp [readX, hr]
  · have : (0 : Nat) ≠ (r : Nat) := fun e => hr (Fin.ext e.symm)
    simp [readX, hr, this]

@[simp] theorem readX_writeV (d : VReg) (v : VecReg) (s : State) (r : XReg) :
    readX (writeV d v s) r = readX s r := rfl
@[simp] theorem readX_setVl (n : Nat) (s : State) (r : XReg) :
    readX (setVl n s) r = readX s r := rfl
@[simp] theorem readX_countAccesses (n : Nat) (s : State) (r : XReg) :
    readX (countAccesses n s) r = readX s r := rfl
@[simp] theorem readX_memWrite (a : Int) (ws : List Word) (s : State) (r : XReg) :
    readX (memWrite a ws s) r = readX s r := rfl

@[simp] theorem readX_takeFault (c : FaultCause) (s : State) (r : XReg) :
    readX (takeFault c s) r = readX s r := rfl

/-! ### Lanes -/

@[simp] theorem lane_ofFn (f : Nat → Word) (k : Nat) :
    (VecReg.ofFn f).lane k = if k < Config.VLEN then f k else 0 := by
  unfold VecReg.lane VecReg.ofFn
  split <;> simp

@[simp] theorem lane_setLane (v : VecReg) (k i : Nat) (w : Word) :
    (v.setLane k w).lane i =
      if i < Config.VLEN then (if i = k then w else v.lane i) else 0 := by
  unfold VecReg.lane VecReg.setLane
  split
  · simp [Vector.getElem_setIfInBounds, eq_comm]
  · rfl

@[simp] theorem lane_gated (n : Nat) (old : VecReg) (f : Nat → Word) (k : Nat) :
    (VecReg.gated n old f).lane k =
      if k < Config.VLEN then (if k < n then f k else old.lane k) else 0 := by
  simp [VecReg.gated]

/-- What a vector register write does. -/
theorem readV_writeV (s : State) (d e : VReg) (v : VecReg) :
    readV (writeV d v s) e = if e = d then v else readV s e := by
  by_cases h : e = d
  · subst h
    simp [readV]
  · have : (d : Nat) ≠ (e : Nat) := fun h' => h (Fin.ext h'.symm)
    simp [readV, h, this]

theorem readLane_writeV (s : State) (d e : VReg) (v : VecReg) (k : Nat) :
    readLane (writeV d v s) e k = if e = d then v.lane k else readLane s e k := by
  unfold readLane
  rw [readV_writeV]
  split <;> rfl

@[simp] theorem readLane_retire (t : Option Nat) (s : State) (d : VReg) (k : Nat) :
    readLane (retire t s) d k = readLane s d k := rfl
@[simp] theorem readLane_writeX (i : XReg) (v : Word) (s : State) (d : VReg) (k : Nat) :
    readLane (writeX i v s) d k = readLane s d k := by
  simp [readLane, readV]
@[simp] theorem readLane_setVl (n : Nat) (s : State) (d : VReg) (k : Nat) :
    readLane (setVl n s) d k = readLane s d k := rfl
@[simp] theorem readLane_countAccesses (n : Nat) (s : State) (d : VReg) (k : Nat) :
    readLane (countAccesses n s) d k = readLane s d k := rfl
@[simp] theorem readLane_memWrite (a : Int) (ws : List Word) (s : State) (d : VReg) (k : Nat) :
    readLane (memWrite a ws s) d k = readLane s d k := rfl

@[simp] theorem readLane_takeFault (c : FaultCause) (s : State) (d : VReg) (k : Nat) :
    readLane (takeFault c s) d k = readLane s d k := rfl

/-! ### Memory -/

@[simp] theorem readCell_takeFault (c : FaultCause) (s : State) (a : Nat) :
    readCell (takeFault c s) a = readCell s a := rfl

@[simp] theorem readCell_retire (t : Option Nat) (s : State) (a : Nat) :
    readCell (retire t s) a = readCell s a := rfl
@[simp] theorem readCell_writeX (i : XReg) (v : Word) (s : State) (a : Nat) :
    readCell (writeX i v s) a = readCell s a := by
  simp [readCell]
@[simp] theorem readCell_writeV (d : VReg) (v : VecReg) (s : State) (a : Nat) :
    readCell (writeV d v s) a = readCell s a := rfl
@[simp] theorem readCell_setVl (n : Nat) (s : State) (a : Nat) :
    readCell (setVl n s) a = readCell s a := rfl
@[simp] theorem readCell_countAccesses (n : Nat) (s : State) (a : Nat) :
    readCell (countAccesses n s) a = readCell s a := rfl

theorem inMemory_iff (a : Int) : inMemory a = true ↔ 0 ≤ a ∧ a < (Config.MEM_WORDS : Int) := by
  simp [inMemory]

/-- The range check passes exactly when every lane address is in memory (R45). -/
theorem firstOutOfRange_eq_none {ea : Int} {n : Nat} :
    firstOutOfRange ea n = none ↔ ∀ k, k < n → inMemory (ea + k) = true := by
  simp [firstOutOfRange, List.find?_eq_none]

/-- The range check reports the lowest failing lane address (R45, R121). -/
theorem firstOutOfRange_eq_some {ea a : Int} {n : Nat} :
    firstOutOfRange ea n = some a ↔
      ∃ k, k < n ∧ a = ea + k ∧ inMemory a = false ∧ ∀ j, j < k → inMemory (ea + j) = true := by
  unfold firstOutOfRange
  rw [List.find?_map, Option.map_eq_some_iff]
  constructor
  · rintro ⟨k, hk, rfl⟩
    rw [List.find?_range_eq_some] at hk
    obtain ⟨h1, h2, h3⟩ := hk
    refine ⟨k, by simpa using h2, rfl, by simpa using h1, fun j hj => by simpa using h3 j hj⟩
  · rintro ⟨k, hk, rfl, hout, hin⟩
    refine ⟨k, ?_, rfl⟩
    rw [List.find?_range_eq_some]
    exact ⟨by simpa using hout, by simpa using hk, fun j hj => by simpa using hin j hj⟩

/-- The slide check passes exactly on shifts in `[0, vl]` (R105, R106). -/
theorem slideFault_eq_none {s : State} {n : Int} :
    slideFault s n = none ↔ 0 ≤ n ∧ n ≤ s.vl := by
  simp [slideFault, not_or]

theorem isLaneIndex_iff (j : Int) : isLaneIndex j = true ↔ 0 ≤ j ∧ j < (Config.VLEN : Int) := by
  simp [isLaneIndex]

/-- The scatter check passes exactly when every active index is a lane index (R107). -/
theorem scatterFault_eq_none {s : State} {vidx : VReg} :
    scatterFault s vidx = none ↔ ∀ i, i < s.vl → isLaneIndex (signedLane s vidx i) = true := by
  simp [scatterFault, List.find?_eq_none]

/-! ### Retirement and fault entry -/

/-- Retiring after writes that keep the pc, the counter, the fault record and the launch. -/
theorem retired_of {s u : State} (t : Option Nat) (hpc : u.pc = s.pc) (hc : u.cycles = s.cycles)
    (hf : u.fault = s.fault) (hl : LaunchKept s u) :
    Retired (t.getD (s.pc + 1)) s (retire t u) where
  pc := by simp [hpc]
  cycles := by simp [hc]
  zero := by simp
  fault := by simp [hf]
  launch := ⟨hl.slots, hl.labels, hl.outCount, hl.csrLoaded, hl.programLoaded⟩

/-- Fault entry is what R120 says. -/
theorem takeFault_faultTaken (c : FaultCause) (s : State) : FaultTaken c s (takeFault c s) :=
  ⟨rfl, rfl, rfl, rfl, rfl, rfl, rfl, rfl, ⟨rfl, rfl, rfl, rfl, rfl⟩⟩

end Sys2Proof.Machine
end

