-- ==== Sys2Proof/Laws/Exec.lean ====
section
/-! SUPPORT. What the execution of an instruction and a step can do, said once: the shapes of the
writes an instruction commits, and the inversion of `exec` and `step`. -/

namespace Sys2Proof.Machine

/-- The shapes of the writes instructions commit before they retire (41_control.md R88). -/
inductive Effect (s : State) : State → Prop where
  /-- control transfer writes nothing -/
  | nothing : Effect s s
  /-- scalar arithmetic and `vmv.x.s` write one scalar register -/
  | scalar (rd : XReg) (v : Word) : Effect s (writeX rd v s)
  /-- `vconfig` writes `vl` -/
  | length (n : Nat) (h : n ≤ Config.VLEN) : Effect s (setVl n s)
  /-- `vsetvl` writes `vl` and one scalar register -/
  | lengthCopy (rd : XReg) (v : Word) (n : Nat) (h : n ≤ Config.VLEN) :
      Effect s (writeX rd v (setVl n s))
  /-- the vector moves, arithmetic, slides and the scatter write one vector register -/
  | vector (d : VReg) (v : VecReg) : Effect s (writeV d v s)
  /-- `vlw` writes one vector register and counts `vl` accesses -/
  | load (d : VReg) (v : VecReg) : Effect s (countAccesses s.vl (writeV d v s))
  /-- `vsw` writes memory cells that exist and counts `vl` accesses -/
  | store (ea : Int) (ws : List Word) (h : ∀ k, k < ws.length → inMemory (ea + k) = true) :
      Effect s (countAccesses s.vl (memWrite ea ws s))

/-- An instruction with a range check: it answers the fault entry of the check, or goes on. -/
theorem checked_next {c : Option FaultCause} {s t u : State}
    (h : (match c with
      | some cause => Host.Outcome.next (takeFault cause s)
      | none => (Host.Outcome.next u : Host.Outcome State Fault Refusal)) = .next t) :
    (∃ cause, c = some cause ∧ t = takeFault cause s) ∨ (c = none ∧ t = u) := by
  cases c with
  | some cause => exact .inl ⟨cause, rfl, by simpa using h.symm⟩
  | none => exact .inr ⟨rfl, by simpa using h.symm⟩

theorem transferFault_eq_some {s : State} {ea : Int} {c : FaultCause}
    (h : transferFault s ea = some c) : ∃ a, c = .memOutOfRange a := by
  simp only [transferFault, Option.map_eq_some_iff] at h
  obtain ⟨a, -, rfl⟩ := h
  exact ⟨a, rfl⟩

theorem transferFault_eq_none {s : State} {ea : Int} :
    transferFault s ea = none ↔ ∀ k, k < s.vl → inMemory (ea + k) = true := by
  simp [transferFault, firstOutOfRange_eq_none]

theorem slideFault_eq_some {s : State} {n : Int} {c : FaultCause}
    (h : slideFault s n = some c) : c = .slideOutOfRange n ∧ (n < 0 ∨ s.vl < n) := by
  unfold slideFault at h
  split at h
  · rename_i hn
    simp only [Option.some.injEq] at h
    exact ⟨h.symm, hn⟩
  · simp at h

theorem scatterFault_eq_some {s : State} {vidx : VReg} {c : FaultCause}
    (h : scatterFault s vidx = some c) : ∃ i j, c = .vIndexOutOfRange i j := by
  simp only [scatterFault, Option.map_eq_some_iff] at h
  obtain ⟨i, -, rfl⟩ := h
  exact ⟨i, _, rfl⟩

@[simp] theorem activeLanes_length (s : State) (d : VReg) : (activeLanes s d).length = s.vl := by
  simp [activeLanes]

@[simp] theorem memRead_length (s : State) (a : Int) (n : Nat) : (memRead s a n).length = n := by
  simp [memRead]

/-- No instruction ends in a stop: each answers a next state (00_scope.md R10). -/
theorem exec_next (i : Instr) (s : State) : ∃ t, exec i s = .next t := by
  cases i <;> first
    | exact ⟨_, rfl⟩
    | (simp only [exec, execVsetvl, execVlw, execVsw, execVslideupVX, slideUp, execVslidedownVX,
        execVindexmv]
       split <;> exact ⟨_, rfl⟩)

/-- What an instruction can do: take an execution fault, or commit writes of one of the shapes and
retire, redirecting the pc only if it is `j` or `beq`. -/
theorem exec_cases {i : Instr} {s t : State} (h : exec i s = .next t) :
    (∃ c, 5 ≤ faultCode c ∧ t = takeFault c s) ∨
    ∃ target u, t = retire target u ∧ Effect s u ∧
      (∀ k, target = some k → i = .j k ∨ ∃ a b, i = .beq a b k) := by
  cases i with
  | addi rd rs imm => cases h; exact .inr ⟨none, _, rfl, .scalar _ _, by simp⟩
  | add rd rs1 rs2 => cases h; exact .inr ⟨none, _, rfl, .scalar _ _, by simp⟩
  | sub rd rs1 rs2 => cases h; exact .inr ⟨none, _, rfl, .scalar _ _, by simp⟩
  | mul rd rs1 rs2 => cases h; exact .inr ⟨none, _, rfl, .scalar _ _, by simp⟩
  | j target => cases h; exact .inr ⟨some target, _, rfl, .nothing, by simp⟩
  | beq rs1 rs2 target =>
    cases h
    refine .inr ⟨_, _, rfl, .nothing, fun k hk => ?_⟩
    split at hk
    · cases hk; exact .inr ⟨_, _, rfl⟩
    · cases hk
  | vconfig => cases h; exact .inr ⟨none, _, rfl, .length _ (Nat.le_refl _), by simp⟩
  | vsetvl rd rs =>
    simp only [exec, execVsetvl] at h
    split at h
    · cases h; exact .inl ⟨_, by simp [faultCode], rfl⟩
    · cases h; exact .inr ⟨none, _, rfl, .lengthCopy _ _ _ (Nat.min_le_left _ _), by simp⟩
  | vlw vd offset base =>
    obtain ⟨c, hc, rfl⟩ | ⟨hc, rfl⟩ := checked_next h
    · obtain ⟨a, rfl⟩ := transferFault_eq_some hc
      exact .inl ⟨_, by simp [faultCode], rfl⟩
    · exact .inr ⟨none, _, rfl, .load _ _, by simp⟩
  | vsw vs offset base =>
    obtain ⟨c, hc, rfl⟩ | ⟨hc, rfl⟩ := checked_next h
    · obtain ⟨a, rfl⟩ := transferFault_eq_some hc
      exact .inl ⟨_, by simp [faultCode], rfl⟩
    · refine .inr ⟨none, _, rfl, .store _ _ ?_, by simp⟩
      simpa using transferFault_eq_none.1 hc
  | vmvXS rd vs => cases h; exact .inr ⟨none, _, rfl, .scalar _ _, by simp⟩
  | vmvSX vd rs => cases h; exact .inr ⟨none, _, rfl, .vector _ _, by simp⟩
  | vmvVX vd rs => cases h; exact .inr ⟨none, _, rfl, .vector _ _, by simp⟩
  | vmvVV vd vs => cases h; exact .inr ⟨none, _, rfl, .vector _ _, by simp⟩
  | vaddVV vd vs1 vs2 => cases h; exact .inr ⟨none, _, rfl, .vector _ _, by simp⟩
  | vmulVX vd vs rs => cases h; exact .inr ⟨none, _, rfl, .vector _ _, by simp⟩
  | vslideupVX vd vs rs =>
    obtain ⟨c, hc, rfl⟩ | ⟨hc, rfl⟩ := checked_next h
    · obtain ⟨rfl, -⟩ := slideFault_eq_some hc
      exact .inl ⟨_, by simp [faultCode], rfl⟩
    · exact .inr ⟨none, _, rfl, .vector _ _, by simp⟩
  | vslidedownVX vd vs rs =>
    obtain ⟨c, hc, rfl⟩ | ⟨hc, rfl⟩ := checked_next h
    · obtain ⟨rfl, -⟩ := slideFault_eq_some hc
      exact .inl ⟨_, by simp [faultCode], rfl⟩
    · exact .inr ⟨none, _, rfl, .vector _ _, by simp⟩
  | vindexmv vd vs vidx =>
    obtain ⟨c, hc, rfl⟩ | ⟨hc, rfl⟩ := checked_next h
    · obtain ⟨i, j, rfl⟩ := scatterFault_eq_some hc
      exact .inl ⟨_, by simp [faultCode], rfl⟩
    · exact .inr ⟨none, _, rfl, .vector _ _, by simp⟩

/-- What a step can do: take the fault decode raises, or run the decoded instruction. -/
theorem step_cases {s t : State} (h : step s = .next t) :
    s.fault = none ∧ ∃ slot, fetch s = some slot ∧
      ((∃ c, decode s.labels slot = .error c ∧ t = takeFault c s) ∨
       ∃ i, decode s.labels slot = .ok i ∧ exec i s = .next t) := by
  unfold step at h
  split at h
  · cases h
  · rename_i hf
    refine ⟨hf, ?_⟩
    split at h
    · cases h
    · rename_i slot hs
      refine ⟨slot, hs, ?_⟩
      split at h
      · rename_i c hd
        exact .inl ⟨c, hd, by simpa using h.symm⟩
      · rename_i i hd
        exact .inr ⟨i, hd, h⟩

end Sys2Proof.Machine
end

