-- ==== Sys2Proof/Laws/Loader.lean ====
section
/-! SUPPORT. The loader's shared operations (70_reset_and_hazards.md R136, R137): register writes of
consecutive registers change no other field, and copying arrays lays them out one after another. -/

namespace Sys2Proof.Machine

/-! ### Consecutive register writes -/

@[simp] theorem writeRegs_vr (l : List Nat) (r : Nat) (s : State) :
    (writeRegs r s l).vr = s.vr := by
  induction l generalizing r s with
  | nil => rfl
  | cons n rest ih => simp [writeRegs, ih]
@[simp] theorem writeRegs_vl (l : List Nat) (r : Nat) (s : State) :
    (writeRegs r s l).vl = s.vl := by
  induction l generalizing r s with
  | nil => rfl
  | cons n rest ih => simp [writeRegs, ih]
@[simp] theorem writeRegs_mem (l : List Nat) (r : Nat) (s : State) :
    (writeRegs r s l).mem = s.mem := by
  induction l generalizing r s with
  | nil => rfl
  | cons n rest ih => simp [writeRegs, ih]
@[simp] theorem writeRegs_pc (l : List Nat) (r : Nat) (s : State) :
    (writeRegs r s l).pc = s.pc := by
  induction l generalizing r s with
  | nil => rfl
  | cons n rest ih => simp [writeRegs, ih]
@[simp] theorem writeRegs_cycles (l : List Nat) (r : Nat) (s : State) :
    (writeRegs r s l).cycles = s.cycles := by
  induction l generalizing r s with
  | nil => rfl
  | cons n rest ih => simp [writeRegs, ih]
@[simp] theorem writeRegs_memAccesses (l : List Nat) (r : Nat) (s : State) :
    (writeRegs r s l).memAccesses = s.memAccesses := by
  induction l generalizing r s with
  | nil => rfl
  | cons n rest ih => simp [writeRegs, ih]
@[simp] theorem writeRegs_outCount (l : List Nat) (r : Nat) (s : State) :
    (writeRegs r s l).outCount = s.outCount := by
  induction l generalizing r s with
  | nil => rfl
  | cons n rest ih => simp [writeRegs, ih]
@[simp] theorem writeRegs_fault (l : List Nat) (r : Nat) (s : State) :
    (writeRegs r s l).fault = s.fault := by
  induction l generalizing r s with
  | nil => rfl
  | cons n rest ih => simp [writeRegs, ih]
@[simp] theorem writeRegs_slots (l : List Nat) (r : Nat) (s : State) :
    (writeRegs r s l).slots = s.slots := by
  induction l generalizing r s with
  | nil => rfl
  | cons n rest ih => simp [writeRegs, ih]
@[simp] theorem writeRegs_labels (l : List Nat) (r : Nat) (s : State) :
    (writeRegs r s l).labels = s.labels := by
  induction l generalizing r s with
  | nil => rfl
  | cons n rest ih => simp [writeRegs, ih]
@[simp] theorem writeRegs_csrLoaded (l : List Nat) (r : Nat) (s : State) :
    (writeRegs r s l).csrLoaded = s.csrLoaded := by
  induction l generalizing r s with
  | nil => rfl
  | cons n rest ih => simp [writeRegs, ih]
@[simp] theorem writeRegs_programLoaded (l : List Nat) (r : Nat) (s : State) :
    (writeRegs r s l).programLoaded = s.programLoaded := by
  induction l generalizing r s with
  | nil => rfl
  | cons n rest ih => simp [writeRegs, ih]

/-! ### The register writes of the loader -/

@[simp] theorem loaderRegisters_vr (p : Config.LoaderRegs) (a b : DenseMatrix) (s : State) :
    (loaderRegisters p a b s).vr = s.vr := by
  simp [loaderRegisters]
@[simp] theorem loaderRegisters_vl (p : Config.LoaderRegs) (a b : DenseMatrix) (s : State) :
    (loaderRegisters p a b s).vl = s.vl := by
  simp [loaderRegisters]
@[simp] theorem loaderRegisters_mem (p : Config.LoaderRegs) (a b : DenseMatrix) (s : State) :
    (loaderRegisters p a b s).mem = s.mem := by
  simp [loaderRegisters]
@[simp] theorem loaderRegisters_pc (p : Config.LoaderRegs) (a b : DenseMatrix) (s : State) :
    (loaderRegisters p a b s).pc = s.pc := by
  simp [loaderRegisters]
@[simp] theorem loaderRegisters_cycles (p : Config.LoaderRegs) (a b : DenseMatrix) (s : State) :
    (loaderRegisters p a b s).cycles = s.cycles := by
  simp [loaderRegisters]
@[simp] theorem loaderRegisters_memAccesses (p : Config.LoaderRegs) (a b : DenseMatrix) (s : State) :
    (loaderRegisters p a b s).memAccesses = s.memAccesses := by
  simp [loaderRegisters]
@[simp] theorem loaderRegisters_outCount (p : Config.LoaderRegs) (a b : DenseMatrix) (s : State) :
    (loaderRegisters p a b s).outCount = s.outCount := by
  simp [loaderRegisters]
@[simp] theorem loaderRegisters_fault (p : Config.LoaderRegs) (a b : DenseMatrix) (s : State) :
    (loaderRegisters p a b s).fault = s.fault := by
  simp [loaderRegisters]
@[simp] theorem loaderRegisters_slots (p : Config.LoaderRegs) (a b : DenseMatrix) (s : State) :
    (loaderRegisters p a b s).slots = s.slots := by
  simp [loaderRegisters]
@[simp] theorem loaderRegisters_labels (p : Config.LoaderRegs) (a b : DenseMatrix) (s : State) :
    (loaderRegisters p a b s).labels = s.labels := by
  simp [loaderRegisters]
@[simp] theorem loaderRegisters_csrLoaded (p : Config.LoaderRegs) (a b : DenseMatrix) (s : State) :
    (loaderRegisters p a b s).csrLoaded = s.csrLoaded := by
  simp [loaderRegisters]
@[simp] theorem loaderRegisters_programLoaded (p : Config.LoaderRegs) (a b : DenseMatrix) (s : State) :
    (loaderRegisters p a b s).programLoaded = s.programLoaded := by
  simp [loaderRegisters]

/-! ### Copied arrays -/

/-- Copying arrays leaves every address outside them alone. -/
theorem copyArrays_outside (l : List (List Int)) {b c : Nat} (m : Memory)
    (h : c < b ∨ b + (l.map List.length).sum ≤ c) :
    Memory.read (copyArrays b m l) c = Memory.read m c := by
  induction l generalizing b m with
  | nil => rfl
  | cons a rest ih =>
    simp only [List.map_cons, List.sum_cons] at h
    simp only [copyArrays]
    rw [ih _ (by omega), Memory.read_writeList_outside _ _ (by simp; omega)]

/-- Copying arrays that fit keeps the canonical form. -/
theorem copyArrays_wf (l : List (List Int)) {b : Nat} {m : Memory} (hm : m.wf = true)
    (h : b + (l.map List.length).sum ≤ Config.MEM_WORDS) : (copyArrays b m l).wf = true := by
  induction l generalizing b m with
  | nil => exact hm
  | cons a rest ih =>
    simp only [List.map_cons, List.sum_cons] at h
    exact ih (Memory.writeList_wf _ hm fun _ => by simp only [List.length_map]; omega) (by omega)

end Sys2Proof.Machine
end

