-- ==== Sys2Proof/Tests/Slice0.lean ====
section
/-! SUPPORT. Small tests on fixed values. The expected results are the spec's own vectors
(95_test_vectors.md, named at each test) or are read off the rule named there. -/

namespace Sys2Proof.Tests

open Sys2Proof.Machine

/-! ### Helpers -/

/-- Scalar registers set to integers. -/
def withX (s : State) (l : List (XReg × Int)) : State :=
  l.foldl (fun s e => writeX e.1 (wordOf e.2) s) s

/-- The first lanes of a vector register set to integers. -/
def withV (s : State) (d : VReg) (l : List Int) : State :=
  writeV d ((readV s d).gated l.length fun k => wordOf (l.getD k 0)) s

/-- Memory cells from an address on set to integers. -/
def withMem (s : State) (a : Nat) (l : List Int) : State :=
  { s with mem := Memory.writeList s.mem a (l.map wordOf) }

/-- The lines of a program text. -/
def textLines (l : List String) : List Token := l.map String.toList

/-- The program a text assembles to; the empty one if it does not. -/
def assembled (l : List String) : Program :=
  match assemble (textLines l) with
  | .ok p => p
  | .error _ => ⟨[], []⟩

/-- A state with the program a text assembles to. -/
def withText (l : List String) (s : State) : State :=
  { s with slots := (assembled l).slots, labels := (assembled l).labels }

/-- The state a step answers, or the state itself where it answers none. -/
def stepped (s : State) : State :=
  match step s with
  | .next t => t
  | .fault _ => s
  | .refused _ => s

/-- The signed values of the first lanes of a vector register. -/
def lanes (s : State) (d : VReg) (n : Nat) : List Int :=
  (List.range n).map fun k => sval (readLane s d k)

/-- The signed values of memory cells. -/
def cells (s : State) (a n : Nat) : List Int :=
  (List.range n).map fun k => sval (readCell s (a + k))

/-- What decode makes of the first slot of a text. -/
def decoded (l : List String) : Except FaultCause Instr :=
  match (assembled l).slots with
  | [] => .error (.badOperands 99)
  | slot :: _ => decode (assembled l).labels slot

/-- The parse error of a text, if any. -/
def parseErrorOf (l : List String) : Option ParseError :=
  match assemble (textLines l) with
  | .ok _ => none
  | .error e => some e

/-- Whether decode faults with a cause. -/
def decodesFault (l : List String) (c : FaultCause) : Bool :=
  match decoded l with
  | .ok _ => false
  | .error d => decide (d = c)

/-- Whether decode yields an instruction. -/
def decodesTo (l : List String) (i : Instr) : Bool :=
  match decoded l with
  | .ok k => decide (k = i)
  | .error _ => false

/-! ### Ill-formed terms are refused -/

theorem test_wf_refuses_large_addi : (Instr.addi 1 0 0x80000000#32).wf 9 = false := by decide
theorem test_wf_refuses_large_vlw : (Instr.vlw 1 0xFFFFFFFF#32 0).wf 9 = false := by decide
theorem test_wf_refuses_large_vsw : (Instr.vsw 1 0x80000000#32 0).wf 9 = false := by decide
theorem test_wf_refuses_far_j : (Instr.j 10).wf 9 = false := by decide
theorem test_wf_refuses_far_beq : (Instr.beq 1 2 10).wf 9 = false := by decide
theorem test_wf_admits_bounds :
    (Instr.addi 1 0 0x7FFFFFFF#32).wf 9 = true ∧ (Instr.j 9).wf 9 = true := by decide
theorem test_labels_within_refuses : labelsWithin 2 [("a".toList, 3)] = false := by decide
theorem test_labels_distinct_refuses :
    labelsDistinct [("a".toList, 0), ("a".toList, 1)] = false := by decide
/-- Vector A21: a program with a slot that does not decode is not `WF`. -/
theorem test_program_not_wf : (assembled ["j end", "foo", "end:"]).wf = false := by decide
theorem test_memory_wf_refuses_zero : Memory.wf [(3, 0)] = false := by decide
theorem test_memory_wf_refuses_order : Memory.wf [(3, 1), (2, 1)] = false := by decide
theorem test_memory_wf_refuses_far : Memory.wf [(1024, 1)] = false := by decide

/-! ### Decoding, per opcode, from text written out by R72's syntax -/

theorem test_decode_addi : decodesTo ["addi x1, x0, 0b101"] (.addi 1 0 5) = true := by decide
theorem test_decode_add : decodesTo ["add sp, ra, zero"] (.add 2 1 0) = true := by decide
theorem test_decode_sub : decodesTo ["sub x4, x1, x31"] (.sub 4 1 31) = true := by decide
theorem test_decode_mul : decodesTo ["mul t6, s11, a7"] (.mul 31 27 17) = true := by decide
theorem test_decode_j : decodesTo ["j end", "end:"] (.j 1) = true := by decide
theorem test_decode_beq : decodesTo ["L:", "beq x1, x2, L"] (.beq 1 2 0) = true := by decide
theorem test_decode_vconfig : decodesTo ["vconfig"] .vconfig = true := by decide
theorem test_decode_vsetvl : decodesTo ["vsetvl x5, x6"] (.vsetvl 5 6) = true := by decide
theorem test_decode_vlw : decodesTo ["vlw v1, 2(x10)"] (.vlw 1 2 10) = true := by decide
theorem test_decode_vlw_three : decodesTo ["vlw v1, 2, x10"] (.vlw 1 2 10) = true := by decide
theorem test_decode_vsw : decodesTo ["vsw v31, 40(x0)"] (.vsw 31 40 0) = true := by decide
theorem test_decode_vmvXS : decodesTo ["vmv.x.s x11, v4"] (.vmvXS 11 4) = true := by decide
theorem test_decode_vmvSX : decodesTo ["vmv.s.x v2, x7"] (.vmvSX 2 7) = true := by decide
theorem test_decode_vmvVX : decodesTo ["vmv.v.x v1, x7"] (.vmvVX 1 7) = true := by decide
theorem test_decode_vmvVV : decodesTo ["vmv.v.v v2, v1"] (.vmvVV 2 1) = true := by decide
theorem test_decode_vaddVV : decodesTo ["vadd.vv v3, v1, v2"] (.vaddVV 3 1 2) = true := by decide
theorem test_decode_vmulVX : decodesTo ["vmul.vx v2, v1, x8"] (.vmulVX 2 1 8) = true := by decide
theorem test_decode_vslideupVX :
    decodesTo ["vslideup.vx v5, v3, x8"] (.vslideupVX 5 3 8) = true := by decide
theorem test_decode_vslidedownVX :
    decodesTo ["vslidedown.vx v4, v3, x8"] (.vslidedownVX 4 3 8) = true := by decide
theorem test_decode_vindexmv :
    decodesTo ["vindexmv v3, v2, v1"] (.vindexmv 3 2 1) = true := by decide

/-! ### Decode faults -/

/-- Vector S6. -/
theorem test_decode_large_immediate :
    decodesFault ["addi x1, x0, 2147483648"] (.badOperands 2) = true := by decide
/-- Vector S7. -/
theorem test_decode_negative_literal :
    decodesFault ["addi x1, x0, -1"] (.badOperands 2) = true := by decide
/-- Vector S19. -/
theorem test_decode_wrong_class :
    decodesFault ["add x1, v2, x3"] (.unknownRegister 1 (.name "v2".toList)) = true := by decide
/-- Vector S20. -/
theorem test_decode_count : decodesFault ["add x1, x2"] (.badOperands 2) = true := by decide
/-- Vector S21. -/
theorem test_decode_case :
    decodesFault ["ADD x1, x2, x3"] (.unknownOpcode "ADD".toList) = true := by decide
/-- Vector S22. -/
theorem test_decode_x32 :
    decodesFault ["add x1, x2, x32"] (.unknownRegister 2 (.name "x32".toList)) = true := by decide
/-- Vector C5. -/
theorem test_decode_no_label :
    decodesFault ["beq x1, x0, nowhere"] (.unknownLabel "nowhere".toList) = true := by decide
/-- Vector C7. -/
theorem test_decode_j_immediate : decodesFault ["j 5"] (.badOperands 0) = true := by decide
/-- Vector VM9. -/
theorem test_decode_vector_base :
    decodesFault ["vlw v1, 0(v2)"] (.unknownRegister 2 (.resolved .V 2)) = true := by decide
/-- Vector A18: kind checks come before register resolution. -/
theorem test_decode_kind_first :
    decodesFault ["addi x1, v2, 99999999999"] (.badOperands 2) = true := by decide
/-- Vector A19: registers come before labels. -/
theorem test_decode_register_first :
    decodesFault ["beq v1, x0, nowhere"] (.unknownRegister 0 (.name "v1".toList)) = true := by
  decide

/-! ### The assembler -/

/-- Vector A2. -/
theorem test_assemble_labels :
    assembled ["; header", "", "start:", "  addi x1, x0, 1   ; set", "mid:", "mid2:",
        "add x2, x1, x1", "end:"] =
      ⟨[⟨4, "addi".toList, [.ident "x1".toList, .ident "x0".toList, .imm 1]⟩,
        ⟨7, "add".toList, [.ident "x2".toList, .ident "x1".toList, .ident "x1".toList]⟩],
       [("start".toList, 0), ("mid".toList, 1), ("mid2".toList, 1), ("end".toList, 2)]⟩ := by
  decide
/-- Vector A3. -/
theorem test_malformed_label :
    parseErrorOf ["vconfig", "1abc:"] = some ⟨.malformedLabel, 2⟩ := by decide
/-- Vector A4. -/
theorem test_label_with_space :
    parseErrorOf ["vconfig", "my label:"] = some ⟨.malformedLabel, 2⟩ := by decide
/-- Vector A5. -/
theorem test_duplicate_label :
    parseErrorOf ["a:", "vconfig", "a:"] = some ⟨.duplicateLabel, 3⟩ := by decide
/-- Vector A15: the first error in line order. -/
theorem test_first_parse_error :
    parseErrorOf ["a:", "a:", "vlw v1, 0(q)"] = some ⟨.duplicateLabel, 2⟩ := by decide
/-- Vector VM10. -/
theorem test_invalid_register :
    parseErrorOf ["", "", "", "vlw v1, 0(y7)"] = some ⟨.invalidRegister, 4⟩ := by decide
/-- Vector A8. -/
theorem test_literals :
    operandsOf "0b".toList = some [.ident "0b".toList]
    ∧ operandsOf "0b102".toList = some [.ident "0b102".toList]
    ∧ operandsOf "007".toList = some [.imm 7]
    ∧ operandsOf "0x10".toList = some [.ident "0x10".toList]
    ∧ operandsOf "-3".toList = some [.ident "-3".toList] := by decide
/-- Vectors A14 and A20. -/
theorem test_memory_forms :
    operandsOf "4(x1".toList = some [.ident "4(x1".toList]
    ∧ operandsOf "4x".toList = some [.ident "4x".toList]
    ∧ operandsOf "8(sp)".toList = some [.imm 8, .reg .X 2] := by decide
/-- Vectors A9 and A10. -/
theorem test_commas :
    operandList (tokensOf "x1,x2,x3".toList) = some [.ident "x1,x2,x3".toList]
    ∧ operandList (tokensOf "x1 , x2, x3".toList)
      = some [.ident "x1".toList, .ident [], .ident "x2".toList, .ident "x3".toList] := by decide
/-- Vectors A11 and A12. -/
theorem test_trailing_commas :
    operandList (tokensOf "x1,, x0, 5,".toList)
      = some [.ident "x1,".toList, .ident "x0".toList, .imm 5] := by decide
/-- Vector A13. -/
theorem test_label_on_line :
    decodesFault ["loop: addi x1, x0, 1"] (.unknownOpcode "loop:".toList) = true := by decide
/-- R68: no leading zeros, no sign, case-sensitive, `fp` not accepted. -/
theorem test_register_names_refused :
    resolve "x05".toList = none ∧ resolve "v-1".toList = none ∧ resolve "X1".toList = none
    ∧ resolve "Zero".toList = none ∧ resolve "fp".toList = none ∧ resolve "x".toList = none := by
  decide

/-! ### Scalar arithmetic, one step each -/

/-- Vector S4. -/
theorem test_addi_wraps :
    readX (stepped (withText ["addi x2, x1, 1"] (withX .reset [(1, 2147483647)]))) 2
      = wordOf (-2147483648) := by decide
/-- Vector S3: register 0 is not written. -/
theorem test_addi_x0 :
    let t := stepped (withText ["addi x0, x0, 9"] .reset)
    readX t 0 = 0 ∧ t.x[0] = 0 ∧ t.pc = 1 ∧ t.cycles = 1 := by decide
/-- Vector S9. -/
theorem test_add_self :
    readX (stepped (withText ["add x1, x1, x1"] (withX .reset [(1, -4)]))) 1 = wordOf (-8) := by
  decide
/-- Vector S11. -/
theorem test_sub_negative :
    readX (stepped (withText ["sub x4, x1, x2"] (withX .reset [(1, 3), (2, 5)]))) 4
      = wordOf (-2) := by decide
/-- Vector S17. -/
theorem test_mul_low_bits :
    readX (stepped (withText ["mul x2, x1, x1"] (withX .reset [(1, 46341)]))) 2
      = wordOf (-2147479015) := by decide
/-- Vector S16. -/
theorem test_mul_most_negative :
    readX (stepped (withText ["mul x3, x1, x2"]
      (withX .reset [(1, -2147483648), (2, -1)]))) 3 = wordOf (-2147483648) := by decide

/-! ### Control transfer -/

/-- Vector C6: a jump to its own index. -/
theorem test_j_self :
    let t := stepped (withText ["here:", "j here"] .reset)
    t.pc = 0 ∧ t.cycles = 1 ∧ status t = .running := by decide
/-- Vector C1: a jump to the end halts. -/
theorem test_j_end :
    let t := stepped (withText ["j end", "vconfig", "end:"] .reset)
    t.pc = 2 ∧ status t = .halted := by decide
/-- Vector C4. -/
theorem test_beq_taken :
    (stepped { withText ["L:", "vconfig", "vconfig", "beq x1, x2, L"]
      (withX .reset [(1, -1), (2, -1)]) with pc := 2 }).pc = 0 := by decide
/-- Vector C3. -/
theorem test_beq_not_taken :
    (stepped (withText ["beq x1, x0, done", "vconfig", "done:"] (withX .reset [(1, 4)]))).pc = 1 := by
  decide
/-- Vector C5: an undefined label faults at dispatch, though the branch is untaken. -/
theorem test_beq_no_label :
    (stepped (withText ["beq x1, x0, nowhere"] (withX .reset [(1, 4)]))).fault
      = some ⟨.unknownLabel "nowhere".toList, 0⟩ := by decide

/-! ### Vector configuration -/

/-- Vector VC1. -/
theorem test_vconfig : (stepped (withText ["vconfig"] { State.reset with vl := 3 })).vl = 128 := by
  decide
/-- Vector VC8. -/
theorem test_vsetvl_clamps :
    let t := stepped (withText ["vsetvl x6, x6"] (withX .reset [(6, 300)]))
    t.vl = 128 ∧ readX t 6 = 128 := by decide
/-- Vector VC9. -/
theorem test_vsetvl_negative :
    let t := stepped (withText ["vsetvl x5, x6"] (withX { State.reset with vl := 5 } [(6, -1), (5, 2)]))
    t.fault = some ⟨.vlNegative (-1), 0⟩ ∧ t.vl = 5 ∧ readX t 5 = 2 ∧ t.cycles = 0 := by decide

/-! ### Vector memory -/

/-- Vector VM1. -/
theorem test_vlw :
    let t := stepped (withText ["vlw v1, 2(x10)"]
      (withMem (withX { State.reset with vl := 4 } [(10, 100)]) 102 [7, 8, 9, 10]))
    lanes t 1 5 = [7, 8, 9, 10, 0] ∧ t.memAccesses = 4 := by decide
/-- Vector VM8. -/
theorem test_vlw_negative_address :
    (stepped (withText ["vlw v1, 0(x1)"] (withX { State.reset with vl := 2 } [(1, -1)]))).fault
      = some ⟨.memOutOfRange (-1), 0⟩ := by decide
/-- Vector VM3. -/
theorem test_vsw :
    let t := stepped (withText ["vsw v3, 40(x0)"] (withV { State.reset with vl := 2 } 3 [5, 6]))
    t.mem = [(40, 5), (41, 6)] ∧ t.memAccesses = 2 := by decide
/-- Vector VM12: nothing is transferred. -/
theorem test_vsw_out_of_range :
    let t := stepped (withText ["vsw v1, 1022(x0)"]
      (withMem (withV { State.reset with vl := 4 } 1 [1, 2, 3, 4]) 1022 [8, 8]))
    t.fault = some ⟨.memOutOfRange 1024, 0⟩ ∧ cells t 1022 2 = [8, 8] := by decide

/-! ### Moves -/

/-- Vector MV2: lane 0 is read with `vl = 0`. -/
theorem test_vmvXS :
    readX (stepped (withText ["vmv.x.s x1, v2"] (withV .reset 2 [7]))) 1 = 7 := by decide
/-- Vector MV3 and MV4: lane 0 is written with `vl = 0`, the others are kept. -/
theorem test_vmvSX :
    lanes (stepped (withText ["vmv.s.x v2, x7"] (withV (withX .reset [(7, 9)]) 2 [1, 2, 3]))) 2 3
      = [9, 2, 3] := by decide +kernel
/-- Vector MV5. -/
theorem test_vmvVX :
    lanes (stepped (withText ["vmv.v.x v1, x7"]
      (withV (withX { State.reset with vl := 4 } [(7, 3)]) 1 [0, 0, 0, 0, 6]))) 1 5
      = [3, 3, 3, 3, 6] := by decide
/-- Vector MV7. -/
theorem test_vmvVV :
    lanes (stepped (withText ["vmv.v.v v2, v1"]
      (withV (withV { State.reset with vl := 2 } 1 [4, 5, 6]) 2 [0, 0, 7]))) 2 3
      = [4, 5, 7] := by decide

/-! ### Vector arithmetic -/

/-- Vector VA2 and VA3: all lanes with `vl = 0`, sums wrap. -/
theorem test_vaddVV :
    lanes (stepped (withText ["vadd.vv v1, v1, v2"]
      (withV (withV .reset 1 [1, 2147483647]) 2 [2, 1, 5]))) 1 3 = [3, -2147483648, 5] := by decide
/-- Vector VA5. -/
theorem test_vmulVX :
    lanes (stepped (withText ["vmul.vx v2, v1, x8"]
      (withV (withV (withX { State.reset with vl := 2 } [(8, -1)]) 1 [1, 2, 3, 4]) 2 [9, 9, 9, 9]))) 2 4
      = [-1, -2, 9, 9] := by decide
/-- The state a meaning answers, or reset. -/
def answered (o : Host.Outcome State Fault Refusal) : State :=
  match o with
  | .next t => t
  | .fault _ => .reset
  | .refused _ => .reset
/-- Vector VA11, both values of the parameter. -/
theorem test_vslideup :
    let s := withV (withX { State.reset with vl := 4 } [(8, 2)]) 1 [1, 2, 3, 4]
    lanes (answered (slideUp .natural 1 1 8 s)) 1 4 = [3, 4, 0, 0]
    ∧ lanes (answered (slideUp .reference 1 1 8 s)) 1 4 = [3, 4, 3, 0] := by decide
/-- Vector VA9. -/
theorem test_vslideup_range :
    (stepped (withText ["vslideup.vx v5, v3, x8"] (withX { State.reset with vl := 4 } [(8, 5)]))).fault
      = some ⟨.slideOutOfRange 5, 0⟩ := by decide
/-- Vector VA15. -/
theorem test_vslidedown :
    lanes (stepped (withText ["vslidedown.vx v1, v1, x8"]
      (withV (withX { State.reset with vl := 4 } [(8, 1)]) 1 [1, 2, 3, 4]))) 1 4
      = [0, 1, 2, 3] := by decide
/-- Vector VA16. -/
theorem test_vslidedown_range :
    (stepped (withText ["vslidedown.vx v1, v2, x8"] (withX .reset [(8, 1)]))).fault
      = some ⟨.slideOutOfRange 1, 0⟩ := by decide
/-- Vectors VA19 and VA20: the later of two equal indices stands, an index above `vl` is written. -/
theorem test_vindexmv :
    lanes (stepped (withText ["vindexmv v3, v2, v1"]
      (withV (withV { State.reset with vl := 3 } 1 [5, 5, 0]) 2 [10, 20, 30]))) 3 6
      = [30, 0, 0, 0, 0, 20] := by decide +kernel
/-- Vector VA21. -/
theorem test_vindexmv_range :
    (stepped (withText ["vindexmv v3, v2, v1"]
      (withV { State.reset with vl := 3 } 1 [1, 128, -1]))).fault
      = some ⟨.vIndexOutOfRange 1 128, 0⟩ := by decide

/-! ### The step's guard -/

/-- Why an outcome is a stop, if it is one. -/
def stopOf (o : Host.Outcome State Fault Refusal) : Option Fault :=
  match o with
  | .next _ => none
  | .fault r => some r
  | .refused _ => none
/-- Why an outcome is a refusal, if it is one. -/
def refusalOf (o : Host.Outcome State Fault Refusal) : Option Refusal :=
  match o with
  | .next _ => none
  | .fault _ => none
  | .refused r => some r
/-- Vectors C11 and L1-5: a Halted state has no step. -/
theorem test_halted : stopOf (step (withText ["a:", "b:"] .reset)) = some .halted := by decide
/-- Vector C12: a Faulted state has no step. -/
theorem test_faulted :
    stopOf (step { withText ["vconfig"] .reset with fault := some ⟨.badOperands 0, 0⟩ })
      = some (.faulted ⟨.badOperands 0, 0⟩) := by decide

/-! ### The sparse encoder, the loader and the launch -/

/-- Vector L1-3. -/
theorem test_csr :
    csrEncode ⟨4, [[3, 2, 0, 0], [0, 0, 0, 0], [4, 5, 1, 0], [0, 0, 3, 2]]⟩
      = ⟨[0, 2, 2, 5, 7], [0, 1, 0, 1, 2, 2, 3], [3, 2, 4, 5, 1, 3, 2]⟩ := by decide
/-- Vector E1. -/
theorem test_csr_zero :
    csrEncode ⟨3, [[0, 0, 0], [0, 0, 0]]⟩ = ⟨[0, 0, 0], [], []⟩ := by decide
/-- A placement of the loader's registers. -/
def somewhere : Config.LoaderRegs := ⟨1, 13, 14, 15, by decide⟩
/-- Vector E5. -/
theorem test_loader :
    let t := answered (loadCsrAt somewhere ⟨2, [[1, 2], [3, 4]]⟩ ⟨1, [[5], [6]]⟩ .reset)
    cells t 0 18 = [0, 2, 4, 0, 1, 0, 1, 1, 2, 3, 4, 0, 2, 0, 1, 5, 6, 0]
    ∧ (List.finRange 32).map (fun r => sval (readX t r))
      = [0, 0, 3, 7, 11, 13, 15, 3, 4, 4, 2, 2, 2, 2, 2, 17]
        ++ [0, 0, 0, 0, 0, 0, 0, 0, 0, 0, 0, 0, 0, 0, 0, 0]
    ∧ t.outCount = 2 := by decide
/-- Vector E7. -/
theorem test_loader_entry :
    loaderRefusal ⟨1, [[2147483648]]⟩ ⟨1, [[1]]⟩ .reset = some (.loader .entryTooLarge) := by decide
/-- R139: a row of another length. -/
theorem test_loader_shape :
    loaderRefusal ⟨2, [[1]]⟩ ⟨1, [[1]]⟩ .reset = some (.loader .notRectangular) := by decide
/-- R140: no preload of `x0`, of a cell outside memory, or after the first step. -/
theorem test_preload_refused :
    preloadAllowed (.scalar 0 1) = false ∧ preloadAllowed (.cell 1024 1) = false
    ∧ started { State.reset with cycles := 1 } = true := by decide
/-- Program P6 (b): a launch that is not `WF` is refused. -/
theorem test_boot_refuses_not_wf :
    refusalOf (boot none [] (textLines ["addi x1, x0, 1", "beq x1, x0, missing"]))
      = some (.notWellFormed 1 (.unknownLabel "missing".toList)) := by decide
/-- Program P6 (a): a launch with a parse error is refused. -/
theorem test_boot_refuses_parse_error :
    refusalOf (boot none [] (textLines ["start:", "addi x1, x0, 1", "start:"]))
      = some (.parse ⟨.duplicateLabel, 3⟩) := by decide

/-! ### Bits read as text (log entry 2) -/

/-- The bytes of "vconfig", the first the least significant. -/
theorem test_table_word : decodeTableWord 56 0x6769666E6F6376 = some .vconfig := by decide
theorem test_fetch_word :
    (stepped (State.reset.withFetchWord 56 0x6769666E6F6376)).vl = 128 := by decide

/-! ### Witnesses: concrete states and operands that meet the hypotheses of the obligations -/

/-- A state at the first slot of a two-instruction program. -/
def runningState : State := withText ["addi x1, x0, 5", "vsetvl x2, x1"] .reset

theorem witness_StepRunsDecodedInstruction :
    runningState.fault = none ∧ ∃ slot, runningState.slots[runningState.pc]? = some slot ∧
      decode runningState.labels slot = .ok (.addi 1 0 5) := ⟨rfl, _, rfl, rfl⟩
theorem witness_DecodeFaultIsTaken :
    let s := withText ["foo"] .reset
    s.fault = none ∧ ∃ slot, s.slots[s.pc]? = some slot ∧
      decode s.labels slot = .error (.unknownOpcode "foo".toList) := ⟨rfl, _, rfl, rfl⟩
/-- The boundary `pc = N - 1` and `pc = N`, and a Faulted state. -/
theorem witness_StepAnswersExactlyWhenRunning :
    (∃ t, step { runningState with pc := 1 } = .next t) ∧
    ({ runningState with pc := 2 }.fault = none ∧ runningState.slots.length ≤ 2) ∧
    { runningState with fault := some ⟨.vlNegative (-1), 0⟩ }.fault = some ⟨.vlNegative (-1), 0⟩ :=
  ⟨⟨_, rfl⟩, ⟨rfl, by decide⟩, rfl⟩
/-- A decode fault and an execution fault. -/
theorem witness_FaultsArePrecise :
    (∃ t, step (withText ["foo"] .reset) = .next t ∧
      t.fault = some ⟨.unknownOpcode "foo".toList, 0⟩) ∧
    (∃ t, step (withText ["vlw v1, 1024(x0)"] { State.reset with vl := 1 }) = .next t ∧
      t.fault = some ⟨.memOutOfRange 1024, 0⟩) := ⟨⟨_, rfl, rfl⟩, ⟨_, rfl, rfl⟩⟩
theorem witness_RetirementSetsPcAndCounts : ∃ t, step runningState = .next t ∧ t.fault = none :=
  ⟨_, rfl, rfl⟩
theorem witness_RegisterZeroIsHardwired :
    ∃ t, step (withText ["addi x0, x0, 9"] .reset) = .next t ∧ t.fault = none := ⟨_, rfl, rfl⟩
theorem witness_LaunchNeverChanges : ∃ t, step runningState = .next t := ⟨_, rfl⟩
theorem witness_ExecutionIgnoresTheProgram : ∃ t, exec (.vsetvl 2 1) runningState = .next t :=
  ⟨_, rfl⟩
theorem witness_ExecutionIgnoresTheCounters :
    ∃ t, exec (.vlw 1 0 0) { State.reset with vl := 2 } = .next t := ⟨_, rfl⟩
/-- A register file that differs outside the sources of `add x3, x1, x2`. -/
theorem witness_ScalarAccessIsTheListed :
    let s := withX .reset [(1, 2), (2, 3)]
    let x' := (withX s [(9, 7)]).x
    (∃ t, exec (.add 3 1 2) s = .next t) ∧
    ∀ r, r ∈ scalarSources (.add 3 1 2) → readX { s with x := x' } r = readX s r :=
  ⟨⟨_, rfl⟩, by decide⟩
/-- Vector registers that differ outside the sources of `vadd.vv v3, v1, v2`. -/
theorem witness_VectorAccessIsTheListed :
    let s := withV .reset 1 [2]
    let vr' := (withV s 9 [7]).vr
    (∃ t, exec (.vaddVV 3 1 2) s = .next t) ∧
    ∀ d, d ∈ vectorSources (.vaddVV 3 1 2) → vr'[d] = s.vr[d] := by
  refine ⟨⟨_, rfl⟩, fun d hd => ?_⟩
  have h9 : (9 : Nat) ≠ d.val := by
    simp only [vectorSources, List.mem_cons, List.not_mem_nil, or_false] at hd
    rcases hd with rfl | rfl <;> decide
  exact Vector.getElem_set_ne (h := h9) (hi := by decide) (hj := d.isLt)
theorem witness_OnlyVectorLoadAndStoreReachMemory :
    (∃ t, exec (.vlw 1 0 0) { State.reset with vl := 2 } = .next t) ∧ isStore (.vlw 1 0 0) = false ∧
    (∃ t, exec (.vsw 1 0 0) { State.reset with vl := 2 } = .next t) ∧ isLoad (.vsw 1 0 0) = false :=
  ⟨⟨_, rfl⟩, rfl, ⟨_, rfl⟩, rfl⟩
/-- The matrices of the loader's witnesses. -/
def smallMatrix : DenseMatrix := ⟨2, [[1, 0], [0, 2]]⟩
/-- The loader admits a call. -/
theorem loadCsr_next (s : State) (h : loaderRefusal smallMatrix smallMatrix s = none) :
    ∃ t, loadCsr smallMatrix smallMatrix s = .next t :=
  ⟨_, by simp only [loadCsr, loadCsrAt, h]; rfl⟩
theorem witness_LengthIsSetOnlyByConfiguration :
    (∃ t, exec (.vslideupVX 1 2 0) { State.reset with vl := 128 } = .next t) ∧
      setsLength (.vslideupVX 1 2 0) = false ∧ { State.reset with vl := 128 }.vl ≤ Config.VLEN ∧
    (∃ t, loadCsr smallMatrix smallMatrix .reset = .next t) ∧
    (∃ t, preload (.scalar 1 5) .reset = .next t) ∧
    (∃ t, loadProgram (textLines ["vconfig"]) .reset = .next t) :=
  ⟨⟨_, rfl⟩, rfl, by decide, loadCsr_next _ (by decide), ⟨_, rfl⟩, ⟨_, rfl⟩⟩
theorem witness_AccessesCountTransferredLanes :
    ∃ t, step (withText ["vsw v1, 0(x0)"] { State.reset with vl := 2 }) = .next t := ⟨_, rfl⟩
/-- One for each of the four execution faults. -/
theorem witness_ExecutionFaultsByOpcode :
    (∃ t r, exec (.vsetvl 1 2) (withX .reset [(2, -1)]) = .next t ∧ t.fault = some r) ∧
    (∃ t r, exec (.vslidedownVX 1 2 3) (withX .reset [(3, 1)]) = .next t ∧ t.fault = some r) ∧
    (∃ t r, exec (.vlw 1 1024 0) { State.reset with vl := 1 } = .next t ∧ t.fault = some r) ∧
    (∃ t r, exec (.vindexmv 1 2 3) (withV { State.reset with vl := 1 } 3 [128]) = .next t ∧
      t.fault = some r) := ⟨⟨_, _, rfl, rfl⟩, ⟨_, _, rfl, rfl⟩, ⟨_, _, rfl, rfl⟩, ⟨_, _, rfl, rfl⟩⟩
theorem witness_StepKeepsInvariant : Inv runningState ∧ ∃ t, step runningState = .next t :=
  ⟨⟨by decide, by decide, by decide, by decide, by decide, fun _ h => nomatch h⟩, _, rfl⟩
theorem witness_WellFormedRunsRaiseNoDecodeFault :
    runningState.program.wf = true ∧ runningState.fault = none := by decide
/-- With and without matrices. -/
theorem witness_BootGivesAdmittedState :
    (∃ s, boot none [.scalar 6 200] (textLines ["vsetvl x5, x6"]) = .next s) ∧
    (∃ s, boot (some (smallMatrix, smallMatrix)) [] (textLines ["vconfig"]) = .next s) :=
  ⟨⟨_, rfl⟩, by
    simp only [boot, loadCsr, loadCsrAt, show loaderRefusal smallMatrix smallMatrix .reset = none by decide,
      preloads, loadProgram, started, loaderEffect, loaderRegisters_cycles, loaderRegisters_fault,
      loaderRegisters_programLoaded]
    exact ⟨_, rfl⟩⟩
/-- After the first step, after a first load, and before both: an accepted text, a parse error and a
program that is not `WF`. -/
theorem witness_LoadProgramAdmitsExactlyWellFormed :
    { State.reset with cycles := 1 }.cycles ≠ 0 ∧
    { State.reset with fault := some ⟨.vlNegative (-1), 0⟩ }.fault ≠ none ∧
    (State.reset.cycles = 0 ∧ State.reset.fault = none ∧ State.reset.programLoaded = false ∧
      { State.reset with programLoaded := true }.programLoaded = true) ∧
    (∃ t, loadProgram (textLines ["vconfig"]) .reset = .next t) ∧
    (∃ e, assemble (textLines ["a:", "a:"]) = .error e) ∧
    (∃ p, assemble (textLines ["foo"]) = .ok p ∧ p.wf = false) :=
  ⟨by decide, by decide, by decide, ⟨_, rfl⟩, ⟨_, rfl⟩, _, rfl, by decide⟩

/-- Each fault of decode in its turn: an unknown token, a wrong count, at operand 2 an immediate just
out of range and a name in its place, at operand 1 a vector register, a label not in the table; and
operands that pass, at the ends of their ranges. -/
theorem witness_DecodeRaisesTheFirstFault :
    (∀ op : Opcode, op.token ≠ "ADD".toList) ∧
    Opcode.add.token = "add".toList ∧
    [Operand.imm 1].length ≠ Opcode.add.shape.length ∧
    (Opcode.addi.shape[2]? = some .I ∧ OperandOfKind .I (.imm 2147483647) ∧
      ¬ OperandOfKind .I (.imm 2147483648) ∧ ¬ OperandOfKind .I (.ident "-1".toList) ∧
      ¬ OperandOfKind .L (.imm 5) ∧ OperandOfKind .X (.ident "v2".toList)) ∧
    (NeedsClass .X .X ∧ NamesRegister .X 31 (.ident "x31".toList) ∧
      NamesRegister .X 2 (.reg .X 2) ∧ (∀ r, ¬ NamesRegister .X r (.ident "v2".toList)) ∧
      (∀ r, ¬ NamesRegister .X r (.ident "x32".toList)) ∧ ∀ r, ¬ NamesRegister .X r (.reg .V 2)) ∧
    (Opcode.beq.shape[2]? = some .L ∧ labelIndex [("a".toList, 0)] "b".toList = none ∧
      labelIndex [("a".toList, 0)] "a".toList ≠ none) := by
  refine ⟨fun op => by cases op <;> decide, rfl, by decide, ?_, ?_, by decide⟩
  · simp only [← kindFits_iff]
    decide
  · simp only [← regClass_iff, namesRegister_iff]
    decide
/-- An ABI name, a numeric name, a resolved base and vector names, the largest immediate, and a bound
label. -/
theorem witness_EachOpcodeDecodesItsOperands :
    (NamesRegister .X 2 (.ident "sp".toList) ∧ NamesRegister .X 31 (.ident "x31".toList) ∧
      NamesRegister .X 0 (.reg .X 0)) ∧
    (NamesRegister .V 0 (.ident "v0".toList) ∧ NamesRegister .V 31 (.ident "v31".toList) ∧
      NamesRegister .V 7 (.reg .V 7)) ∧
    (2147483647 : Nat) ≤ 2147483647 ∧ labelIndex [("end".toList, 9)] "end".toList = some 9 := by
  simp only [namesRegister_iff]
  decide
theorem witness_ImmediatesDecodeToTheirValue :
    (2147483647 : Nat) ≤ 2147483647 ∧ (2147483647 : Nat) < 2147483648 := by decide
theorem witness_MemoryFormsDecodeAlike :
    decimalLiteral "007".toList = some 7 ∧ resolve "sp".toList = some (.X, 2) := by decide
/-- A label at `N`, and the largest immediate. -/
theorem witness_DecodeInvertsEncode :
    ((Instr.beq 1 2 9).wf 9 = true ∧ labelIndex [("end".toList, 9)] "end".toList = some 9) ∧
    (Instr.addi 31 30 0x7FFFFFFF#32).wf 0 = true := by decide
theorem witness_AssemblerReadsEncodedText :
    (Instr.j 9).wf 9 = true ∧ (∀ e, e ∈ [("end".toList, 9)] → isIdentifier e.1 = true) ∧
    ∃ slot, encode [("end".toList, 9)] 3 (.j 9) = some slot :=
  ⟨by decide, by decide, _, rfl⟩
theorem witness_DecodedInstructionsAreWellFormed :
    labelsWithin 9 [("end".toList, 9)] = true ∧
    decode [("end".toList, 9)] ⟨1, "j".toList, [.ident "end".toList]⟩ = .ok (.j 9) := by decide
/-- A label before a slot and one at `N`. -/
theorem witness_LabelsBindTheNextInstruction :
    isIdentifier "L".toList = true ∧
    (∃ p, assemble (["vconfig".toList] ++ ("L".toList ++ [':']) :: ["j L".toList]) = .ok p) ∧
    (∃ p, assemble (["vconfig".toList] ++ ("L".toList ++ [':']) :: []) = .ok p) ∧
    runningState.fault = none ∧ ∃ t, exec (.j runningState.slots.length) runningState = .next t :=
  ⟨by decide, ⟨_, rfl⟩, ⟨_, rfl⟩, rfl, _, rfl⟩
theorem witness_LabelTableIsWellFormed :
    ∃ p, assemble (textLines ["a:", "vconfig", "b:"]) = .ok p := ⟨_, rfl⟩
theorem witness_FirstParseErrorStops :
    ∃ e, assemble (textLines ["a:", "a:", "1b:"]) = .error e := ⟨_, rfl⟩
theorem witness_CommentsAndBlanksHaveNoEffect : [' ', '\t', '\r'].all isSpace = true := by decide
/-- The last cells of memory, and no cell at all. -/
theorem witness_MemoryReadsAndWrites :
    State.reset.mem.wf = true ∧
    (∀ k : Nat, k < 2 → 0 ≤ (1022 : Int) + k ∧ (1022 : Int) + k < 1024) ∧
    (∀ k : Nat, k < 0 → 0 ≤ (-1 : Int) + k ∧ (-1 : Int) + k < 1024) := by
  refine ⟨rfl, ?_, ?_⟩ <;> intros <;> omega
/-- The last legal start of a full-length transfer. -/
theorem witness_LoadAfterStoreGivesTheStoredLanes :
    let s := { State.reset with vl := 128 }
    s.mem.wf = true ∧ ∀ k : Nat, k < s.vl →
      0 ≤ sval (readX s 0) + sval 896#32 + k ∧ sval (readX s 0) + sval 896#32 + k < 1024 := by
  have h0 : sval (0 : Word) = 0 := by decide
  have h1 : sval (896#32 : Word) = 896 := by decide
  refine ⟨rfl, fun k (hk : k < 128) => ?_⟩
  show 0 ≤ sval (0 : Word) + _ + _ ∧ sval (0 : Word) + _ + _ < _
  rw [h0, h1]
  omega

/-- The largest sum, difference and product that fit a word. -/
theorem witness_AddiResult :
    (1 : XReg) ≠ 0 ∧ -2147483648 ≤ sval (readX .reset 0) + sval 0x7FFFFFFF#32 ∧
      sval (readX .reset 0) + sval 0x7FFFFFFF#32 < 2147483648 := by decide
theorem witness_AddResult :
    let s := withX .reset [(1, 2147483646), (2, 1)]
    (3 : XReg) ≠ 0 ∧ -2147483648 ≤ sval (readX s 1) + sval (readX s 2) ∧
      sval (readX s 1) + sval (readX s 2) < 2147483648 := by decide
theorem witness_SubResult :
    let s := withX .reset [(1, -2147483647), (2, 1)]
    (3 : XReg) ≠ 0 ∧ -2147483648 ≤ sval (readX s 1) - sval (readX s 2) ∧
      sval (readX s 1) - sval (readX s 2) < 2147483648 := by decide
theorem witness_MulResult :
    let s := withX .reset [(1, -1073741824), (2, 2)]
    (3 : XReg) ≠ 0 ∧ -2147483648 ≤ sval (readX s 1) * sval (readX s 2) ∧
      sval (readX s 1) * sval (readX s 2) < 2147483648 := by decide
theorem witness_BranchResult :
    sval (readX .reset 1) = sval (readX .reset 2) ∧
    sval (readX (withX .reset [(1, 1)]) 1) ≠ sval (readX (withX .reset [(1, 1)]) 2) := by decide
theorem witness_VsetvlResult :
    0 ≤ sval (readX .reset 1) ∧ sval (readX (withX .reset [(1, -1)]) 1) < 0 := by decide
/-- A full-length transfer that ends at the last cell, one that passes it by one cell, and a
negative address. -/
theorem witness_VectorLoadResult :
    let s := { State.reset with vl := 128 }
    (∀ k : Nat, k < s.vl →
      0 ≤ sval (readX s 0) + sval 896#32 + k ∧ sval (readX s 0) + sval 896#32 + k < 1024) ∧
    ((127 < s.vl ∧ inMemory (sval (readX s 0) + sval 897#32 + (127 : Nat)) = false) ∧
      ∀ j : Nat, j < 127 → inMemory (sval (readX s 0) + sval 897#32 + j) = true) ∧
    inMemory (sval (readX (withX s [(1, -1)]) 1) + sval 0#32 + (0 : Nat)) = false := by
  have h0 : sval (0 : Word) = 0 := by decide
  have h1 : sval (897#32 : Word) = 897 := by decide
  refine ⟨witness_LoadAfterStoreGivesTheStoredLanes.2, ⟨by decide, fun j hj => ?_⟩, by decide⟩
  show inMemory (sval (0 : Word) + _ + _) = true
  rw [h0, h1]
  simp only [inMemory, Config.MEM_WORDS, Bool.and_eq_true, decide_eq_true_eq]
  omega
theorem witness_VectorStoreResult :
    let s := { State.reset with vl := 128 }
    s.mem.wf = true ∧ (∀ k : Nat, k < s.vl →
      0 ≤ sval (readX s 0) + sval 896#32 + k ∧ sval (readX s 0) + sval 896#32 + k < 1024) ∧
    ((127 < s.vl ∧ inMemory (sval (readX s 0) + sval 897#32 + (127 : Nat)) = false) ∧
      ∀ j : Nat, j < 127 → inMemory (sval (readX s 0) + sval 897#32 + j) = true) :=
  ⟨rfl, witness_VectorLoadResult.1, witness_VectorLoadResult.2.1⟩
/-- Lanes below and at `vl`, for the lane-gated moves and products. -/
theorem witness_gated_lanes :
    let s := { State.reset with vl := 4 }
    (3 < s.vl ∧ 3 < Config.VLEN) ∧ (s.vl ≤ 4 ∧ 4 < Config.VLEN) ∧
    (s.vl ≤ 127 ∧ 127 < Config.VLEN) := by decide
/-- The shifts 0, `vl`, `vl + 1` and -1, and the lanes about the boundary `vl - n`. -/
theorem witness_SlideUpResult :
    let s := withX { State.reset with vl := 4 } [(1, 4), (2, 5), (3, -1), (4, 1)]
    (sval (readX s 0) = (0 : Nat) ∧ 0 ≤ s.vl) ∧ (sval (readX s 1) = (4 : Nat) ∧ 4 ≤ s.vl) ∧
    (s.vl : Int) < sval (readX s 2) ∧ sval (readX s 3) < 0 ∧
    (sval (readX s 4) = (1 : Nat) ∧ 2 < s.vl - 1 ∧ s.vl - 4 < 1 ∧ s.vl - 1 < Config.VLEN) := by
  decide
theorem witness_SlideDownResult :
    let s := withX { State.reset with vl := 128 } [(1, 128), (2, 129), (3, -1)]
    (sval (readX s 0) = (0 : Nat) ∧ 0 ≤ s.vl) ∧ (sval (readX s 1) = (128 : Nat) ∧ 128 ≤ s.vl) ∧
    (s.vl : Int) < sval (readX s 2) ∧ sval (readX s 3) < 0 := by decide
/-- Both ends of the index range, a repeated index, and an index just outside at lane 1. -/
theorem witness_ScatterResult :
    let s := withV { State.reset with vl := 3 } 1 [127, 0, 127]
    let u := withV { State.reset with vl := 2 } 1 [127, 128]
    (∀ i : Nat, i < s.vl → 0 ≤ sval (readLane s 1 i) ∧ sval (readLane s 1 i) < 128) ∧
    (∀ j : Nat, 2 < j → j < s.vl → sval (readLane s 1 j) ≠ sval (readLane s 1 2)) ∧
    (1 < u.vl ∧ isLaneIndex (sval (readLane u 1 1)) = false) ∧
    (∀ j : Nat, j < 1 → isLaneIndex (sval (readLane u 1 j)) = true) := by
  refine ⟨by decide +kernel, fun j (h1 : 2 < j) (h2 : j < 3) => by omega, by decide +kernel,
    by decide +kernel⟩
theorem witness_SparseEncoderIsFaithful :
    smallMatrix.rectangular = true ∧ (⟨3, []⟩ : DenseMatrix).rectangular = true := by decide
theorem witness_LoaderLaysOutTheArrays :
    (∃ t, loadCsr smallMatrix smallMatrix .reset = .next t) ∧ State.reset.mem.wf = true :=
  ⟨loadCsr_next _ (by decide), rfl⟩
theorem witness_LoaderRecordsTheLayout :
    ∃ t, loadCsr smallMatrix smallMatrix .reset = .next t := loadCsr_next _ (by decide)
/-- Pairs of matrices whose six arrays fill memory exactly, and pass it by one cell. -/
theorem witness_LoaderIsAdmittedExactlyWhen :
    let a : DenseMatrix := ⟨510, [List.replicate 510 1]⟩
    let cells (b : DenseMatrix) : Nat :=
      (csrEncode a).rowPtr.length + (csrEncode a).colIdx.length + (csrEncode a).values.length
        + (csrEncode b.transpose).rowPtr.length + (csrEncode b.transpose).colIdx.length
        + (csrEncode b.transpose).values.length
    (∀ row, row ∈ a.rows → row.length = a.cols ∧
      ∀ v, v ∈ row → -2147483648 ≤ v ∧ v < 2147483648) ∧
    cells ⟨1, []⟩ = 1024 ∧ cells ⟨2, []⟩ = 1025 ∧
    State.reset.csrLoaded = false ∧ State.reset.cycles = 0 ∧ State.reset.fault = none := by
  decide +kernel
theorem witness_PreloadWritesOnlyBeforeTheFirstStep :
    ({ State.reset with cycles := 1 }.cycles ≠ 0) ∧
    (State.reset.cycles = 0 ∧ State.reset.fault = none) ∧ (1 : XReg) ≠ 0 ∧ (1023 : Nat) < 1024 := by
  decide

end Sys2Proof.Tests
end

section
/-! SUPPORT. What each instruction reads and writes of the vector registers (10_state.md R24): two
executions of one instruction, from vector registers that agree on its sources, side by side. -/

namespace Sys2Proof.Machine

/-! ### One lane, and one register, in two executions -/

/-- Two executions put the same word in a lane, or each keeps what the lane held. -/
def SameOrKept (old old' w w' : Word) : Prop := w' = w ∨ (w' = old' ∧ w = old)

/-- `SameOrKept` on every lane of a register's contents before and after. -/
def LanesSameOrKept (old old' v v' : VecReg) : Prop :=
  ∀ k, k < Config.VLEN → SameOrKept (old.lane k) (old'.lane k) (v.lane k) (v'.lane k)

theorem lanesSameOrKept_kept (old old' : VecReg) : LanesSameOrKept old old' old old' :=
  fun _ _ => .inr ⟨rfl, rfl⟩

theorem lanesSameOrKept_same (old old' v : VecReg) : LanesSameOrKept old old' v v :=
  fun _ _ => .inl rfl

theorem LanesSameOrKept.setLane {old old' v v' : VecReg} (h : LanesSameOrKept old old' v v')
    (i : Nat) (w : Word) : LanesSameOrKept old old' (v.setLane i w) (v'.setLane i w) := by
  intro k hk
  by_cases hki : k = i
  · exact .inl (by simp [hki])
  · simpa [hk, hki] using h k hk

/-- Lane gating (R23): the lanes from `n` on are kept in both. -/
theorem lanesSameOrKept_gated {n : Nat} {old old' : VecReg} {f f' : Nat → Word}
    (h : ∀ k, SameOrKept (old.lane k) (old'.lane k) (f k) (f' k)) :
    LanesSameOrKept old old' (old.gated n f) (old'.gated n f') := by
  intro k hk
  by_cases hkn : k < n
  · simpa [hk, hkn] using h k
  · exact .inr (by simp [hk, hkn])

theorem lanesSameOrKept_gated_same (n : Nat) (old old' : VecReg) (f : Nat → Word) :
    LanesSameOrKept old old' (old.gated n f) (old'.gated n f) :=
  lanesSameOrKept_gated fun _ => .inl rfl

/-- A scatter puts a source lane in each lane the index vector names, and keeps the others. -/
theorem lanesSameOrKept_scatter (s : State) (vs vidx : VReg) (old old' : VecReg) :
    LanesSameOrKept old old' (scatter s vs vidx old) (scatter s vs vidx old') :=
  List.foldl_rel (lanesSameOrKept_kept old old') fun _ _ _ _ h => h.setLane _ _

/-! ### Reading a source in another vector register file -/

/-- A lane reads the same in two states whose vector registers agree. -/
theorem readLane_congr {s t : State} (h : t.vr = s.vr) (d : VReg) (k : Nat) :
    readLane t d k = readLane s d k := by
  simp only [readLane, readV, h]

/-- What a lane reads when one vector register has been written. -/
theorem readLane_of_vr_set {s t : State} {e : VReg} {v : VecReg} (h : t.vr = s.vr.set e v)
    (d : VReg) (k : Nat) : readLane t d k = if d = e then v.lane k else readLane s d k :=
  (readLane_congr (s := writeV e v s) h d k).trans (readLane_writeV s e d v k)

section OtherVectors
variable {s : State} {vr' : Vector VecReg Config.NV} {vs vidx : VReg}

theorem readLane_withVectors (h : vr'[vs] = s.vr[vs]) (k : Nat) :
    readLane { s with vr := vr' } vs k = readLane s vs k :=
  congrArg (VecReg.lane · k) h

theorem signedLane_withVectors (h : vr'[vs] = s.vr[vs]) (k : Nat) :
    signedLane { s with vr := vr' } vs k = signedLane s vs k :=
  congrArg sval (readLane_withVectors h k)

theorem activeLanes_withVectors (h : vr'[vs] = s.vr[vs]) :
    activeLanes { s with vr := vr' } vs = activeLanes s vs := by
  simp only [activeLanes, readLane_withVectors h]

theorem slideDownLane_withVectors (h : vr'[vs] = s.vr[vs]) (n : Nat) :
    slideDownLane { s with vr := vr' } vs n = slideDownLane s vs n := by
  funext k
  simp only [slideDownLane, readLane_withVectors h]

theorem scatterFault_withVectors (h : vr'[vidx] = s.vr[vidx]) :
    scatterFault { s with vr := vr' } vidx = scatterFault s vidx := by
  simp only [scatterFault, signedLane_withVectors h]

theorem scatter_withVectors (hs : vr'[vs] = s.vr[vs]) (hi : vr'[vidx] = s.vr[vidx]) (old : VecReg) :
    scatter { s with vr := vr' } vs vidx old = scatter s vs vidx old := by
  simp only [scatter, readLane_withVectors hs, signedLane_withVectors hi]

/-- A slide toward lane 0 reads its source or fills a zero, but for the boundary lane, which it may
keep (R105, conflict C5). -/
theorem slideUpLane_sameOrKept (h : vr'[vs] = s.vr[vs]) (b : Config.SlideupBoundary) (vd : VReg)
    (n k : Nat) :
    SameOrKept (readLane s vd k) (readLane { s with vr := vr' } vd k)
      (slideUpLane b s vd vs n k) (slideUpLane b { s with vr := vr' } vd vs n k) := by
  simp only [slideUpLane, readLane_withVectors h]
  by_cases hk : k < s.vl - n
  · exact .inl (by simp only [if_pos hk])
  · cases b with
    | natural => exact .inl (by simp only [if_neg hk])
    | reference =>
      by_cases hb : k = s.vl - n
      · exact .inr (by simp only [if_neg hk, if_pos hb, and_self])
      · exact .inl (by simp only [if_neg hk, if_neg hb])

end OtherVectors

/-! ### Operations that neither read nor write the vector registers -/

/-- An operation on states that neither reads nor writes the vector registers. -/
def IgnoresVectors (f : State → State) : Prop :=
  ∀ (u : State) (w : Vector VecReg Config.NV), f { u with vr := w } = { f u with vr := w }

theorem IgnoresVectors.vr {f : State → State} (hf : IgnoresVectors f) (u : State) :
    (f u).vr = u.vr :=
  (congrArg State.vr (hf u u.vr) :)

theorem retire_ignoresVectors (target : Option Nat) : IgnoresVectors (retire target) :=
  fun _ _ => rfl

theorem countAccesses_ignoresVectors (n : Nat) : IgnoresVectors (countAccesses n) := fun _ _ => rfl

theorem writeX_ignoresVectors (rd : XReg) (v : Word) : IgnoresVectors (writeX rd v) := by
  intro u w
  unfold writeX
  split <;> rfl

/-! ### Two executions side by side -/

/-- `t` comes from `s`, and the second state from `s` with the vector registers `vr'`, by the same
writes of instruction `i`: they differ in the vector registers alone, and of those both have written
none, or `i`'s destination, with lanes that are the same or kept. -/
inductive VectorTwin (i : Instr) (s : State) (vr' : Vector VecReg Config.NV) (t : State) :
    State → Prop where
  | kept (ht : t.vr = s.vr) : VectorTwin i s vr' t { t with vr := vr' }
  | written (d : VReg) (v v' : VecReg) (hd : vectorDest i = some d) (ht : t.vr = s.vr.set d v)
      (hl : LanesSameOrKept s.vr[d] vr'[d] v v') :
      VectorTwin i s vr' t { t with vr := vr'.set d v' }

namespace VectorTwin
variable {i : Instr} {s t t' : State} {vr' : Vector VecReg Config.NV} {f : State → State}

theorem map (hf : IgnoresVectors f) (h : VectorTwin i s vr' t t') :
    VectorTwin i s vr' (f t) (f t') := by
  cases h with
  | kept ht => rw [hf t vr']; exact .kept ((hf.vr t).trans ht)
  | written d v v' hd ht hl =>
    rw [hf t (vr'.set d v')]
    exact .written d v v' hd ((hf.vr t).trans ht) hl

theorem retired (target : Option Nat) (h : VectorTwin i s vr' t t') :
    VectorTwin i s vr' (retire target t) (retire target t') :=
  h.map (retire_ignoresVectors target)

/-- The twins of an instruction that retires after writes outside the vector registers. -/
theorem retiredKept (target : Option Nat) (hf : IgnoresVectors f) :
    VectorTwin i s vr' (retire target (f s)) (retire target (f { s with vr := vr' })) :=
  retired target (map hf (.kept rfl))

theorem ofWriteV {d : VReg} {v v' : VecReg} (hd : vectorDest i = some d)
    (hl : LanesSameOrKept s.vr[d] vr'[d] v v') :
    VectorTwin i s vr' (writeV d v s) (writeV d v' { s with vr := vr' }) :=
  .written d v v' hd rfl hl

/-- Only the destination is written. -/
theorem readLane_eq (h : VectorTwin i s vr' t t') {d : VReg} (hd : vectorDest i ≠ some d)
    (k : Nat) : readLane t d k = readLane s d k := by
  cases h with
  | kept ht => exact readLane_congr ht d k
  | written e v v' he ht hl =>
    have hde : d ≠ e := fun h => hd (h ▸ he)
    exact (readLane_of_vr_set ht d k).trans (if_neg hde)

/-- The twins agree outside the vector registers. -/
theorem withVectors_eq (h : VectorTwin i s vr' t t') : { t' with vr := t.vr } = t := by
  cases h <;> rfl

/-- Every lane is the same in the twins or kept in both. -/
theorem sameOrKept (h : VectorTwin i s vr' t t') (d : VReg) {k : Nat} (hk : k < Config.VLEN) :
    SameOrKept (readLane s d k) (vr'[d].lane k) (readLane t d k) (readLane t' d k) := by
  cases h with
  | kept ht => exact .inr ⟨rfl, readLane_congr ht d k⟩
  | written e v v' he ht hl =>
    have hr := readLane_of_vr_set ht d k
    have hr' := readLane_of_vr_set (s := { s with vr := vr' }) (t := { t with vr := vr'.set e v' })
      rfl d k
    rw [hr, hr']
    by_cases hde : d = e
    · subst hde
      rw [if_pos rfl, if_pos rfl]
      exact hl k hk
    · exact .inr ⟨if_neg hde, if_neg hde⟩

end VectorTwin

/-- A range check answers the same for twins. -/
theorem checked_twin {i : Instr} {s t u u' : State} {vr' : Vector VecReg Config.NV}
    {c : Option FaultCause}
    (h : (match c with
      | some cause => Host.Outcome.next (takeFault cause s)
      | none => (Host.Outcome.next u : Host.Outcome State Fault Refusal)) = .next t)
    (hu : VectorTwin i s vr' u u') :
    ∃ t', (match c with
      | some cause => Host.Outcome.next (takeFault cause { s with vr := vr' })
      | none => (Host.Outcome.next u' : Host.Outcome State Fault Refusal)) = .next t' ∧
      VectorTwin i s vr' t t' := by
  obtain ⟨cause, rfl, rfl⟩ | ⟨rfl, rfl⟩ := checked_next h
  · exact ⟨_, rfl, .kept rfl⟩
  · exact ⟨_, rfl, hu⟩

/-- From vector registers that agree on its sources an instruction answers a twin (R24). -/
theorem exec_twin {i : Instr} {s t : State} {vr' : Vector VecReg Config.NV}
    (h : exec i s = .next t) (hs : ∀ d, d ∈ vectorSources i → vr'[d] = s.vr[d]) :
    ∃ t', exec i { s with vr := vr' } = .next t' ∧ VectorTwin i s vr' t t' := by
  cases i with
  | addi rd rs imm => cases h; exact ⟨_, rfl, .retiredKept _ (writeX_ignoresVectors rd _)⟩
  | add rd rs1 rs2 => cases h; exact ⟨_, rfl, .retiredKept _ (writeX_ignoresVectors rd _)⟩
  | sub rd rs1 rs2 => cases h; exact ⟨_, rfl, .retiredKept _ (writeX_ignoresVectors rd _)⟩
  | mul rd rs1 rs2 => cases h; exact ⟨_, rfl, .retiredKept _ (writeX_ignoresVectors rd _)⟩
  | j target => cases h; exact ⟨_, rfl, .kept rfl⟩
  | beq rs1 rs2 target => cases h; exact ⟨_, rfl, .kept rfl⟩
  | vconfig => cases h; exact ⟨_, rfl, .kept rfl⟩
  | vsetvl rd rs =>
    simp only [exec, execVsetvl] at h ⊢
    split at h
    · rename_i hneg
      cases h
      exact ⟨_, if_pos hneg, .kept rfl⟩
    · rename_i hneg
      cases h
      exact ⟨_, if_neg hneg, .retired _ (.map (writeX_ignoresVectors rd _) (.kept rfl))⟩
  | vlw vd offset base =>
    exact checked_twin h (.retired _ (.map (countAccesses_ignoresVectors _)
      (.ofWriteV rfl (lanesSameOrKept_gated_same _ _ _ _))))
  | vsw vs offset base =>
    have hvs := hs vs (by simp [vectorSources])
    simp only [exec, execVsw, activeLanes_withVectors hvs]
    exact checked_twin h (.kept rfl)
  | vmvXS rd vs =>
    have hvs := hs vs (by simp [vectorSources])
    cases h
    refine ⟨_, rfl, ?_⟩
    rw [readLane_withVectors hvs]
    exact .retiredKept _ (writeX_ignoresVectors rd _)
  | vmvSX vd rs =>
    cases h
    exact ⟨_, rfl, .retired _ (.ofWriteV rfl ((lanesSameOrKept_kept _ _).setLane 0 _))⟩
  | vmvVX vd rs =>
    cases h
    exact ⟨_, rfl, .retired _ (.ofWriteV rfl (lanesSameOrKept_gated_same _ _ _ _))⟩
  | vmvVV vd vs =>
    have hvs := hs vs (by simp [vectorSources])
    cases h
    refine ⟨_, rfl, .retired _ (.ofWriteV rfl ?_)⟩
    simp only [readLane_withVectors hvs]
    exact lanesSameOrKept_gated_same _ _ _ _
  | vaddVV vd vs1 vs2 =>
    have hvs1 := hs vs1 (by simp [vectorSources])
    have hvs2 := hs vs2 (by simp [vectorSources])
    cases h
    refine ⟨_, rfl, .retired _ (.ofWriteV rfl ?_)⟩
    simp only [signedLane_withVectors hvs1, signedLane_withVectors hvs2]
    exact lanesSameOrKept_same _ _ _
  | vmulVX vd vs rs =>
    have hvs := hs vs (by simp [vectorSources])
    cases h
    refine ⟨_, rfl, .retired _ (.ofWriteV rfl ?_)⟩
    simp only [signedLane_withVectors hvs]
    exact lanesSameOrKept_gated_same _ _ _ _
  | vslideupVX vd vs rs =>
    have hvs := hs vs (by simp [vectorSources])
    exact checked_twin h (.retired _ (.ofWriteV rfl
      (lanesSameOrKept_gated (slideUpLane_sameOrKept hvs _ vd _))))
  | vslidedownVX vd vs rs =>
    have hvs := hs vs (by simp [vectorSources])
    refine checked_twin h (.retired _ (.ofWriteV rfl ?_))
    rw [slideDownLane_withVectors hvs]
    exact lanesSameOrKept_gated_same _ _ _ _
  | vindexmv vd vs vidx =>
    have hvs := hs vs (by simp [vectorSources])
    have hvidx := hs vidx (by simp [vectorSources])
    simp only [exec, execVindexmv, scatterFault_withVectors hvidx, scatter_withVectors hvs hvidx]
    exact checked_twin h (.retired _ (.ofWriteV rfl (lanesSameOrKept_scatter s vs vidx _ _)))

/-- Settles O11: the frame is the twin of an execution with itself, the rest the twin from `vr'`. -/
theorem vectorAccessIsTheListed : Obligations.VectorAccessIsTheListed := by
  intro i s t h
  refine ⟨fun d hd k _ => ?_, fun vr' hs => ?_⟩
  · obtain ⟨t', -, twin⟩ := exec_twin (vr' := s.vr) h fun _ _ => rfl
    exact twin.readLane_eq hd k
  · obtain ⟨t', ht', twin⟩ := exec_twin h hs
    exact ⟨t', ht', twin.withVectors_eq, fun d k hk => twin.sameOrKept d hk⟩

end Sys2Proof.Machine
end

section
/-! SUPPORT. Data memory: what an instruction reads and writes of it (20_memory.md R41), and what
`MemRead` and `MemWrite` do where every address exists (R42, R43). -/

namespace Sys2Proof.Machine

/-! ### Executions from another memory -/

section OtherMemory
variable {i : Instr} {s t u : State}

theorem retire_writeX_withMemory (target : Option Nat) (rd : XReg) (v : Word) (s : State)
    (m : Memory) :
    retire target (writeX rd v { s with mem := m }) =
      { retire target (writeX rd v s) with mem := m } := by
  unfold writeX
  split <;> rfl

/-- A range check answers the same from another memory. -/
theorem checked_withMemory {c : Option FaultCause}
    (h : (match c with
      | some cause => Host.Outcome.next (takeFault cause s)
      | none => (Host.Outcome.next u : Host.Outcome State Fault Refusal)) = .next t) (m : Memory) :
    (match c with
      | some cause => Host.Outcome.next (takeFault cause { s with mem := m })
      | none => (Host.Outcome.next { u with mem := m } : Host.Outcome State Fault Refusal)) =
        .next { t with mem := m } := by
  obtain ⟨cause, rfl, rfl⟩ | ⟨rfl, rfl⟩ := checked_next h <;> rfl

/-- An instruction that neither loads nor stores does not reach memory at all. -/
theorem exec_withMemory (h : exec i s = .next t) (hl : isLoad i = false) (hs : isStore i = false)
    (m : Memory) : exec i { s with mem := m } = .next { t with mem := m } := by
  cases i with
  | addi rd rs imm => cases h; exact congrArg _ (retire_writeX_withMemory none rd _ s m)
  | add rd rs1 rs2 => cases h; exact congrArg _ (retire_writeX_withMemory none rd _ s m)
  | sub rd rs1 rs2 => cases h; exact congrArg _ (retire_writeX_withMemory none rd _ s m)
  | mul rd rs1 rs2 => cases h; exact congrArg _ (retire_writeX_withMemory none rd _ s m)
  | j target => cases h; rfl
  | beq rs1 rs2 target => cases h; rfl
  | vconfig => cases h; rfl
  | vsetvl rd rs =>
    simp only [exec, execVsetvl] at h ⊢
    split at h
    · rename_i hneg
      cases h
      exact if_pos hneg
    · rename_i hneg
      cases h
      exact (if_neg hneg).trans
        (congrArg _ (retire_writeX_withMemory none rd _ (setVl _ s) m))
  | vlw vd offset base => cases hl
  | vsw vs offset base => cases hs
  | vmvXS rd vs => cases h; exact congrArg _ (retire_writeX_withMemory none rd _ s m)
  | vmvSX vd rs => cases h; rfl
  | vmvVX vd rs => cases h; rfl
  | vmvVV vd vs => cases h; rfl
  | vaddVV vd vs1 vs2 => cases h; rfl
  | vmulVX vd vs rs => cases h; rfl
  | vslideupVX vd vs rs => exact checked_withMemory h m
  | vslidedownVX vd vs rs => exact checked_withMemory h m
  | vindexmv vd vs vidx => exact checked_withMemory h m

/-- `vlw` reads memory and leaves it as it was (R97). -/
theorem exec_vlw_mem {vd : VReg} {offset : Word} {base : XReg}
    (h : exec (.vlw vd offset base) s = .next t) : t.mem = s.mem := by
  obtain ⟨cause, -, rfl⟩ | ⟨-, rfl⟩ := checked_next h <;> rfl

theorem exec_vsw_of_fault {vs : VReg} {offset : Word} {base : XReg} {cause : FaultCause}
    (h : transferFault s (effectiveAddress s base offset) = some cause) :
    exec (.vsw vs offset base) s = .next (takeFault cause s) := by
  simp only [exec, execVsw, h]

theorem exec_vsw_of_inRange {vs : VReg} {offset : Word} {base : XReg}
    (h : transferFault s (effectiveAddress s base offset) = none) :
    exec (.vsw vs offset base) s = .next (retire none (countAccesses s.vl
      (memWrite (effectiveAddress s base offset) (activeLanes s vs) s))) := by
  simp only [exec, execVsw, h]

/-- What `vsw` answers outside memory does not depend on memory (R98). -/
theorem exec_vsw_withMemory {vs : VReg} {offset : Word} {base : XReg}
    (h : exec (.vsw vs offset base) s = .next t) (m : Memory) :
    ∃ m', exec (.vsw vs offset base) { s with mem := m } = .next { t with mem := m' } := by
  obtain ⟨cause, hc, rfl⟩ | ⟨hc, rfl⟩ := checked_next h
  · exact ⟨m, exec_vsw_of_fault (s := { s with mem := m }) hc⟩
  · exact ⟨_, exec_vsw_of_inRange (s := { s with mem := m }) hc⟩

theorem isLoad_iff : isLoad i = true ↔ ∃ vd offset base, i = .vlw vd offset base := by
  cases i <;> simp [isLoad, Instr.opcode]

theorem isStore_iff : isStore i = true ↔ ∃ vs offset base, i = .vsw vs offset base := by
  cases i <;> simp [isStore, Instr.opcode]

/-- Only a store writes memory. An instruction that does not reach memory leaves whatever memory it
is started from, so in particular the one of `s`. -/
theorem exec_mem (h : exec i s = .next t) (hs : isStore i = false) : t.mem = s.mem := by
  by_cases hl : isLoad i = true
  · obtain ⟨vd, offset, base, rfl⟩ := isLoad_iff.1 hl
    exact exec_vlw_mem h
  · have hkept : exec i s = .next { t with mem := s.mem } :=
      exec_withMemory h (by simpa using hl) hs s.mem
    exact (congrArg State.mem (Host.Outcome.next.inj (h.symm.trans hkept)) :)

/-- Only a load reads memory. -/
theorem exec_withMemory_of_not_load (h : exec i s = .next t) (hl : isLoad i = false) (m : Memory) :
    ∃ m', exec i { s with mem := m } = .next { t with mem := m' } := by
  by_cases hs : isStore i = true
  · obtain ⟨vs, offset, base, rfl⟩ := isStore_iff.1 hs
    exact exec_vsw_withMemory h m
  · exact ⟨m, exec_withMemory h hl (by simpa using hs) m⟩

end OtherMemory

/-- Settles O12: what reads or writes memory is a load or a store, and fetch looks at the pc and the
instruction stream. -/
theorem onlyVectorLoadAndStoreReachMemory : Obligations.OnlyVectorLoadAndStoreReachMemory :=
  ⟨fun _ _ _ h hs => exec_mem h hs, fun _ _ _ m h hl => exec_withMemory_of_not_load h hl m,
    fun _ _ => rfl⟩

/-! ### Reading and writing a list of words -/

/-- Where `n` addresses from `a` on exist there are none of them, or `a` is a natural number and the
last lies in memory. -/
theorem natCast_of_addresses {a : Int} {n : Nat}
    (h : ∀ k : Nat, k < n → 0 ≤ a + k ∧ a + k < 1024) :
    n = 0 ∨ ∃ b : Nat, a = b ∧ b + n ≤ Config.MEM_WORDS := by
  cases n with
  | zero => exact .inl rfl
  | succ n =>
    have hfirst := h 0 (by omega)
    have hlast := h n (by omega)
    refine .inr ⟨a.toNat, by omega, ?_⟩
    simp only [Config.MEM_WORDS]
    omega

theorem memRead_getElem? (s : State) (a : Int) {n k : Nat} (hk : k < n) :
    (memRead s a n)[k]? = some (readCell s (a + k).toNat) := by
  simp [memRead, hk]

@[simp] theorem memRead_zero (s : State) (a : Int) : memRead s a 0 = [] := rfl
@[simp] theorem memWrite_nil (a : Int) (s : State) : memWrite a [] s = s := rfl

section Write
variable {s : State} {a : Int} {ws : List Word}

/-- A write is read back, in canonical memory (R42, R43). -/
theorem memRead_memWrite (hm : s.mem.wf = true)
    (ha : ∀ k : Nat, k < ws.length → 0 ≤ a + k ∧ a + k < 1024) :
    memRead (memWrite a ws s) a ws.length = ws := by
  obtain hnil | ⟨b, rfl, hb⟩ := natCast_of_addresses ha
  · obtain rfl := List.eq_nil_of_length_eq_zero hnil
    rfl
  · refine List.ext_getElem (memRead_length _ _ _) fun k _ hk => ?_
    have haddr : ((b : Int) + k).toNat = b + k := by omega
    have hcell := Memory.read_writeList_inside ws hm hb hk
    simpa [memRead, readCell, haddr] using hcell

/-- A write changes no cell outside its addresses (R43). -/
theorem readCell_memWrite_outside
    (ha : ∀ k : Nat, k < ws.length → 0 ≤ a + k ∧ a + k < 1024) {c : Nat}
    (hc : (c : Int) < a ∨ a + ws.length ≤ c) :
    readCell (memWrite a ws s) c = readCell s c := by
  obtain hnil | ⟨b, rfl, -⟩ := natCast_of_addresses ha
  · obtain rfl := List.eq_nil_of_length_eq_zero hnil
    rfl
  · exact Memory.read_writeList_outside ws s.mem (by rw [Int.toNat_natCast]; omega)

/-- A write keeps memory canonical (log entry 1). -/
theorem memWrite_wf (hm : s.mem.wf = true)
    (ha : ∀ k : Nat, k < ws.length → 0 ≤ a + k ∧ a + k < 1024) :
    (memWrite a ws s).mem.wf = true := by
  obtain hnil | ⟨b, rfl, hb⟩ := natCast_of_addresses ha
  · obtain rfl := List.eq_nil_of_length_eq_zero hnil
    exact hm
  · exact Memory.writeList_wf ws hm fun _ => hb

end Write

/-- Settles O34, from the laws of `memRead` and `memWrite`; memory is the only field a write changes. -/
theorem memoryReadsAndWrites : Obligations.MemoryReadsAndWrites := by
  refine ⟨fun s a ws hm ha => ?_, fun s a _ _ _ hk => memRead_getElem? s a hk,
    fun s a => ⟨memRead_zero s a, memWrite_nil a s⟩⟩
  exact ⟨memRead_memWrite hm ha, fun _ hc => readCell_memWrite_outside ha hc, rfl,
    memWrite_wf hm ha⟩

end Sys2Proof.Machine
end

section
/-! SUPPORT. Label lines (30_encoding.md R61, R62): what the text `name:` assembles to, and that the
lines after it keep what it bound. -/

namespace Sys2Proof

/-! ### Looking a name up -/

/-- A name bound in a table keeps its index when labels are appended (R62). -/
theorem labelIndex_of_prefix {labels labels' : LabelTable} {name : Token} {t : Nat}
    (hp : labels <+: labels') (h : labelIndex labels name = some t) :
    labelIndex labels' name = some t := by
  obtain ⟨more, rfl⟩ := hp
  induction labels with
  | nil => cases h
  | cons e rest ih =>
    simp only [List.cons_append, labelIndex] at h ⊢
    split at h
    · rwa [if_pos ‹_›]
    · rw [if_neg ‹_›, ih h]

/-- A new name appended to a table is found at the index it is bound to. -/
theorem labelIndex_append_new {labels : LabelTable} {name : Token} (t : Nat)
    (h : labelIndex labels name = none) : labelIndex (labels ++ [(name, t)]) name = some t := by
  induction labels with
  | nil => simp [labelIndex]
  | cons e rest ih =>
    simp only [List.cons_append, labelIndex] at h ⊢
    split at h
    · cases h
    · rw [if_neg ‹_›, ih h]

/-! ### The text of a label line -/

theorem isIdentChar_of_mem {name : Token} (h : isIdentifier name = true) {c : Char} (hc : c ∈ name) :
    isIdentChar c = true := by
  cases name with
  | nil => cases hc
  | cons d ds =>
    obtain ⟨hd, hds⟩ : isLetter d = true ∧ ds.all isIdentChar = true := by
      simpa [isIdentifier] using h
    obtain rfl | hc := List.mem_cons.1 hc
    · simp [isIdentChar, hd]
    · exact List.all_eq_true.1 hds c hc

/-- Whitespace cannot stand in an identifier (R60, R61). -/
theorem isSpace_of_isIdentChar {c : Char} (h : isIdentChar c = true) : isSpace c = false := by
  simp [isIdentChar, isLetter, isDecDigit, isSpace] at h ⊢
  omega

theorem stripComment_eq_self {text : Token} (h : ';' ∉ text) : stripComment text = text := by
  rw [stripComment, List.takeWhile_eq_self_iff]
  intro c hc
  simpa using ne_of_mem_of_not_mem hc h

theorem dropWhile_isSpace_eq_self {text : Token} (h : ∀ c ∈ text, isSpace c = false) :
    text.dropWhile isSpace = text :=
  List.dropWhile_eq_self_iff.2 fun hl => by simp [h _ (List.getElem_mem hl)]

theorem trim_eq_self {text : Token} (h : ∀ c ∈ text, isSpace c = false) : trim text = text := by
  rw [trim, dropWhile_isSpace_eq_self h, dropWhile_isSpace_eq_self (by simpa using h),
    List.reverse_reverse]

/-- The line `name:` is a label line, and no part of it is a comment or surrounding whitespace. -/
theorem assembleLine_label {name : Token} (h : isIdentifier name = true) (line : Nat) (p : Program) :
    assembleLine line p (name ++ [':']) = defineLabel line p name := by
  have hcomment : ';' ∉ name ++ [':'] := by
    have hname : ';' ∉ name := fun hc => absurd (isIdentChar_of_mem h hc) (by decide)
    simpa using hname
  have hspace : ∀ c ∈ name ++ [':'], isSpace c = false := by
    intro c hc
    obtain hc | hc := List.mem_append.1 hc
    · exact isSpace_of_isIdentChar (isIdentChar_of_mem h hc)
    · obtain rfl := List.mem_singleton.1 hc
      decide
  simp [assembleLine, stripComment_eq_self hcomment, trim_eq_self hspace]

/-- A label line that assembles binds a new name to the number of slots so far (R62). -/
theorem defineLabel_eq_ok {line : Nat} {p q : Program} {name : Token}
    (h : defineLabel line p name = .ok q) :
    labelIndex p.labels name = none ∧
      q = { p with labels := p.labels ++ [(name, p.slots.length)] } := by
  simp only [defineLabel] at h
  split at h
  · cases h
  · split at h
    · cases h
    · cases h
      exact ⟨by simpa using ‹¬(labelIndex p.labels name).isSome = true›, rfl⟩

/-! ### A text line by line -/

theorem assembleFrom_cons_eq_ok {line : Nat} {p r : Program} {text : Token} {rest : List Token} :
    assembleFrom line p (text :: rest) = .ok r ↔
      ∃ q, assembleLine line p text = .ok q ∧ assembleFrom (line + 1) q rest = .ok r := by
  rw [assembleFrom]
  cases assembleLine line p text <;> simp

theorem assembleFrom_append_eq_ok {line : Nat} {p r : Program} {a b : List Token} :
    assembleFrom line p (a ++ b) = .ok r ↔
      ∃ q, assembleFrom line p a = .ok q ∧ assembleFrom (line + a.length) q b = .ok r := by
  rw [assembleFrom_append]
  cases assembleFrom line p a <;> simp

/-- A line keeps every slot and every label before it. -/
theorem assembleLine_prefix {line : Nat} {p q : Program} {text : Token}
    (h : assembleLine line p text = .ok q) : p.slots <+: q.slots ∧ p.labels <+: q.labels := by
  obtain rfl | ⟨name, -, -, rfl⟩ | ⟨slot, rfl⟩ := assembleLine_cases h
  · exact ⟨List.prefix_rfl, List.prefix_rfl⟩
  · exact ⟨List.prefix_rfl, List.prefix_append _ _⟩
  · exact ⟨List.prefix_append _ _, List.prefix_rfl⟩

/-- The lines of a text keep every slot and every label before them. -/
theorem assembleFrom_prefix {lines : List Token} {line : Nat} {p r : Program}
    (h : assembleFrom line p lines = .ok r) : p.slots <+: r.slots ∧ p.labels <+: r.labels := by
  induction lines generalizing line p with
  | nil =>
    cases h
    exact ⟨List.prefix_rfl, List.prefix_rfl⟩
  | cons text rest ih =>
    obtain ⟨q, hline, hrest⟩ := assembleFrom_cons_eq_ok.1 h
    obtain ⟨hslots, hlabels⟩ := assembleLine_prefix hline
    obtain ⟨hslots', hlabels'⟩ := ih hrest
    exact ⟨hslots.trans hslots', hlabels.trans hlabels'⟩

/-- A text with the line `name:` in it assembles in three parts: the lines before it, the label
itself, whose name is new, and the lines after it. -/
theorem assemble_label_split {before after : List Token} {name : Token} {p : Program}
    (hname : isIdentifier name = true)
    (h : assemble (before ++ (name ++ [':']) :: after) = .ok p) :
    ∃ q r line, assemble before = .ok q ∧ labelIndex q.labels name = none ∧
      r = { q with labels := q.labels ++ [(name, q.slots.length)] } ∧
      assemble (before ++ [name ++ [':']]) = .ok r ∧ assembleFrom line r after = .ok p := by
  obtain ⟨q, hq, hlines⟩ := assembleFrom_append_eq_ok.1 h
  obtain ⟨r, hlabel, hafter⟩ := assembleFrom_cons_eq_ok.1 hlines
  obtain ⟨hnew, hr⟩ := defineLabel_eq_ok (assembleLine_label hname _ q ▸ hlabel)
  have hupto : assemble (before ++ [name ++ [':']]) = .ok r :=
    assembleFrom_append_eq_ok.2 ⟨q, hq, assembleFrom_cons_eq_ok.2 ⟨r, hlabel, rfl⟩⟩
  exact ⟨q, r, _, hq, hnew, hr, hupto, hafter⟩

end Sys2Proof

namespace Sys2Proof.Machine

/-- With the pc at `N` and no fault the engine is Halted (R86). -/
theorem status_of_pc_eq_length {s : State} (hf : s.fault = none) (hpc : s.pc = s.slots.length) :
    status s = .halted := by
  simp [status, hf, hpc]

/-- Settles O30: the text assembles in three parts, and the lines after the label keep its binding. -/
theorem labelsBindTheNextInstruction : Obligations.LabelsBindTheNextInstruction := by
  refine ⟨fun before after name p hname h => ?_, fun s t hf h => ?_⟩
  · obtain ⟨q, r, line, hq, hnew, rfl, hr, hrest⟩ := assemble_label_split hname h
    obtain ⟨hslots, hlabels⟩ := assembleFrom_prefix hrest
    have hindex := labelIndex_of_prefix hlabels (labelIndex_append_new q.slots.length hnew)
    exact ⟨q, hq, hr, hindex, hslots.length_le, fun hlast => by rw [hlast, hindex]⟩
  · have hj : execJ s.slots.length s = .next t := h
    cases hj
    exact status_of_pc_eq_length hf rfl

end Sys2Proof.Machine
end

section
/-! SUPPORT. Retiring after a write of one vector register: what it keeps, and what lane gating
(10_state.md R23) puts in the register's lanes. -/

namespace Sys2Proof.Machine

/-! ### Retiring a vector register write -/

/-- What an instruction that writes vector register `d` alone keeps. -/
theorem retire_writeV_frame (d : VReg) (v : VecReg) {s t : State}
    (ht : t = retire none (writeV d v s)) :
    ScalarsKept s t ∧ OtherVectorsKept d s t ∧ MemoryKept s t ∧ t.vl = s.vl ∧
      t.memAccesses = s.memAccesses := by
  subst ht
  have hother : OtherVectorsKept d s (retire none (writeV d v s)) := fun e he k _ =>
    (readLane_writeV s d e v k).trans (if_neg he)
  exact ⟨fun r => readX_retire none _ r, hother, fun _ => rfl, rfl, rfl⟩

theorem retire_writeV_retiredNext (d : VReg) (v : VecReg) (s : State) :
    RetiredNext s (retire none (writeV d v s)) :=
  retired_of none rfl rfl rfl ⟨rfl, rfl, rfl, rfl, rfl⟩

theorem readLane_retire_writeV_same (target : Option Nat) (d : VReg) (v : VecReg) (s : State)
    (k : Nat) : readLane (retire target (writeV d v s)) d k = v.lane k :=
  (readLane_writeV s d d v k).trans (if_pos rfl)

/-! ### Retiring a lane-gated write -/

theorem lane_gated_of_lt {n k : Nat} (old : VecReg) (f : Nat → Word) (hk : k < n)
    (hlane : k < Config.VLEN) : (VecReg.gated n old f).lane k = f k := by
  rw [lane_gated, if_pos hlane, if_pos hk]

theorem lane_gated_of_le {n k : Nat} (old : VecReg) (f : Nat → Word) (hk : n ≤ k)
    (hlane : k < Config.VLEN) : (VecReg.gated n old f).lane k = old.lane k := by
  rw [lane_gated, if_pos hlane, if_neg (Nat.not_lt.2 hk)]

/-- What an instruction does that writes `f` to the lanes `[0, vl)` of `d` and nothing else. -/
theorem retire_writeV_gated (d : VReg) (f : Nat → Word) {s t : State}
    (ht : t = retire none (writeV d ((readV s d).gated s.vl f) s)) :
    RetiredNext s t ∧
    (∀ k, k < s.vl → k < Config.VLEN → readLane t d k = f k) ∧
    (∀ k, s.vl ≤ k → k < Config.VLEN → readLane t d k = readLane s d k) ∧
    ScalarsKept s t ∧ OtherVectorsKept d s t ∧ MemoryKept s t ∧ t.vl = s.vl ∧
    t.memAccesses = s.memAccesses := by
  refine ⟨?_, fun k hk hlane => ?_, fun k hk hlane => ?_, retire_writeV_frame d _ ht⟩
  · rw [ht]
    exact retire_writeV_retiredNext d _ s
  · rw [ht, readLane_retire_writeV_same, lane_gated_of_lt _ f hk hlane]
  · rw [ht, readLane_retire_writeV_same, lane_gated_of_le _ f hk hlane, readLane]

/-! ### The lane-gated moves -/

/-- Settles O48: a lane-gated write of the one word `x[rs]` (R101). -/
theorem broadcastResult : Obligations.BroadcastResult := fun vd rs s =>
  ⟨_, rfl, retire_writeV_gated vd (fun _ => readX s rs) rfl⟩

/-- Settles O49: a lane-gated write of the lanes `vs` has before it, so `vd` may be `vs` (R102). -/
theorem vectorCopyResult : Obligations.VectorCopyResult := fun vd vs s =>
  ⟨_, rfl, retire_writeV_gated vd (fun k => readLane s vs k) rfl⟩

end Sys2Proof.Machine
end

section
/-! SUPPORT. The sparse encoder (70_reset_and_hazards.md R133, R134): the closed form of the scan, and
what one row's entries say of the row. -/

namespace Sys2Proof.Machine

/-! ### The entries of one row -/

theorem rowEntries_snd (j : Nat) (row : List Int) :
    (rowEntries j row).map Prod.snd = row.filter fun v => decide (v ≠ 0) := by
  induction row generalizing j with
  | nil => rfl
  | cons v vs ih =>
    by_cases hv : v = 0 <;> simpa [rowEntries, hv] using ih (j + 1)

theorem rowEntries_length (j : Nat) (row : List Int) :
    (rowEntries j row).length = (row.filter fun v => decide (v ≠ 0)).length := by
  rw [← rowEntries_snd j row, List.length_map]

theorem rowEntries_fst (j : Nat) (row : List Int) :
    (rowEntries j row).map Prod.fst =
      ((List.range row.length).filter fun k => decide (row[k]? ≠ some 0)).map (· + j) := by
  induction row generalizing j with
  | nil => rfl
  | cons v vs ih =>
    have htail : (rowEntries (j + 1) vs).map Prod.fst =
        (((List.range vs.length).map Nat.succ).filter
          fun k => decide ((v :: vs)[k]? ≠ some 0)).map (· + j) := by
      simp [ih (j + 1), List.filter_map, Function.comp_def, Nat.add_assoc, Nat.add_comm 1]
    rw [List.length_cons, List.range_succ_eq_map]
    by_cases hv : v = 0 <;> simpa [rowEntries, hv] using htail

/-- A row's entries lie at or right of the column it starts at. -/
theorem le_of_mem_rowEntries {j : Nat} {row : List Int} {e : Nat × Int}
    (he : e ∈ rowEntries j row) : j ≤ e.1 := by
  have hfst : e.1 ∈ (rowEntries j row).map Prod.fst := List.mem_map_of_mem he
  rw [rowEntries_fst] at hfst
  obtain ⟨k, -, hk⟩ := List.mem_map.1 hfst
  exact hk ▸ Nat.le_add_left j k

theorem entryAt_cons (e : Nat × Int) (es : List (Nat × Int)) (j : Nat) :
    entryAt (e :: es) j = if e.1 = j then e.2 else entryAt es j := by
  by_cases h : e.1 = j <;> simp [entryAt, h]

/-- Columns left of every entry hold zero. -/
theorem entryAt_eq_zero {es : List (Nat × Int)} {j : Nat} (h : ∀ e ∈ es, e.1 ≠ j) :
    entryAt es j = 0 := by
  have hnone : es.find? (fun e => decide (e.1 = j)) = none := by simpa using h
  rw [entryAt, hnone]

/-- A row's entries give back the row, zeros elsewhere (R134). -/
theorem entryAt_rowEntries (j k : Nat) (row : List Int) :
    entryAt (rowEntries j row) (j + k) = row.getD k 0 := by
  induction row generalizing j k with
  | nil => rfl
  | cons v vs ih =>
    cases k with
    | zero =>
      have hzero : entryAt (rowEntries (j + 1) vs) j = 0 :=
        entryAt_eq_zero fun e he => Nat.ne_of_gt (le_of_mem_rowEntries he)
      by_cases hv : v = 0
      · simpa [rowEntries, hv] using hzero
      · simp [rowEntries, hv, entryAt_cons]
    | succ k =>
      have htail : entryAt (rowEntries (j + 1) vs) (j + (k + 1)) = vs.getD k 0 := by
        rw [← ih (j + 1) k, Nat.add_right_comm, Nat.add_assoc]
      by_cases hv : v = 0
      · simpa [rowEntries, hv] using htail
      · simpa [rowEntries, hv, entryAt_cons] using htail

/-! ### The closed form of the scan -/

/-- The columns and values of the non-zero entries of all rows, row by row. -/
def scanEntries (rows : List (List Int)) : List (Nat × Int) := rows.flatMap (rowEntries 0)

theorem scanEntries_append (a b : List (List Int)) :
    scanEntries (a ++ b) = scanEntries a ++ scanEntries b := List.flatMap_append

@[simp] theorem scanEntries_singleton (row : List Int) : scanEntries [row] = rowEntries 0 row :=
  List.flatMap_singleton _ _

theorem scanEntries_snd (rows : List (List Int)) :
    (scanEntries rows).map Prod.snd = rows.flatten.filter fun v => decide (v ≠ 0) := by
  rw [scanEntries, List.map_flatMap, List.filter_flatten, List.flatMap_def]
  simp only [rowEntries_snd]

theorem DenseMatrix.length_of_mem {m : DenseMatrix} (hm : m.rectangular = true) {row : List Int}
    (hrow : row ∈ m.rows) : row.length = m.cols := by
  simpa using List.all_eq_true.1 hm row hrow

theorem scanEntries_fst {m : DenseMatrix} (hm : m.rectangular = true) :
    (scanEntries m.rows).map Prod.fst = m.rows.flatMap fun row =>
      (List.range m.cols).filter fun j => decide (row[j]? ≠ some 0) := by
  rw [scanEntries, List.map_flatMap]
  refine List.flatMap_congr fun row hrow => ?_
  rw [rowEntries_fst, DenseMatrix.length_of_mem hm hrow]
  exact List.map_id _

/-- Where row `i` starts in the scan: the number of entries of the rows before it. -/
def rowStart (rows : List (List Int)) (i : Nat) : Nat := (scanEntries (rows.take i)).length

@[simp] theorem rowStart_zero (rows : List (List Int)) : rowStart rows 0 = 0 := rfl

theorem rowStart_length (rows : List (List Int)) :
    rowStart rows rows.length = (scanEntries rows).length := by
  rw [rowStart, List.take_length]

theorem rowStart_append {rows : List (List Int)} (more : List (List Int)) {i : Nat}
    (hi : i ≤ rows.length) : rowStart (rows ++ more) i = rowStart rows i := by
  rw [rowStart, List.take_append_of_le_length hi, rowStart]

/-- The scan in closed form: the row pointers are the rows' starts and, after them, the number of
entries; the two parallel arrays are the entries' columns and values (R133). -/
theorem csrEncode_eq (m : DenseMatrix) :
    csrEncode m = ⟨(List.range (m.rows.length + 1)).map (rowStart m.rows),
      (scanEntries m.rows).map Prod.fst, (scanEntries m.rows).map Prod.snd⟩ := by
  obtain ⟨cols, rows⟩ := m
  induction rows using List.reverseRecOn with
  | nil => rfl
  | append_singleton rows row ih =>
    have hstep : csrEncode ⟨cols, rows ++ [row]⟩ = csrAppendRow (csrEncode ⟨cols, rows⟩) row :=
      List.foldl_append
    have hstarts : (List.range (rows.length + 1)).map (rowStart (rows ++ [row])) =
        (List.range (rows.length + 1)).map (rowStart rows) :=
      List.map_congr_left fun i hi => rowStart_append _ (Nat.le_of_lt_succ (List.mem_range.1 hi))
    have hend : rowStart (rows ++ [row]) (rows.length + 1) =
        (scanEntries rows).length + (rowEntries 0 row).length := by
      simpa [scanEntries_append] using rowStart_length (rows ++ [row])
    rw [hstep, ih, csrAppendRow, List.length_append, List.length_singleton,
      List.range_succ (n := rows.length + 1), List.map_append, hstarts]
    simp [hend, scanEntries_append]

/-! ### One row of the encoding -/

section Row
variable {m : DenseMatrix} {i : Nat} {row : List Int}

theorem rowPtr_getElem? (hi : i ≤ m.rows.length) :
    (csrEncode m).rowPtr[i]? = some (rowStart m.rows i) := by
  simp [csrEncode_eq, Nat.lt_succ_of_le hi]

theorem scanEntries_take_succ (hrow : m.rows[i]? = some row) :
    scanEntries (m.rows.take (i + 1)) = scanEntries (m.rows.take i) ++ rowEntries 0 row := by
  rw [List.take_add_one, hrow, scanEntries_append, Option.toList_some, scanEntries_singleton]

theorem rowStart_succ (hrow : m.rows[i]? = some row) :
    rowStart m.rows (i + 1) =
      rowStart m.rows i + (row.filter fun v => decide (v ≠ 0)).length := by
  rw [rowStart, scanEntries_take_succ hrow, List.length_append, rowEntries_length, rowStart]

theorem scanEntries_take_rowStart (rows : List (List Int)) (i : Nat) :
    (scanEntries rows).take (rowStart rows i) = scanEntries (rows.take i) := by
  have hsplit : scanEntries rows = scanEntries (rows.take i) ++ scanEntries (rows.drop i) := by
    rw [← scanEntries_append, List.take_append_drop]
  rw [hsplit, rowStart, List.take_left]

/-- Between its pointer and the next the encoding holds a row's entries. -/
theorem scanEntries_slice (hrow : m.rows[i]? = some row) :
    ((scanEntries m.rows).take (rowStart m.rows (i + 1))).drop (rowStart m.rows i) =
      rowEntries 0 row := by
  rw [scanEntries_take_rowStart, scanEntries_take_succ hrow, rowStart, List.drop_left]

theorem csrRow_csrEncode (hm : m.rectangular = true) (hrow : m.rows[i]? = some row) :
    csrRow m.cols (csrEncode m) i = row := by
  have hi : i < m.rows.length := (List.getElem?_eq_some_iff.1 hrow).1
  have hlen : row.length = m.cols := DenseMatrix.length_of_mem hm (List.mem_of_getElem? hrow)
  have hzip : (csrEncode m).colIdx.zip (csrEncode m).values = scanEntries m.rows := by
    rw [csrEncode_eq]
    exact (List.zip_of_prod rfl rfl).symm
  have hentry (j : Nat) : entryAt (rowEntries 0 row) j = row.getD j 0 := by
    simpa using entryAt_rowEntries 0 j row
  rw [csrRow, hzip, List.getD_eq_getElem?_getD, List.getD_eq_getElem?_getD,
    rowPtr_getElem? (Nat.le_of_lt hi), rowPtr_getElem? hi, Option.getD_some, Option.getD_some,
    scanEntries_slice hrow]
  refine List.ext_getElem (by simp [hlen]) fun j hj hj' => ?_
  simp [hentry, hj']

end Row

/-- The encoding reconstructs the matrix (R134). -/
theorem csrReconstruct_csrEncode {m : DenseMatrix} (hm : m.rectangular = true) :
    csrReconstruct m.cols (csrEncode m) = m := by
  have hlen : (csrEncode m).rowPtr.length = m.rows.length + 1 := by simp [csrEncode_eq]
  have hrows : (List.range m.rows.length).map (csrRow m.cols (csrEncode m)) = m.rows :=
    List.ext_getElem (by simp) fun i hi hi' => by
      simpa using csrRow_csrEncode hm (List.getElem?_eq_getElem hi')
  rw [csrReconstruct, hlen, Nat.add_sub_cancel, hrows]

/-- Settles O55, from the closed form of the scan and the slice it gives each row. -/
theorem sparseEncoderIsFaithful : Obligations.SparseEncoderIsFaithful := by
  refine ⟨by decide, fun m hm => ⟨csrReconstruct_csrEncode hm, ?_, ?_, fun i row hrow => ?_, ?_,
    ?_, ?_, ?_⟩⟩
  · simp [csrEncode_eq]
  · exact rowPtr_getElem? (Nat.zero_le _)
  · have hi : i < m.rows.length := (List.getElem?_eq_some_iff.1 hrow).1
    exact ⟨_, _, rowPtr_getElem? (Nat.le_of_lt hi), rowPtr_getElem? hi, rowStart_succ hrow⟩
  · simp [csrEncode_eq, List.range_succ, rowStart_length]
  · simp [csrEncode_eq]
  · rw [csrEncode_eq, scanEntries_snd]
  · rw [csrEncode_eq, scanEntries_fst hm]

end Sys2Proof.Machine
end

section
/-! SUPPORT. What decode yields is well-formed (30_encoding.md R74, 41_control.md R90): the
immediates and targets read off a checked slot. -/

namespace Sys2Proof

/-! ### Words of literals -/

theorem uval_wordOf {n : Nat} (h : n ≤ Config.IMM_MAX) : uval (wordOf n) = n := by
  have hlt : n < 2 ^ Config.XLEN := Nat.lt_of_le_of_lt h (by decide)
  rw [uval, wordOf, BitVec.ofInt_natCast, BitVec.toNat_ofNat, Nat.mod_eq_of_lt hlt]

theorem wordOf_uval (w : Word) : wordOf (uval w) = w := by
  rw [uval, wordOf, BitVec.ofInt_natCast, BitVec.ofNat_toNat, BitVec.setWidth_eq]

/-- A literal in range is a well-formed immediate (R74). -/
theorem immediateWf_wordOf {n : Nat} (h : n ≤ Config.IMM_MAX) : immediateWf (wordOf n) = true := by
  simpa [immediateWf, uval_wordOf h] using h

/-! ### The operands of a checked slot -/

/-- An operand in an immediate slot is a literal in range. -/
theorem immediateArg_wf {ks : List Kind} {ops : List Operand} {j : Nat}
    (hk : kindFault 0 ks ops = none) (hj : ks[j]? = some .I) :
    immediateWf (immediateArg ops j) = true := by
  unfold immediateArg
  cases ho : ops[j]? with
  | none => rfl
  | some o =>
    obtain ⟨n, rfl, hn⟩ := kindFits_iff.1 (kindFault_eq_none.1 hk j .I o hj ho)
    exact immediateWf_wordOf hn

/-- A target is the index of a label, and so in `[0, N]` (R62, R75). -/
theorem targetArg_le {labels : LabelTable} {n : Nat} (hl : labelsWithin n labels = true)
    (ops : List Operand) (j : Nat) : targetArg labels ops j ≤ n := by
  unfold targetArg
  cases ops[j]? with
  | none => exact Nat.zero_le n
  | some o =>
    cases ht : labelIndex labels (operandName o) with
    | none => simp [ht]
    | some t => simpa [ht] using labelIndex_le hl ht

/-- Settles O29: only five opcodes carry an immediate or a target, and each reads it off an operand
the checks have passed. -/
theorem decodedInstructionsAreWellFormed : Obligations.DecodedInstructionsAreWellFormed := by
  intro labels slot n i hl h
  obtain ⟨op, -, -, hk, -, -, rfl⟩ := decode_eq_ok.1 h
  have htarget (j : Nat) : targetWf n (targetArg labels slot.operands j) = true :=
    decide_eq_true (targetArg_le hl _ _)
  cases op with
  | addi => exact immediateArg_wf hk rfl
  | vlw => exact immediateArg_wf hk rfl
  | vsw => exact immediateArg_wf hk rfl
  | j => exact htarget 0
  | beq => exact htarget 2
  | _ => rfl

end Sys2Proof
end

section
/-! SUPPORT. The step (41_control.md section 1): what it does in each run status, what every step
keeps, and runs of well-formed programs. -/

namespace Sys2Proof.Machine

/-! ### The step in each run status -/

section Step
variable {s t : State} {slot : Slot}

theorem step_of_faulted {r : FaultRecord} (hf : s.fault = some r) :
    step s = .fault (.faulted r) := by
  simp only [step, hf]

theorem step_of_halted (hf : s.fault = none) (hpc : s.slots.length ≤ s.pc) :
    step s = .fault .halted := by
  simp only [step, hf, fetch, List.getElem?_eq_none hpc]

theorem step_of_decode_error {c : FaultCause} (hf : s.fault = none)
    (hslot : s.slots[s.pc]? = some slot) (hd : decode s.labels slot = .error c) :
    step s = .next (takeFault c s) := by
  simp only [step, hf, fetch, hslot, hd]

theorem step_of_decode_ok {i : Instr} (hf : s.fault = none) (hslot : s.slots[s.pc]? = some slot)
    (hd : decode s.labels slot = .ok i) : step s = exec i s := by
  simp only [step, hf, fetch, hslot, hd]

/-- A Running engine takes a step: decode and execution both answer a next state. -/
theorem step_of_running (hf : s.fault = none) (hpc : s.pc < s.slots.length) :
    ∃ t, step s = .next t := by
  have hslot := List.getElem?_eq_getElem hpc
  cases hd : decode s.labels s.slots[s.pc] with
  | error c => exact ⟨_, step_of_decode_error hf hslot hd⟩
  | ok i => exact (exec_next i s).imp fun _ => (step_of_decode_ok hf hslot hd).trans

/-- Only a Running engine takes a step. -/
theorem running_of_step (h : step s = .next t) : s.fault = none ∧ s.pc < s.slots.length := by
  obtain ⟨hf, slot, hslot, -⟩ := step_cases h
  exact ⟨hf, (List.getElem?_eq_some_iff.1 hslot).1⟩

end Step

/-- Settles O1: the step goes straight to the execution. -/
theorem stepRunsDecodedInstruction : Obligations.StepRunsDecodedInstruction :=
  fun _ _ _ hf hslot hd => step_of_decode_ok hf hslot hd

/-- Settles O2: the fault decode raises enters as R120 says. -/
theorem decodeFaultIsTaken : Obligations.DecodeFaultIsTaken := fun s _ c hf hslot hd =>
  ⟨_, step_of_decode_error hf hslot hd, takeFault_faultTaken c s⟩

/-- Settles O3: the step in each of the three run statuses. -/
theorem stepAnswersExactlyWhenRunning : Obligations.StepAnswersExactlyWhenRunning := fun _ =>
  ⟨⟨fun ⟨_, h⟩ => running_of_step h, fun ⟨hf, hpc⟩ => step_of_running hf hpc⟩,
    step_of_halted, fun _ => step_of_faulted⟩

/-! ### What the writes of an instruction keep -/

namespace Effect
variable {s u : State}

theorem pc (h : Effect s u) : u.pc = s.pc := by cases h <;> simp

theorem cycles (h : Effect s u) : u.cycles = s.cycles := by cases h <;> simp

theorem fault (h : Effect s u) : u.fault = s.fault := by cases h <;> simp

theorem launch (h : Effect s u) : LaunchKept s u := by cases h <;> constructor <;> simp

theorem vl_le (h : Effect s u) (hs : s.vl ≤ Config.VLEN) : u.vl ≤ Config.VLEN := by
  cases h with
  | length n hn => exact hn
  | lengthCopy rd v n hn => simpa using hn
  | _ => simpa using hs

/-- Only a store writes memory, at cells that exist, so it stays canonical. -/
theorem mem_wf (h : Effect s u) (hs : s.mem.wf = true) : u.mem.wf = true := by
  cases h with
  | store ea ws hin =>
    exact memWrite_wf hs fun k hk => (inMemory_iff _).1 (hin k hk)
  | _ => simpa using hs

end Effect

/-- What a step can do: take a fault, or commit writes and retire at the next index or at a target
in `[0, N]`. -/
theorem step_faults_or_retires {s t : State} (h : step s = .next t) :
    (∃ c, t = takeFault c s) ∨
    ∃ target u, t = retire target u ∧ Effect s u ∧
      (labelsWithin s.slots.length s.labels = true → ∀ k, target = some k →
        k ≤ s.slots.length) := by
  obtain ⟨-, slot, -, ⟨c, -, rfl⟩ | ⟨i, hd, hx⟩⟩ := step_cases h
  · exact .inl ⟨c, rfl⟩
  · obtain ⟨c, -, rfl⟩ | ⟨target, u, rfl, hu, htarget⟩ := exec_cases hx
    · exact .inl ⟨c, rfl⟩
    · refine .inr ⟨target, u, rfl, hu, fun hl k hk => ?_⟩
      have hwf := decodedInstructionsAreWellFormed s.labels slot s.slots.length i hl hd
      obtain rfl | ⟨a, b, rfl⟩ := htarget k hk <;> exact of_decide_eq_true hwf

/-- Settles O7: neither fault entry nor an instruction's writes touch the launch. -/
theorem launchNeverChanges : Obligations.LaunchNeverChanges := by
  intro s t h
  obtain ⟨c, rfl⟩ | ⟨target, u, rfl, hu, -⟩ := step_faults_or_retires h
  · exact (takeFault_faultTaken c s).launch
  · obtain ⟨hslots, hlabels, hout, hcsr, hprogram⟩ := hu.launch
    exact ⟨hslots, hlabels, hout, hcsr, hprogram⟩

/-- Settles O4: a step starts without a fault record, so a record in the next state is its own. -/
theorem faultsArePrecise : Obligations.FaultsArePrecise := by
  intro s t r h hr
  obtain ⟨c, rfl⟩ | ⟨target, u, rfl, hu, -⟩ := step_faults_or_retires h
  · cases hr
    exact ⟨takeFault_faultTaken c s, rfl, rfl, step_of_faulted rfl⟩
  · rw [retire_fault, hu.fault, (running_of_step h).1] at hr
    cases hr

/-- Settles O16: fault entry writes the record alone; a retirement keeps each clause, the pc by the
range of decoded targets. -/
theorem stepKeepsInvariant : Obligations.StepKeepsInvariant := by
  intro s t hinv h
  obtain ⟨hf, hpc⟩ := running_of_step h
  obtain ⟨c, rfl⟩ | ⟨target, u, rfl, hu, htarget⟩ := step_faults_or_retires h
  · exact { hinv with fault := fun r hr => by cases hr; exact ⟨rfl, hpc⟩ }
  · have hslots := hu.launch.slots
    have hnext : target.getD (s.pc + 1) ≤ s.slots.length := by
      cases target with
      | none => exact hpc
      | some k => exact htarget hinv.labels k rfl
    exact {
      vl := hu.vl_le hinv.vl
      mem := hu.mem_wf hinv.mem
      zero := by simp
      pc := by simpa [hslots, hu.pc] using hnext
      labels := by simpa [hslots, hu.launch.labels] using hinv.labels
      fault := fun r hr => by simp [hu.fault, hf] at hr }

/-! ### Runs of well-formed programs -/

/-- In a `WF` program no slot raises a decode fault (R79). -/
theorem decode_ne_error {p : Program} (hwf : p.wf = true) {slot : Slot} (hslot : slot ∈ p.slots)
    (c : FaultCause) : decode p.labels slot ≠ .error c := by
  intro hd
  have hnone := List.all_eq_true.1 hwf slot hslot
  simp [decodeFault, hd] at hnone

/-- A step of a well-formed program records an execution fault, or none. -/
theorem step_fault_of_wf {s t : State} (hwf : s.program.wf = true) (h : step s = .next t)
    {r : FaultRecord} (hr : t.fault = some r) : isDecodeFault r.cause = false := by
  obtain ⟨hf, slot, hslot, ⟨c, hd, -⟩ | ⟨i, -, hx⟩⟩ := step_cases h
  · exact absurd hd (decode_ne_error hwf (List.mem_of_getElem? hslot) c)
  · obtain ⟨c, hc, rfl⟩ | ⟨target, u, rfl, hu, -⟩ := exec_cases hx
    · cases hr
      simp only [isDecodeFault, decide_eq_false_iff_not]
      omega
    · simp [hu.fault, hf] at hr

theorem step_program {s t : State} (h : step s = .next t) : t.program = s.program := by
  obtain ⟨hslots, hlabels, -, -, -⟩ := launchNeverChanges s t h
  simp only [State.program, hslots, hlabels]

theorem run_succ (n : Nat) (s : State) :
    (∃ t, step s = .next t ∧ run (n + 1) s = run n t) ∨ run (n + 1) s = s := by
  rw [run]
  cases step s with
  | next t => exact .inl ⟨t, rfl, rfl⟩
  | fault r => exact .inr rfl
  | refused r => exact .inr rfl

/-- A run that starts in the Faulted state stays there. -/
theorem run_of_faulted {s : State} {r : FaultRecord} (hf : s.fault = some r) (n : Nat) :
    run n s = s := by
  cases n with
  | zero => rfl
  | succ n => rw [run, step_of_faulted hf]

/-- Settles O19, by induction on the steps: the program stays the same, and a run that goes on has
recorded no fault yet. -/
theorem wellFormedRunsRaiseNoDecodeFault : Obligations.WellFormedRunsRaiseNoDecodeFault := by
  intro s n hwf hf
  induction n generalizing s with
  | zero => exact ⟨rfl, fun r hr => by simp [run, hf] at hr⟩
  | succ n ih =>
    obtain ⟨t, hstep, hrun⟩ | hrun := run_succ n s
    · rw [hrun, ← step_program hstep]
      cases ht : t.fault with
      | none => exact ih t (step_program hstep ▸ hwf) ht
      | some r =>
        rw [run_of_faulted ht]
        exact ⟨rfl, fun r' hr => step_fault_of_wf hwf hstep hr⟩
    · rw [hrun]
      exact ⟨rfl, fun r hr => by simp [hf] at hr⟩

end Sys2Proof.Machine
end

section
/-! SUPPORT. Decode of a slot with a known opcode token (30_encoding.md R71 to R77): which fault
each failing check raises, and what operands that spell an instruction decode to. -/

namespace Sys2Proof

open Sys2Proof.Machine (NamesRegister NeedsClass OperandOfKind)

/-! ### The fault of a failing check -/

theorem opcodeOf_eq_none {token : Token} (h : ∀ op : Opcode, op.token ≠ token) :
    opcodeOf token = none :=
  Option.eq_none_iff_forall_ne_some.2 fun op hop => h op (opcodeOf_eq_some.1 hop)

/-- The label check reports the name of an operand in a label slot. -/
theorem labelFault_eq_some {labels : LabelTable} {ks : List Kind} {os : List Operand}
    {f : FaultCause}
    (h : labelFault labels ks os = some f) :
    ∃ (i : Nat) (o : Operand), ks[i]? = some .L ∧ os[i]? = some o ∧
      f = .unknownLabel (operandName o) := by
  induction ks generalizing os with
  | nil => simp [labelFault] at h
  | cons k ks ih =>
    cases os with
    | nil => simp [labelFault] at h
    | cons o os =>
      simp only [labelFault] at h
      split at h
      · rename_i hk
        cases h
        exact ⟨0, o, by simp [hk.1], rfl, rfl⟩
      · obtain ⟨i, o', hi, ho', hf⟩ := ih h
        exact ⟨i + 1, o', by simpa using hi, by simpa using ho', hf⟩

/-- In every shape a label slot is the last one (R72). -/
theorem shape_label_last {op : Opcode} {j : Nat} (h : op.shape[j]? = some .L) :
    j + 1 = op.shape.length := by
  obtain _ | _ | _ | j := j <;> cases op <;> simp [Opcode.shape] at h ⊢

section Checks
variable {labels : LabelTable} {line : Nat} {op : Opcode} {ops : List Operand} {f : FaultCause}

theorem decode_of_operandFault (h : operandFault labels op ops = some f) :
    decode labels ⟨line, op.token, ops⟩ = .error f := by
  simp only [decode, opcodeOf_token, h]

theorem operandFault_of_count (h : ops.length ≠ op.shape.length) :
    operandFault labels op ops = some (.badOperands ops.length) := by
  simp only [operandFault, if_pos h]

theorem operandFault_of_kind (hlen : ops.length = op.shape.length)
    (h : kindFault 0 op.shape ops = some f) : operandFault labels op ops = some f := by
  simp only [operandFault, hlen, ne_eq, not_true_eq_false, if_false, h]

theorem operandFault_of_register (hlen : ops.length = op.shape.length)
    (hk : kindFault 0 op.shape ops = none) (h : registerFault 0 op.shape ops = some f) :
    operandFault labels op ops = some f := by
  simp only [operandFault, hlen, ne_eq, not_true_eq_false, if_false, hk, h]

theorem operandFault_of_label (hlen : ops.length = op.shape.length)
    (hk : kindFault 0 op.shape ops = none) (hr : registerFault 0 op.shape ops = none)
    (h : labelFault labels op.shape ops = some f) : operandFault labels op ops = some f := by
  simp only [operandFault, hlen, ne_eq, not_true_eq_false, if_false, hk, hr, h]

/-- The kind check names the first operand that is not of its slot's kind (R73). -/
theorem decode_badOperand {j : Nat} {k : Kind} {o : Operand} (hlen : ops.length = op.shape.length)
    (hk : op.shape[j]? = some k) (ho : ops[j]? = some o) (hbad : ¬ OperandOfKind k o)
    (hgood : ∀ (i : Nat) (k' : Kind) (o' : Operand),
      i < j → op.shape[i]? = some k' → ops[i]? = some o' → OperandOfKind k' o') :
    decode labels ⟨line, op.token, ops⟩ = .error (.badOperands j) := by
  have hfault := kindFault_eq_some (b := 0) hk ho (Bool.eq_false_iff.2 (mt kindFits_iff.1 hbad))
    fun i k' o' hi hk' ho' => kindFits_iff.2 (hgood i k' o' hi hk' ho')
  rw [Nat.zero_add] at hfault
  exact decode_of_operandFault (operandFault_of_kind hlen hfault)

/-- Register resolution names the first operand that names no register of its slot's class (R73). -/
theorem decode_unknownRegister {j : Nat} {k : Kind} {c : RegClass} {o : Operand}
    (hlen : ops.length = op.shape.length) (hkinds : kindFault 0 op.shape ops = none)
    (hk : op.shape[j]? = some k) (hc : NeedsClass k c) (ho : ops[j]? = some o)
    (hbad : ∀ r, ¬ NamesRegister c r o)
    (hgood : ∀ (i : Nat) (k' : Kind) (c' : RegClass) (o' : Operand),
      i < j → op.shape[i]? = some k' → NeedsClass k' c' → ops[i]? = some o' →
      ∃ r, NamesRegister c' r o') :
    decode labels ⟨line, op.token, ops⟩ = .error (.unknownRegister j (operandRef o)) := by
  have hfits : registerFits c o = false :=
    Bool.eq_false_iff.2 fun h => (registerFits_iff.1 h).elim hbad
  have hfault := registerFault_eq_some (b := 0) hk (regClass_iff.2 hc) ho hfits
    fun i k' c' o' hi hk' hc' ho' =>
      registerFits_iff.2 (hgood i k' c' o' hi hk' (regClass_iff.1 hc') ho')
  rw [Nat.zero_add] at hfault
  exact decode_of_operandFault (operandFault_of_register hlen hkinds hfault)

/-- Label resolution names the label, of which a shape has at most one (R75). -/
theorem decode_unknownLabel {j : Nat} {name : Token} (hlen : ops.length = op.shape.length)
    (hkinds : kindFault 0 op.shape ops = none) (hregs : registerFault 0 op.shape ops = none)
    (hk : op.shape[j]? = some .L) (ho : ops[j]? = some (.ident name))
    (hnew : labelIndex labels name = none) :
    decode labels ⟨line, op.token, ops⟩ = .error (.unknownLabel name) := by
  cases hl : labelFault labels op.shape ops with
  | none => exact absurd hnew (labelFault_eq_none.1 hl j _ hk ho)
  | some f =>
    obtain ⟨i, o', hi, ho', rfl⟩ := labelFault_eq_some hl
    obtain rfl : i = j := Nat.succ_injective
      ((shape_label_last hi).trans (shape_label_last hk).symm)
    obtain rfl : o' = .ident name := Option.some.inj (ho'.symm.trans ho)
    exact decode_of_operandFault (operandFault_of_label hlen hkinds hregs hl)

/-- A label operand of the right kind is a name, so the label check is a check of that name. -/
theorem labelFault_eq_none_of_names
    (hkind : ∀ (i : Nat) (k : Kind) (o : Operand),
      op.shape[i]? = some k → ops[i]? = some o → OperandOfKind k o)
    (h : ∀ (j : Nat) (name : Token), op.shape[j]? = some .L → ops[j]? = some (.ident name) →
      labelIndex labels name ≠ none) : labelFault labels op.shape ops = none :=
  labelFault_eq_none.2 fun i o hi ho => by
    obtain ⟨name, rfl⟩ := hkind i .L o hi ho
    exact h i name hi ho

end Checks

theorem buildInstr_opcode (labels : LabelTable) (ops : List Operand) (op : Opcode) :
    (buildInstr labels ops op).opcode = op := by
  cases op <;> rfl

/-- Settles O23: one lemma for each check of R73, in its order. -/
theorem decodeRaisesTheFirstFault : Obligations.DecodeRaisesTheFirstFault := by
  intro labels line token ops
  refine ⟨fun hunknown => by simp only [decode, opcodeOf_eq_none hunknown], ?_⟩
  rintro op rfl
  refine ⟨fun hcount => decode_of_operandFault (operandFault_of_count hcount), fun hlen =>
    ⟨fun j k o hk ho hbad hgood => decode_badOperand hlen hk ho hbad hgood, fun hkind => ?_⟩⟩
  have hkinds : kindFault 0 op.shape ops = none :=
    kindFault_eq_none.2 fun i k o hk ho => kindFits_iff.2 (hkind i k o hk ho)
  refine ⟨fun j k c o hk hc ho hbad hgood => ?_, fun hreg => ?_⟩
  · have hdecode := decode_unknownRegister (labels := labels) (line := line) hlen hkinds hk hc ho
      hbad hgood
    refine ⟨fun name hname => ?_, fun d r hbase => ?_⟩
    · rw [hdecode, hname]
      rfl
    · rw [hdecode, hbase]
      rfl
  · have hregs : registerFault 0 op.shape ops = none :=
      registerFault_eq_none.2 fun i k c o hk hc ho =>
        registerFits_iff.2 (hreg i k c o hk (regClass_iff.1 hc) ho)
    refine ⟨fun j name hk ho hnew => decode_unknownLabel hlen hkinds hregs hk ho hnew,
      fun hbound => ?_⟩
    have hlabels := labelFault_eq_none_of_names hkind hbound
    exact ⟨_, decode_eq_ok.2 ⟨op, opcodeOf_token op, hlen, hkinds, hregs, hlabels, rfl⟩,
      buildInstr_opcode labels ops op⟩

/-! ### Operands that spell an instruction -/

/-- What one operand of an instruction stands for. -/
inductive ArgValue where
  | x (r : XReg)
  | v (r : VReg)
  | imm (w : Word)
  | target (t : Nat)

/-- The kind of slot that takes an argument. -/
def ArgValue.kind : ArgValue → Kind
  | .x _ => .X
  | .v _ => .V
  | .imm _ => .I
  | .target _ => .L

/-- The arguments of an instruction, in the order of its opcode's shape (R72). -/
def Instr.args : Instr → List ArgValue
  | .addi rd rs imm => [.x rd, .x rs, .imm imm]
  | .add rd rs1 rs2 => [.x rd, .x rs1, .x rs2]
  | .sub rd rs1 rs2 => [.x rd, .x rs1, .x rs2]
  | .mul rd rs1 rs2 => [.x rd, .x rs1, .x rs2]
  | .j t => [.target t]
  | .beq rs1 rs2 t => [.x rs1, .x rs2, .target t]
  | .vconfig => []
  | .vsetvl rd rs => [.x rd, .x rs]
  | .vlw vd offset base => [.v vd, .imm offset, .x base]
  | .vsw vs offset base => [.v vs, .imm offset, .x base]
  | .vmvXS rd vs => [.x rd, .v vs]
  | .vmvSX vd rs => [.v vd, .x rs]
  | .vmvVX vd rs => [.v vd, .x rs]
  | .vmvVV vd vs => [.v vd, .v vs]
  | .vaddVV vd vs1 vs2 => [.v vd, .v vs1, .v vs2]
  | .vmulVX vd vs rs => [.v vd, .v vs, .x rs]
  | .vslideupVX vd vs rs => [.v vd, .v vs, .x rs]
  | .vslidedownVX vd vs rs => [.v vd, .v vs, .x rs]
  | .vindexmv vd vs vidx => [.v vd, .v vs, .v vidx]

theorem args_map_kind (i : Instr) : i.args.map ArgValue.kind = i.opcode.shape := by
  cases i <;> rfl

/-- An operand that spells an argument: a register of the class, a literal in range, a bound label
(R73 to R75). -/
def Spells (labels : LabelTable) : ArgValue → Operand → Prop
  | .x r, o => NamesRegister .X r o
  | .v r, o => NamesRegister .V r o
  | .imm w, o => ∃ n : Nat, o = .imm n ∧ n ≤ Config.IMM_MAX ∧ w = wordOf n
  | .target t, o => ∃ name, o = .ident name ∧ labelIndex labels name = some t

/-- Operands that spell arguments, one for one. -/
abbrev SpellsAll (labels : LabelTable) : List ArgValue → List Operand → Prop :=
  List.Forall₂ (Spells labels)

/-- The check of one operand against the slot its argument needs. -/
theorem Spells.passes {labels : LabelTable} {a : ArgValue} {o : Operand} (h : Spells labels a o) :
    kindFits a.kind o = true ∧ (∀ c, a.kind.regClass = some c → registerFits c o = true) ∧
      (a.kind = .L → labelIndex labels (operandName o) ≠ none) := by
  cases a with
  | x r =>
    exact ⟨kindFits_of_namesRegister (k := .X) rfl h,
      fun c hc => registerFits_iff.2 ⟨r, by cases hc; exact h⟩, fun hl => by cases hl⟩
  | v r =>
    exact ⟨kindFits_of_namesRegister (k := .V) rfl h,
      fun c hc => registerFits_iff.2 ⟨r, by cases hc; exact h⟩, fun hl => by cases hl⟩
  | imm w =>
    obtain ⟨n, rfl, hn, -⟩ := h
    exact ⟨decide_eq_true hn, (fun c hc => by cases hc), fun hl => by cases hl⟩
  | target t =>
    obtain ⟨name, rfl, hname⟩ := h
    exact ⟨rfl, (fun c hc => by cases hc), fun _ => by simp [operandName, hname]⟩

namespace SpellsAll
variable {labels : LabelTable} {as : List ArgValue} {ops : List Operand}

theorem kindFault_eq_none (h : SpellsAll labels as ops) (j : Nat) :
    kindFault j (as.map ArgValue.kind) ops = none := by
  induction h generalizing j with
  | nil => rfl
  | cons ha _ ih => simp only [List.map_cons, kindFault, ha.passes.1, if_true, ih]

theorem registerFault_eq_none (h : SpellsAll labels as ops) (j : Nat) :
    registerFault j (as.map ArgValue.kind) ops = none := by
  induction h generalizing j with
  | nil => rfl
  | cons ha _ ih =>
    obtain ⟨-, hreg, -⟩ := ha.passes
    simp only [List.map_cons, registerFault]
    split
    · exact ih _
    · rename_i c hc
      rw [if_pos (hreg c hc), ih]

theorem labelFault_eq_none (h : SpellsAll labels as ops) :
    labelFault labels (as.map ArgValue.kind) ops = none := by
  induction h with
  | nil => rfl
  | cons ha _ ih =>
    obtain ⟨-, -, hlabel⟩ := ha.passes
    rw [List.map_cons, labelFault, if_neg fun hl => hlabel hl.1 hl.2, ih]

theorem getElem? {j : Nat} {a : ArgValue} (h : SpellsAll labels as ops) (hj : as[j]? = some a) :
    ∃ o, ops[j]? = some o ∧ Spells labels a o := by
  induction h generalizing j with
  | nil => cases hj
  | cons ha _ ih =>
    cases j with
    | zero => cases hj; exact ⟨_, rfl, ha⟩
    | succ j => simpa using ih (by simpa using hj)

theorem xArg {j : Nat} {r : XReg} (h : SpellsAll labels as ops) (hj : as[j]? = some (.x r)) :
    registerArg ops j = r := by
  obtain ⟨o, ho, hr⟩ := h.getElem? hj
  simp only [registerArg, ho, namesRegister_iff.1 hr]

theorem vArg {j : Nat} {r : VReg} (h : SpellsAll labels as ops) (hj : as[j]? = some (.v r)) :
    registerArg ops j = r := by
  obtain ⟨o, ho, hr⟩ := h.getElem? hj
  simp only [registerArg, ho, namesRegister_iff.1 hr]

theorem immArg {j : Nat} {w : Word} (h : SpellsAll labels as ops) (hj : as[j]? = some (.imm w)) :
    immediateArg ops j = w := by
  obtain ⟨o, ho, n, rfl, -, rfl⟩ := h.getElem? hj
  simp only [immediateArg, ho]

theorem labelArg {j t : Nat} (h : SpellsAll labels as ops) (hj : as[j]? = some (.target t)) :
    targetArg labels ops j = t := by
  obtain ⟨o, ho, name, rfl, hname⟩ := h.getElem? hj
  simp only [targetArg, ho, operandName, hname]

/-- Operands that spell an instruction's arguments are read as that instruction. -/
theorem buildInstr_eq {i : Instr} (h : SpellsAll labels i.args ops) :
    buildInstr labels ops i.opcode = i := by
  cases i with
  | addi rd rs imm => exact congr(Instr.addi $(h.xArg rfl) $(h.xArg rfl) $(h.immArg rfl))
  | add rd rs1 rs2 => exact congr(Instr.add $(h.xArg rfl) $(h.xArg rfl) $(h.xArg rfl))
  | sub rd rs1 rs2 => exact congr(Instr.sub $(h.xArg rfl) $(h.xArg rfl) $(h.xArg rfl))
  | mul rd rs1 rs2 => exact congr(Instr.mul $(h.xArg rfl) $(h.xArg rfl) $(h.xArg rfl))
  | j t => exact congr(Instr.j $(h.labelArg rfl))
  | beq rs1 rs2 t => exact congr(Instr.beq $(h.xArg rfl) $(h.xArg rfl) $(h.labelArg rfl))
  | vconfig => rfl
  | vsetvl rd rs => exact congr(Instr.vsetvl $(h.xArg rfl) $(h.xArg rfl))
  | vlw vd offset base => exact congr(Instr.vlw $(h.vArg rfl) $(h.immArg rfl) $(h.xArg rfl))
  | vsw vs offset base => exact congr(Instr.vsw $(h.vArg rfl) $(h.immArg rfl) $(h.xArg rfl))
  | vmvXS rd vs => exact congr(Instr.vmvXS $(h.xArg rfl) $(h.vArg rfl))
  | vmvSX vd rs => exact congr(Instr.vmvSX $(h.vArg rfl) $(h.xArg rfl))
  | vmvVX vd rs => exact congr(Instr.vmvVX $(h.vArg rfl) $(h.xArg rfl))
  | vmvVV vd vs => exact congr(Instr.vmvVV $(h.vArg rfl) $(h.vArg rfl))
  | vaddVV vd vs1 vs2 => exact congr(Instr.vaddVV $(h.vArg rfl) $(h.vArg rfl) $(h.vArg rfl))
  | vmulVX vd vs rs => exact congr(Instr.vmulVX $(h.vArg rfl) $(h.vArg rfl) $(h.xArg rfl))
  | vslideupVX vd vs rs => exact congr(Instr.vslideupVX $(h.vArg rfl) $(h.vArg rfl) $(h.xArg rfl))
  | vslidedownVX vd vs rs =>
    exact congr(Instr.vslidedownVX $(h.vArg rfl) $(h.vArg rfl) $(h.xArg rfl))
  | vindexmv vd vs vidx => exact congr(Instr.vindexmv $(h.vArg rfl) $(h.vArg rfl) $(h.vArg rfl))

end SpellsAll

/-- A slot with an opcode's token and operands that spell the arguments decodes to the
instruction. -/
theorem decode_of_spells (i : Instr) {labels : LabelTable} {line : Nat} {ops : List Operand}
    (h : SpellsAll labels i.args ops) : decode labels ⟨line, i.opcode.token, ops⟩ = .ok i := by
  have hlen : ops.length = i.opcode.shape.length := by
    rw [← args_map_kind, List.length_map, h.length_eq]
  refine decode_eq_ok.2 ⟨i.opcode, opcodeOf_token _, hlen, ?_, ?_, ?_, h.buildInstr_eq.symm⟩
  · exact args_map_kind i ▸ h.kindFault_eq_none 0
  · exact args_map_kind i ▸ h.registerFault_eq_none 0
  · exact args_map_kind i ▸ h.labelFault_eq_none

/-- Settles O60: in each of the 19 slots the operands spell the arguments. -/
theorem eachOpcodeDecodesItsOperands : Obligations.EachOpcodeDecodesItsOperands := by
  intro labels line x1 x2 x3 v1 v2 v3 a1 a2 a3 b1 b2 b3 ha1 ha2 ha3 hb1 hb2 hb3
  refine ⟨fun n hn => ?_, fun name t hname => ?_, ?_⟩
  · have hi : Spells labels (.imm (wordOf n)) (.imm n) := ⟨n, rfl, hn, rfl⟩
    exact ⟨decode_of_spells (.addi x1 x2 (wordOf n)) (.cons ha1 (.cons ha2 (.cons hi .nil))),
      decode_of_spells (.vlw v1 (wordOf n) x1) (.cons hb1 (.cons hi (.cons ha1 .nil))),
      decode_of_spells (.vsw v1 (wordOf n) x1) (.cons hb1 (.cons hi (.cons ha1 .nil)))⟩
  · have ht : Spells labels (.target t) (.ident name) := ⟨name, rfl, hname⟩
    exact ⟨decode_of_spells (.j t) (.cons ht .nil),
      decode_of_spells (.beq x1 x2 t) (.cons ha1 (.cons ha2 (.cons ht .nil)))⟩
  · exact ⟨decode_of_spells (.add x1 x2 x3) (.cons ha1 (.cons ha2 (.cons ha3 .nil))),
      decode_of_spells (.sub x1 x2 x3) (.cons ha1 (.cons ha2 (.cons ha3 .nil))),
      decode_of_spells (.mul x1 x2 x3) (.cons ha1 (.cons ha2 (.cons ha3 .nil))),
      decode_of_spells .vconfig .nil,
      decode_of_spells (.vsetvl x1 x2) (.cons ha1 (.cons ha2 .nil)),
      decode_of_spells (.vmvXS x1 v1) (.cons ha1 (.cons hb1 .nil)),
      decode_of_spells (.vmvSX v1 x1) (.cons hb1 (.cons ha1 .nil)),
      decode_of_spells (.vmvVX v1 x1) (.cons hb1 (.cons ha1 .nil)),
      decode_of_spells (.vmvVV v1 v2) (.cons hb1 (.cons hb2 .nil)),
      decode_of_spells (.vaddVV v1 v2 v3) (.cons hb1 (.cons hb2 (.cons hb3 .nil))),
      decode_of_spells (.vmulVX v1 v2 x1) (.cons hb1 (.cons hb2 (.cons ha1 .nil))),
      decode_of_spells (.vslideupVX v1 v2 x1) (.cons hb1 (.cons hb2 (.cons ha1 .nil))),
      decode_of_spells (.vslidedownVX v1 v2 x1) (.cons hb1 (.cons hb2 (.cons ha1 .nil))),
      decode_of_spells (.vindexmv v1 v2 v3) (.cons hb1 (.cons hb2 (.cons hb3 .nil)))⟩

/-! ### The operands the encoder writes -/

@[simp] theorem spells_xOperand (labels : LabelTable) (r : XReg) :
    Spells labels (.x r) (xOperand r) :=
  .inr ⟨_, rfl, resolve_regName .X r⟩

@[simp] theorem spells_vOperand (labels : LabelTable) (r : VReg) :
    Spells labels (.v r) (vOperand r) :=
  .inr ⟨_, rfl, resolve_regName .V r⟩

@[simp] theorem spells_base (labels : LabelTable) (r : XReg) : Spells labels (.x r) (.reg .X r) :=
  .inl rfl

theorem spells_immOperand (labels : LabelTable) {w : Word} (h : immediateWf w = true) :
    Spells labels (.imm w) (immOperand w) :=
  ⟨uval w, rfl, of_decide_eq_true h, (wordOf_uval w).symm⟩

/-- The encoder finds a name for a target some label names. -/
theorem labelNamed_spells {labels : LabelTable} {t : Nat}
    (h : ∃ name, labelIndex labels name = some t) :
    ∃ l, labelNamed labels t = some l ∧ Spells labels (.target t) (.ident l) := by
  obtain ⟨name, hname⟩ := h
  cases hfind : labels.find? fun e => decide (labelIndex labels e.1 = some t) with
  | none =>
    have hnone := List.find?_eq_none.1 hfind (name, t) (labelIndex_mem hname)
    exact absurd (decide_eq_true hname) hnone
  | some e =>
    have he : labelIndex labels e.1 = some t := by simpa using List.find?_some hfind
    exact ⟨e.1, by simp [labelNamed, hfind], e.1, rfl, he⟩

/-- The operands the encoder writes spell the instruction's arguments. -/
theorem encodeOperands_spells {labels : LabelTable} {n : Nat} {i : Instr} (hwf : i.wf n = true)
    (ht : ∀ t, (i = .j t ∨ ∃ a b, i = .beq a b t) → ∃ name, labelIndex labels name = some t) :
    ∃ ops, encodeOperands labels i = some ops ∧ SpellsAll labels i.args ops := by
  cases i with
  | addi rd rs imm => exact ⟨_, rfl, by simpa [Instr.args] using spells_immOperand labels hwf⟩
  | vlw vd offset base => exact ⟨_, rfl, by simpa [Instr.args] using spells_immOperand labels hwf⟩
  | vsw vs offset base => exact ⟨_, rfl, by simpa [Instr.args] using spells_immOperand labels hwf⟩
  | j t =>
    obtain ⟨l, hl, hspells⟩ := labelNamed_spells (ht t (.inl rfl))
    exact ⟨[.ident l], by simp only [encodeOperands, hl, Option.map_some], .cons hspells .nil⟩
  | beq rs1 rs2 t =>
    obtain ⟨l, hl, hspells⟩ := labelNamed_spells (ht t (.inr ⟨rs1, rs2, rfl⟩))
    exact ⟨[xOperand rs1, xOperand rs2, .ident l],
      by simp only [encodeOperands, hl, Option.map_some], by simpa [Instr.args] using hspells⟩
  | _ => exact ⟨_, rfl, by simp [Instr.args]⟩

/-- Settles O27: the encoder writes operands that spell the instruction's arguments. -/
theorem decodeInvertsEncode : Obligations.DecodeInvertsEncode := by
  intro labels line n i hwf ht
  obtain ⟨ops, hops, hspells⟩ := encodeOperands_spells hwf ht
  exact ⟨⟨line, i.opcode.token, ops⟩, by simp only [encode, hops, Option.map_some],
    decode_of_spells i hspells⟩

end Sys2Proof
end

section
/-! SUPPORT. Operand texts (30_encoding.md R65 to R68): what literals, register names and memory
forms are read as, and the obligations about single operands. -/

namespace Sys2Proof

/-! ### Immediates -/

/-- An integer in the signed range of a word is the value of its word (R7). -/
theorem sval_wordOf {n : Int} (hlo : -2147483648 ≤ n) (hhi : n < 2147483648) :
    sval (wordOf n) = n :=
  BitVec.toInt_ofInt_eq_self (by decide) hlo hhi

theorem kindFits_imm_of_lt {n : Nat} (h : 2147483647 < n) : kindFits .I (.imm n) = false :=
  decide_eq_false (Nat.not_le.2 h)

/-- Settles O24: literals in range spell their word, larger ones fail the kind check at their
index. -/
theorem immediatesDecodeToTheirValue : Obligations.ImmediatesDecodeToTheirValue := by
  refine ⟨fun n hn => sval_wordOf (by omega) (by omega), fun labels line n rd rs => ⟨fun hn => ?_,
    fun hn => ?_⟩, fun labels line n v base => ⟨fun hn => ?_, fun hn => ?_⟩⟩
  · have himm : Spells labels (.imm (wordOf n)) (.imm n) := ⟨n, rfl, hn, rfl⟩
    exact decode_of_spells (.addi rd rs (wordOf n)) (by simpa [Instr.args] using himm)
  · exact decode_of_operandFault (op := .addi) (operandFault_of_kind rfl
      (by simp [Opcode.shape, kindFault, kindFits_imm_of_lt hn]))
  · have himm : Spells labels (.imm (wordOf n)) (.imm n) := ⟨n, rfl, hn, rfl⟩
    exact ⟨decode_of_spells (.vlw v (wordOf n) base) (by simpa [Instr.args] using himm),
      decode_of_spells (.vsw v (wordOf n) base) (by simpa [Instr.args] using himm)⟩
  · exact ⟨decode_of_operandFault (op := .vlw) (operandFault_of_kind rfl
        (by simp [Opcode.shape, kindFault, kindFits_imm_of_lt hn])),
      decode_of_operandFault (op := .vsw) (operandFault_of_kind rfl
        (by simp [Opcode.shape, kindFault, kindFits_imm_of_lt hn]))⟩

/-! ### Register names -/

theorem digitValue_le {c : Char} (h : isDecDigit c = true) : digitValue c ≤ 9 := by
  simp only [isDecDigit, Bool.and_eq_true, decide_eq_true_eq] at h
  simp only [digitValue]
  omega

theorem digitChar_digitValue {c : Char} (h : isDecDigit c = true) :
    digitChar (digitValue c) = c := by
  simp only [isDecDigit, Bool.and_eq_true, decide_eq_true_eq] at h
  rw [digitChar, digitValue, Nat.add_sub_cancel' h.1, Char.ofNat_toNat]

/-- Only the canonical decimal of an index spells it (R68). -/
theorem eq_indexDigits {ds : Token} {i : RegIndex} (h : decimalIndex ds = some i) :
    ds = indexDigits i := by
  unfold decimalIndex at h
  split at h
  · rename_i d
    split at h
    · rename_i hd
      cases h
      have hlt := digitValue_le hd
      have hval : (Fin.ofNat 32 (digitValue d)).val = digitValue d := Nat.mod_eq_of_lt (by omega)
      rw [indexDigits, hval, if_pos (by omega), digitChar_digitValue hd]
    · cases h
  · rename_i d e
    split at h
    · rename_i hde
      cases h
      simp only [Bool.and_eq_true, bne_iff_ne, decide_eq_true_eq] at hde
      obtain ⟨⟨⟨hd, he⟩, hnz⟩, hlt⟩ := hde
      have hd1 : 1 ≤ digitValue d := by
        simp only [isDecDigit, Bool.and_eq_true, decide_eq_true_eq] at hd
        simp only [digitValue]
        omega
      have he9 := digitValue_le he
      have hval : (Fin.ofNat 32 (10 * digitValue d + digitValue e)).val =
          10 * digitValue d + digitValue e := Nat.mod_eq_of_lt hlt
      have htens : (10 * digitValue d + digitValue e) / 10 = digitValue d := by omega
      have hones : (10 * digitValue d + digitValue e) % 10 = digitValue e := by omega
      rw [indexDigits, hval, if_neg (by omega), htens, hones, digitChar_digitValue hd,
        digitChar_digitValue he]
    · cases h
  · cases h

theorem eq_regName {name : Token} {c : RegClass} {i : RegIndex}
    (h : numericRegister name = some (c, i)) : name = regName c i := by
  cases name with
  | nil => cases h
  | cons d ds =>
    simp only [numericRegister] at h
    split at h
    · obtain ⟨i', hi, hci⟩ := Option.map_eq_some_iff.1 h
      cases hci
      rw [‹d = 'x'›, eq_indexDigits hi, regName]
    · split at h
      · obtain ⟨i', hi, hci⟩ := Option.map_eq_some_iff.1 h
        cases hci
        rw [‹d = 'v'›, eq_indexDigits hi, regName]
      · cases h

theorem mem_abiNames {name : Token} {i : RegIndex} (h : abiIndex name = some i) :
    (name, i) ∈ abiNames := by
  obtain ⟨e, he, rfl⟩ := Option.map_eq_some_iff.1 h
  have hname : e.1 = name := by simpa using List.find?_some he
  exact hname ▸ List.mem_of_find?_eq_some he

theorem resolve_abiName : ∀ e ∈ abiNames, resolve e.1 = some (.X, e.2) := by decide

/-- Settles O25: the numeric form is read first, and no ABI name has that form. -/
theorem registerNamesResolve : Obligations.RegisterNamesResolve := by
  intro name c i
  constructor
  · intro h
    unfold resolve at h
    cases hn : numericRegister name with
    | some r =>
      rw [hn] at h
      cases h
      exact .inl (eq_regName hn)
    | none =>
      rw [hn] at h
      obtain ⟨i', hi, hci⟩ := Option.map_eq_some_iff.1 h
      cases hci
      exact .inr ⟨rfl, mem_abiNames hi⟩
  · rintro (rfl | ⟨rfl, hmem⟩)
    · exact resolve_regName c i
    · exact resolve_abiName (name, i) hmem

/-! ### Literals and memory forms -/

theorem decimalLiteral_eq_some {tok : Token} {n : Nat} :
    decimalLiteral tok = some n ↔
      (tok ≠ [] ∧ tok.all isDecDigit = true) ∧ numeralValue 10 tok = n := by
  by_cases h : tok ≠ [] ∧ tok.all isDecDigit = true
  · simp [decimalLiteral, h]
  · rw [decimalLiteral, if_neg h]
    simp only [h, false_and, reduceCtorEq]

theorem decimalLiteral_eq_none {tok : Token} {c : Char} (hc : c ∈ tok) (hd : isDecDigit c = false) :
    decimalLiteral tok = none :=
  if_neg fun h => by simp [List.all_eq_true.1 h.2 c hc] at hd

/-- A token whose second character is not `b` is no binary literal. -/
theorem binaryLiteral_eq_none {tok : Token} (h : tok[1]? ≠ some 'b') :
    binaryLiteral tok = none := by
  unfold binaryLiteral
  split
  · simp at h
  · rfl

section MemoryForm
variable {digits name : Token}

theorem memoryForm_append (hne : digits ≠ []) (hd : digits.all isDecDigit = true) :
    memoryForm (digits ++ '(' :: name ++ [')']) = some (digits, name) := by
  have hall := List.all_eq_true.1 hd
  have htake : (digits ++ '(' :: (name ++ [')'])).takeWhile isDecDigit = digits := by
    rw [List.takeWhile_append_of_pos hall, List.takeWhile_cons_of_neg (by decide), List.append_nil]
  have hdrop : (digits ++ '(' :: (name ++ [')'])).dropWhile isDecDigit =
      '(' :: (name ++ [')']) := by
    rw [List.dropWhile_append_of_pos hall, List.dropWhile_cons_of_neg (by decide)]
  rw [List.append_assoc, List.cons_append, memoryForm, htake, hdrop]
  simp [hne]

/-- The second character of a memory form is a digit or the parenthesis. -/
theorem memoryForm_second (hne : digits ≠ []) (hd : digits.all isDecDigit = true) :
    (digits ++ '(' :: name ++ [')'])[1]? ≠ some 'b' := by
  obtain ⟨d, rfl⟩ | ⟨d, e, ds, rfl⟩ : (∃ d, digits = [d]) ∨ ∃ d e ds, digits = d :: e :: ds := by
    match digits, hne with
    | [d], _ => exact .inl ⟨d, rfl⟩
    | d :: e :: ds, _ => exact .inr ⟨d, e, ds, rfl⟩
  · simp
  · have he : isDecDigit e = true := List.all_eq_true.1 hd e (by simp)
    intro h
    have heb : e = 'b' := by simpa using h
    rw [heb] at he
    revert he
    decide

/-- The memory form contributes the offset and the resolved base (R66). -/
theorem operandsOf_memoryForm {n : Nat} {base : XReg} (hd : decimalLiteral digits = some n)
    (hr : resolve name = some (.X, base)) :
    operandsOf (digits ++ '(' :: name ++ [')']) = some [.imm n, .reg .X base] := by
  obtain ⟨⟨hne, hall⟩, rfl⟩ := decimalLiteral_eq_some.1 hd
  have hdec : decimalLiteral (digits ++ '(' :: name ++ [')']) = none :=
    decimalLiteral_eq_none (c := '(') (by simp) (by decide)
  have hbin := binaryLiteral_eq_none (memoryForm_second (name := name) hne hall)
  simp only [operandsOf, hdec, hbin, memoryForm_append hne hall, hr, Option.map_some]

end MemoryForm

/-- A name of the base register in place of the resolved base changes neither the checks nor the
instruction (R72). -/
theorem decode_base_eq_name {labels : LabelTable} {line n : Nat} {o : Operand} {op : Opcode}
    {name : Token} {base : XReg} (hop : op = .vlw ∨ op = .vsw)
    (hr : resolve name = some (.X, base)) :
    decode labels ⟨line, op.token, [o, .imm n, .reg .X base]⟩ =
      decode labels ⟨line, op.token, [o, .imm n, .ident name]⟩ := by
  have hfault : operandFault labels op [o, .imm n, .reg .X base] =
      operandFault labels op [o, .imm n, .ident name] := by
    obtain rfl | rfl := hop <;>
      simp [operandFault, Opcode.shape, kindFault, kindFits, registerFault, Kind.regClass,
        registerFits, operandRegister, hr, labelFault]
  have hbuild : buildInstr labels [o, .imm n, .reg .X base] op =
      buildInstr labels [o, .imm n, .ident name] op := by
    obtain rfl | rfl := hop <;> simp [buildInstr, registerArg, immediateArg, operandRegister, hr]
  simp only [decode, opcodeOf_token, hfault, hbuild]

/-- Settles O26: the token is read as the two operands, of which the base decodes as its name
does. -/
theorem memoryFormsDecodeAlike : Obligations.MemoryFormsDecodeAlike := by
  intro digits name n base hd hr
  refine ⟨operandsOf_memoryForm hd hr, fun labels line o token htoken => ?_⟩
  obtain rfl | rfl := htoken
  · exact decode_base_eq_name (.inl rfl) hr
  · exact decode_base_eq_name (.inr rfl) hr

/-- Settles O22: the model assembles and decodes the eight texts. -/
theorem familyTextsDecode : Obligations.FamilyTextsDecode :=
  ⟨⟨_, rfl, rfl⟩, ⟨_, rfl, rfl⟩, ⟨_, rfl, rfl⟩, ⟨_, rfl, rfl⟩, ⟨_, rfl, rfl⟩, ⟨_, rfl, rfl⟩⟩

end Sys2Proof
end

section
/-! SUPPORT. The assembler on whole texts (30_encoding.md R60 to R67): comments and whitespace, the
label table it builds, and its first error. -/

namespace Sys2Proof

/-! ### Comments and whitespace -/

theorem stripComment_append_comment (text comment : Token) :
    stripComment (text ++ ';' :: comment) = stripComment text := by
  induction text with
  | nil => rfl
  | cons c cs ih =>
    by_cases hc : c = ';'
    · subst hc
      rfl
    · simpa [stripComment, hc] using ih

theorem stripComment_append {a : Token} (h : ';' ∉ a) (b : Token) :
    stripComment (a ++ b) = a ++ stripComment b :=
  List.takeWhile_append_of_pos fun c hc => by simpa using ne_of_mem_of_not_mem hc h

theorem semicolon_not_mem_spaces {spaces : Token} (h : spaces.all isSpace = true) : ';' ∉ spaces :=
  fun hc => absurd (List.all_eq_true.1 h _ hc) (by decide)

/-- Whitespace around a line stands around it without its comment too, unless the comment takes
what follows. -/
theorem stripComment_surrounded {spaces spaces' : Token} (text : Token)
    (h : spaces.all isSpace = true) (h' : spaces'.all isSpace = true) :
    ∃ tail : Token, tail.all isSpace = true ∧
      stripComment (spaces ++ text ++ spaces') = spaces ++ stripComment text ++ tail := by
  have hspaces := semicolon_not_mem_spaces h
  have hspaces' : stripComment spaces' = spaces' :=
    stripComment_eq_self (semicolon_not_mem_spaces h')
  by_cases hc : ';' ∈ text
  · obtain ⟨code, comment, rfl, -⟩ := List.eq_append_cons_of_mem hc
    refine ⟨[], rfl, ?_⟩
    rw [List.append_assoc, List.append_assoc, List.cons_append, stripComment_append hspaces,
      stripComment_append_comment, stripComment_append_comment, List.append_nil]
  · refine ⟨spaces', h', ?_⟩
    rw [List.append_assoc, stripComment_append hspaces, stripComment_append hc, hspaces',
      stripComment_eq_self hc, List.append_assoc]

theorem trim_spaces_append {spaces : Token} (h : spaces.all isSpace = true) (t : Token) :
    trim (spaces ++ t) = trim t := by
  rw [trim, List.dropWhile_append_of_pos (List.all_eq_true.1 h), trim]

theorem trim_append_spaces {tail : Token} (h : tail.all isSpace = true) (t : Token) :
    trim (t ++ tail) = trim t := by
  have htail : tail.dropWhile isSpace = [] := List.dropWhile_eq_nil_iff.2 (List.all_eq_true.1 h)
  have hrev : ∀ c ∈ tail.reverse, isSpace c = true := fun c hc =>
    List.all_eq_true.1 h c (List.mem_reverse.1 hc)
  simp only [trim, List.dropWhile_append]
  split
  · rename_i hempty
    rw [htail, List.isEmpty_iff.1 hempty]
  · rw [List.reverse_append, List.dropWhile_append_of_pos hrev]

theorem trim_spaces {spaces : Token} (h : spaces.all isSpace = true) : trim spaces = [] := by
  simpa [trim] using trim_spaces_append h []

/-- Settles O33: the line is the same once stripped and trimmed. -/
theorem commentsAndBlanksHaveNoEffect : Obligations.CommentsAndBlanksHaveNoEffect := by
  intro line p text comment spaces spaces' h h'
  refine ⟨by simp only [assembleLine, stripComment_append_comment], ?_, ?_⟩
  · obtain ⟨tail, htail, hstrip⟩ := stripComment_surrounded text h h'
    simp only [assembleLine, hstrip, trim_append_spaces htail, trim_spaces_append h]
  · simp only [assembleLine, stripComment_eq_self (semicolon_not_mem_spaces h), trim_spaces h,
      if_true]

/-! ### The label table -/

theorem labelIndex_eq_none_iff {labels : LabelTable} {name : Token} :
    labelIndex labels name = none ↔ name ∉ labels.map Prod.fst := by
  induction labels with
  | nil => simp [labelIndex]
  | cons e rest ih =>
    by_cases he : e.1 = name
    · simp [labelIndex, he]
    · simp [labelIndex, he, Ne.symm he, ih]

/-- What holds of the label table of a text up to any line (R61, R62). -/
structure LabelsWf (p : Program) : Prop where
  within : labelsWithin p.slots.length p.labels = true
  distinct : labelsDistinct p.labels = true
  identifiers : ∀ e ∈ p.labels, isIdentifier e.1 = true

theorem labelsWithin_mono {labels : LabelTable} {n m : Nat} (h : n ≤ m)
    (hl : labelsWithin n labels = true) : labelsWithin m labels = true := by
  simp only [labelsWithin, targetWf, List.all_eq_true, decide_eq_true_eq] at hl ⊢
  exact fun e he => (hl e he).trans h

/-- Every line keeps the label table well-formed. -/
theorem assembleLine_labelsWf {line : Nat} {p q : Program} {text : Token}
    (h : assembleLine line p text = .ok q) (hp : LabelsWf p) : LabelsWf q := by
  obtain ⟨hwithin, hdistinct, hident⟩ := hp
  obtain rfl | ⟨name, hname, hnew, rfl⟩ | ⟨slot, rfl⟩ := assembleLine_cases h
  · exact ⟨hwithin, hdistinct, hident⟩
  · have hfresh := labelIndex_eq_none_iff.1 hnew
    refine ⟨?_, ?_, ?_⟩
    · simpa [labelsWithin, targetWf] using hwithin
    · simp only [labelsDistinct, decide_eq_true_eq] at hdistinct ⊢
      rw [List.map_append]
      exact hdistinct.append (List.nodup_singleton _) (by simpa using hfresh)
    · simpa [or_imp, forall_and, hname] using hident
  · exact ⟨labelsWithin_mono (by simp) hwithin, hdistinct, hident⟩

theorem assembleFrom_labelsWf {lines : List Token} {line : Nat} {p r : Program}
    (h : assembleFrom line p lines = .ok r) (hp : LabelsWf p) : LabelsWf r := by
  induction lines generalizing line p with
  | nil =>
    cases h
    exact hp
  | cons text rest ih =>
    obtain ⟨q, hline, hrest⟩ := assembleFrom_cons_eq_ok.1 h
    exact ih hrest (assembleLine_labelsWf hline hp)

theorem assemble_labelsWf {lines : List Token} {p : Program} (h : assemble lines = .ok p) :
    LabelsWf p :=
  assembleFrom_labelsWf h ⟨rfl, rfl, fun _ he => nomatch he⟩

/-- Settles O31: the empty table is well-formed and every line keeps it so. -/
theorem labelTableIsWellFormed : Obligations.LabelTableIsWellFormed := fun _ _ h =>
  have hwf := assemble_labelsWf h
  ⟨hwf.within, hwf.distinct, hwf.identifiers⟩

/-! ### The first error -/

/-- A text in error splits at the line in error; the lines before it assemble (R67). -/
theorem assembleFrom_eq_error {lines : List Token} {line : Nat} {p : Program} {e : ParseError}
    (h : assembleFrom line p lines = .error e) :
    ∃ before text after q, lines = before ++ text :: after ∧ assembleFrom line p before = .ok q ∧
      assembleLine (line + before.length) q text = .error e := by
  induction lines generalizing line p with
  | nil => cases h
  | cons text rest ih =>
    rw [assembleFrom] at h
    cases hline : assembleLine line p text with
    | error e' =>
      rw [hline] at h
      cases h
      exact ⟨[], text, rest, p, rfl, rfl, hline⟩
    | ok q =>
      rw [hline] at h
      obtain ⟨before, text', after, r, rfl, hbefore, herror⟩ := ih h
      refine ⟨text :: before, text', after, r, rfl,
        assembleFrom_cons_eq_ok.2 ⟨q, hline, hbefore⟩, ?_⟩
      rwa [List.length_cons, Nat.add_comm before.length, ← Nat.add_assoc]

/-- Settles O32: a line's error is reported with the line's own number. -/
theorem firstParseErrorStops : Obligations.FirstParseErrorStops := by
  intro lines e h
  obtain ⟨before, text, after, q, hlines, hbefore, herror⟩ := assembleFrom_eq_error h
  have hline : e.line = 1 + before.length := assembleLine_error herror
  exact ⟨before, text, after, q, hlines, hbefore, hline ▸ herror, by rw [hline, Nat.add_comm]⟩

end Sys2Proof
end

section
/-! SUPPORT. The text the encoder writes (30_encoding.md R63, R65, R78): its tokens, the operands
each is read as, and the line as a whole. -/

namespace Sys2Proof

/-! ### Plain tokens -/

/-- A character with no part in setting out a line: no whitespace, comma, colon or semicolon. -/
def isPlainChar (c : Char) : Bool :=
  !isSpace c && !decide (c = ',') && !decide (c = ':') && !decide (c = ';')

/-- A token of such characters, and at least one. -/
structure PlainToken (t : Token) : Prop where
  ne_nil : t ≠ []
  chars : ∀ c ∈ t, isPlainChar c = true

theorem isSpace_of_isPlainChar {c : Char} (h : isPlainChar c = true) : isSpace c = false := by
  simp only [isPlainChar, Bool.and_eq_true, Bool.not_eq_true'] at h
  exact h.1.1.1

theorem isPlainChar_of_isIdentChar {c : Char} (h : isIdentChar c = true) :
    isPlainChar c = true := by
  have hspace := isSpace_of_isIdentChar h
  have hne (d : Char) (hd : isIdentChar d = false) : c ≠ d := fun hcd => by simp [← hcd, h] at hd
  simp [isPlainChar, hspace, hne ',' (by decide), hne ':' (by decide), hne ';' (by decide)]

theorem plainToken_of_identifier {s : Token} (h : isIdentifier s = true) : PlainToken s where
  ne_nil hs := by simp [hs, isIdentifier] at h
  chars c hc := isPlainChar_of_isIdentChar (isIdentChar_of_mem h hc)

theorem opcode_token_plain (op : Opcode) : PlainToken op.token := by
  have hall : op.token ≠ [] ∧ op.token.all isPlainChar = true := by cases op <;> decide
  exact ⟨hall.1, List.all_eq_true.1 hall.2⟩

theorem isIdentifier_regName (c : RegClass) (i : RegIndex) : isIdentifier (regName c i) = true := by
  cases c <;> revert i <;> decide

/-! ### What the written tokens are read as -/

/-- An identifier starts with a letter, and so is no literal and no memory form (R65). -/
theorem operandsOf_identifier {s : Token} (h : isIdentifier s = true) :
    operandsOf s = some [.ident s] := by
  cases s with
  | nil => cases h
  | cons c cs =>
    have hletter : isLetter c = true := by
      simp only [isIdentifier, Bool.and_eq_true] at h
      exact h.1
    have hdigit : isDecDigit c = false := by
      simp only [isLetter, Bool.or_eq_true, Bool.and_eq_true, decide_eq_true_eq] at hletter
      simp only [isDecDigit, Bool.and_eq_false_iff, decide_eq_false_iff_not]
      omega
    have hdec : decimalLiteral (c :: cs) = none :=
      decimalLiteral_eq_none List.mem_cons_self hdigit
    have hbin : binaryLiteral (c :: cs) = none := by
      unfold binaryLiteral
      split
      · rename_i heq
        cases heq
        exact absurd hdigit (by decide)
      · rfl
    have hmem : memoryForm (c :: cs) = none := by
      simp only [memoryForm, List.takeWhile_cons, hdigit]
      split <;> simp
    simp only [operandsOf, hdec, hbin, hmem]

theorem isDecDigit_of_isDigit {c : Char} (h : c.isDigit = true) : isDecDigit c = true := by
  simp only [Char.isDigit, Bool.and_eq_true, decide_eq_true_eq, UInt32.le_iff_toNat_le] at h
  simp only [isDecDigit, Bool.and_eq_true, decide_eq_true_eq]
  exact h

/-- A decimal text is the literal of its number (R65). -/
theorem decimalLiteral_decimalText (n : Nat) : decimalLiteral (decimalText n) = some n := by
  refine decimalLiteral_eq_some.2 ⟨⟨Nat.toDigits_ne_nil, List.all_eq_true.2 fun c hc => ?_⟩, ?_⟩
  · exact isDecDigit_of_isDigit (Nat.isDigit_of_mem_toDigits (by decide) (by decide) hc)
  · exact Nat.ofDigitChars_eq_foldl.symm.trans Nat.ofDigitChars_ten_toDigits

theorem decimalText_plain (n : Nat) : PlainToken (decimalText n) where
  ne_nil := Nat.toDigits_ne_nil
  chars c hc := by
    obtain ⟨⟨-, hall⟩, -⟩ := decimalLiteral_eq_some.1 (decimalLiteral_decimalText n)
    exact isPlainChar_of_isIdentChar (by simp [isIdentChar, List.all_eq_true.1 hall c hc])

/-- Tokens, each plain, and the operands they are read as, in order. -/
inductive ReadAs : List Token → List Operand → Prop where
  | nil : ReadAs [] []
  | cons {t : Token} {ts : List Token} {os ops : List Operand} (ht : PlainToken t)
      (ho : operandsOf t = some os) (h : ReadAs ts ops) : ReadAs (t :: ts) (os ++ ops)

theorem ReadAs.plain {ts : List Token} {ops : List Operand} (h : ReadAs ts ops) :
    ∀ t ∈ ts, PlainToken t := by
  induction h with
  | nil => exact fun _ ht => nomatch ht
  | cons ht _ _ ih => exact List.forall_mem_cons.2 ⟨ht, ih⟩

/-- The forms of operand lists the encoder writes: names, and at the end a literal or an offset with
its resolved base. -/
inductive Written : List Operand → Prop where
  | nil : Written []
  | name {s : Token} {rest : List Operand} (hs : isIdentifier s = true) (h : Written rest) :
      Written (.ident s :: rest)
  | literal (n : Nat) : Written [.imm n]
  | memory (n : Nat) (base : XReg) : Written [.imm n, .reg .X base]

theorem written_x {r : XReg} {rest : List Operand} (h : Written rest) :
    Written (xOperand r :: rest) :=
  .name (isIdentifier_regName .X r) h

theorem written_v {r : VReg} {rest : List Operand} (h : Written rest) :
    Written (vOperand r :: rest) :=
  .name (isIdentifier_regName .V r) h

theorem written_label {labels : LabelTable} {t : Nat} {l : Token}
    (hident : ∀ e, e ∈ labels → isIdentifier e.1 = true) (hl : labelNamed labels t = some l) :
    Written [.ident l] := by
  obtain ⟨e, he, rfl⟩ := Option.map_eq_some_iff.1 hl
  exact .name (hident e (List.mem_of_find?_eq_some he)) .nil

theorem written_of_encodeOperands {labels : LabelTable} {i : Instr} {ops : List Operand}
    (hident : ∀ e, e ∈ labels → isIdentifier e.1 = true)
    (h : encodeOperands labels i = some ops) : Written ops := by
  cases i with
  | j t =>
    obtain ⟨l, hl, rfl⟩ := Option.map_eq_some_iff.1 h
    exact written_label hident hl
  | beq rs1 rs2 t =>
    obtain ⟨l, hl, rfl⟩ := Option.map_eq_some_iff.1 h
    exact written_x (written_x (written_label hident hl))
  | addi rd rs imm => cases h; exact written_x (written_x (.literal _))
  | vlw vd offset base => cases h; exact written_v (.memory _ _)
  | vsw vs offset base => cases h; exact written_v (.memory _ _)
  | add rd rs1 rs2 => cases h; exact written_x (written_x (written_x .nil))
  | sub rd rs1 rs2 => cases h; exact written_x (written_x (written_x .nil))
  | mul rd rs1 rs2 => cases h; exact written_x (written_x (written_x .nil))
  | vconfig => cases h; exact .nil
  | vsetvl rd rs => cases h; exact written_x (written_x .nil)
  | vmvXS rd vs => cases h; exact written_x (written_v .nil)
  | vmvSX vd rs => cases h; exact written_v (written_x .nil)
  | vmvVX vd rs => cases h; exact written_v (written_x .nil)
  | vmvVV vd vs => cases h; exact written_v (written_v .nil)
  | vaddVV vd vs1 vs2 => cases h; exact written_v (written_v (written_v .nil))
  | vmulVX vd vs rs => cases h; exact written_v (written_v (written_x .nil))
  | vslideupVX vd vs rs => cases h; exact written_v (written_v (written_x .nil))
  | vslidedownVX vd vs rs => cases h; exact written_v (written_v (written_x .nil))
  | vindexmv vd vs vidx => cases h; exact written_v (written_v (written_v .nil))

/-- The text of written operands is read as those operands. -/
theorem Written.readAs {ops : List Operand} (h : Written ops) : ReadAs (operandText ops) ops := by
  induction h with
  | nil => exact .nil
  | name hs _ ih => exact .cons (plainToken_of_identifier hs) (operandsOf_identifier hs) ih
  | literal n =>
    have hread : operandsOf (decimalText n) = some [.imm n] := by
      simp only [operandsOf, decimalLiteral_decimalText]
    exact .cons (decimalText_plain n) hread .nil
  | memory n base =>
    have hplain : PlainToken (decimalText n ++ '(' :: regName .X base ++ [')']) := by
      refine ⟨by simp, fun c hc => ?_⟩
      have hparen : isPlainChar '(' = true ∧ isPlainChar ')' = true := by decide
      simp only [List.mem_append, List.mem_cons, List.not_mem_nil, or_false] at hc
      obtain (hc | rfl | hc) | rfl := hc
      · exact (decimalText_plain n).chars c hc
      · exact hparen.1
      · exact (plainToken_of_identifier (isIdentifier_regName .X base)).chars c hc
      · exact hparen.2
    exact .cons hplain (operandsOf_memoryForm (decimalLiteral_decimalText n)
      (resolve_regName .X base)) .nil

/-! ### The tokens of a written line -/

/-- The operand tokens of a line as they are set out: a comma ends each but the last (R78). -/
def commaTokens : List Token → List Token
  | [] => []
  | [t] => [t]
  | t :: u :: rest => (t ++ [',']) :: commaTokens (u :: rest)

theorem stripComma_comma (t : Token) : stripComma (t ++ [',']) = t := by
  simp [stripComma]

theorem stripComma_plain {t : Token} (h : PlainToken t) : stripComma t = t :=
  if_neg fun hc => absurd (h.chars _ (List.mem_of_getLast? hc)) (by decide)

theorem operandList_cons {t : Token} {ts : List Token} {os ops : List Operand}
    (ht : operandsOf (stripComma t) = some os) (hts : operandList ts = some ops) :
    operandList (t :: ts) = some (os ++ ops) := by
  simp only [operandList, ht, hts]

/-- The commas are stripped and the tokens read (R63). -/
theorem operandList_commaTokens {ts : List Token} {ops : List Operand} (h : ReadAs ts ops) :
    operandList (commaTokens ts) = some ops := by
  induction h with
  | nil => rfl
  | @cons t ts os ops ht ho hrest ih =>
    cases ts with
    | nil => exact operandList_cons (by rwa [stripComma_plain ht]) ih
    | cons u rest => exact operandList_cons (by rwa [stripComma_comma]) ih

theorem splitTokens_append {t : Token} (h : ∀ c ∈ t, isSpace c = false) (cur rest : Token) :
    splitTokens cur (t ++ rest) = splitTokens (t.reverse ++ cur) rest := by
  induction t generalizing cur with
  | nil => rfl
  | cons c cs ih =>
    obtain ⟨hc, hcs⟩ := List.forall_mem_cons.1 h
    simp [splitTokens, hc, ih hcs]

/-- The space before an operand ends the token read so far. -/
theorem splitTokens_space {cur : Token} (h : cur ≠ []) (rest : Token) :
    splitTokens cur (' ' :: rest) = cur.reverse :: splitTokens [] rest := by
  rw [splitTokens, if_pos (by decide), if_neg h]

theorem splitTokens_joinOperands {ts : List Token} (h : ∀ t ∈ ts, PlainToken t) {cur : Token}
    (hcur : cur ≠ []) : splitTokens cur (joinOperands ts) = cur.reverse :: commaTokens ts := by
  induction ts generalizing cur with
  | nil => rw [joinOperands, splitTokens, if_neg hcur, commaTokens]
  | cons t ts ih =>
    obtain ⟨ht, hts⟩ := List.forall_mem_cons.1 h
    have hspace : ∀ c ∈ t, isSpace c = false := fun c hc => isSpace_of_isPlainChar (ht.chars c hc)
    cases ts with
    | nil =>
      have hsplit := splitTokens_append hspace [] []
      rw [List.append_nil, List.append_nil] at hsplit
      rw [joinOperands, splitTokens_space hcur, hsplit, splitTokens,
        if_neg (by simpa using ht.ne_nil), List.reverse_reverse, commaTokens]
    | cons u rest =>
      rw [joinOperands, List.cons_append, splitTokens_space hcur, splitTokens_append hspace,
        splitTokens, if_neg (by decide), ih hts (List.cons_ne_nil _ _), commaTokens]
      simp

theorem tokensOf_line {opcode : Token} {ts : List Token} (hop : PlainToken opcode)
    (h : ∀ t ∈ ts, PlainToken t) :
    tokensOf (opcode ++ joinOperands ts) = opcode :: commaTokens ts := by
  have hspace : ∀ c ∈ opcode, isSpace c = false := fun c hc =>
    isSpace_of_isPlainChar (hop.chars c hc)
  rw [tokensOf, splitTokens_append hspace,
    splitTokens_joinOperands h (by simpa using hop.ne_nil), List.append_nil, List.reverse_reverse]

/-! ### The ends of a written line -/

theorem mem_joinOperands {ts : List Token} {c : Char} (h : c ∈ joinOperands ts) :
    c = ' ' ∨ c = ',' ∨ ∃ t ∈ ts, c ∈ t := by
  induction ts with
  | nil => cases h
  | cons t ts ih =>
    cases ts with
    | nil =>
      obtain rfl | hc := List.mem_cons.1 h
      · exact .inl rfl
      · exact .inr (.inr ⟨t, List.mem_cons_self, hc⟩)
    | cons u rest =>
      simp only [joinOperands, List.mem_append, List.mem_cons] at h
      obtain (rfl | hc) | rfl | hc := h
      · exact .inl rfl
      · exact .inr (.inr ⟨t, List.mem_cons_self, hc⟩)
      · exact .inr (.inl rfl)
      · obtain rfl | rfl | ⟨t', ht', hct⟩ := ih hc
        · exact .inl rfl
        · exact .inr (.inl rfl)
        · exact .inr (.inr ⟨t', List.mem_cons_of_mem _ ht', hct⟩)

theorem joinOperands_ne_nil (t : Token) (ts : List Token) : joinOperands (t :: ts) ≠ [] := by
  cases ts <;> simp [joinOperands]

/-- Operands set out end in the last character of the last one. -/
theorem getLast?_joinOperands {ts : List Token} (h : ∀ t ∈ ts, PlainToken t) {c : Char}
    (hc : (joinOperands ts).getLast? = some c) : isPlainChar c = true := by
  induction ts with
  | nil => cases hc
  | cons t ts ih =>
    obtain ⟨ht, hts⟩ := List.forall_mem_cons.1 h
    cases ts with
    | nil =>
      have hlast : (' ' :: t).getLast? = t.getLast? :=
        List.getLast?_append_of_ne_nil [' '] ht.ne_nil
      exact ht.chars c (List.mem_of_getLast? (hlast ▸ hc))
    | cons u rest =>
      have hlast : ((' ' :: t) ++ ([','] ++ joinOperands (u :: rest))).getLast? =
          (joinOperands (u :: rest)).getLast? := by
        rw [← List.append_assoc, List.getLast?_append_of_ne_nil _ (joinOperands_ne_nil u rest)]
      exact ih hts (hlast ▸ hc)

section Line
variable {opcode : Token} {ts : List Token}

/-- A written line ends in a plain character. -/
theorem getLast?_line (hop : PlainToken opcode) (h : ∀ t ∈ ts, PlainToken t) {c : Char}
    (hc : (opcode ++ joinOperands ts).getLast? = some c) : isPlainChar c = true := by
  cases ts with
  | nil =>
    rw [joinOperands, List.append_nil] at hc
    exact hop.chars c (List.mem_of_getLast? hc)
  | cons t ts =>
    rw [List.getLast?_append_of_ne_nil _ (joinOperands_ne_nil t ts)] at hc
    exact getLast?_joinOperands h hc

theorem semicolon_not_mem_line (hop : PlainToken opcode) (h : ∀ t ∈ ts, PlainToken t) :
    ';' ∉ opcode ++ joinOperands ts := by
  intro hc
  have hplain : isPlainChar ';' ≠ true := by decide
  obtain hc | hc := List.mem_append.1 hc
  · exact hplain (hop.chars _ hc)
  · obtain hc | hc | ⟨t, ht, hct⟩ := mem_joinOperands hc
    · cases hc
    · cases hc
    · exact hplain ((h t ht).chars _ hct)

theorem dropWhile_isSpace_of_head {text : Token}
    (h : ∀ c, text.head? = some c → isSpace c = false) :
    text.dropWhile isSpace = text := by
  cases text with
  | nil => rfl
  | cons c cs => exact List.dropWhile_cons_of_neg (by simpa using h c rfl)

/-- A line with no whitespace at its ends is trimmed already. -/
theorem trim_of_ends {text : Token} (hfirst : ∀ c, text.head? = some c → isSpace c = false)
    (hlast : ∀ c, text.getLast? = some c → isSpace c = false) : trim text = text := by
  rw [trim, dropWhile_isSpace_of_head hfirst,
    dropWhile_isSpace_of_head (by simpa [List.head?_reverse] using hlast), List.reverse_reverse]

theorem trim_line (hop : PlainToken opcode) (h : ∀ t ∈ ts, PlainToken t) :
    trim (opcode ++ joinOperands ts) = opcode ++ joinOperands ts := by
  refine trim_of_ends (fun c hc => ?_) fun c hc => isSpace_of_isPlainChar (getLast?_line hop h hc)
  rw [List.head?_append_of_ne_nil _ hop.ne_nil] at hc
  exact isSpace_of_isPlainChar (hop.chars c (List.mem_of_mem_head? hc))

/-- A written line appends the slot it was written from (R63). -/
theorem assembleLine_written {ops : List Operand} (hop : PlainToken opcode) (hread : ReadAs ts ops)
    (line : Nat) (p : Program) : assembleLine line p (opcode ++ joinOperands ts) =
      .ok { p with slots := p.slots ++ [⟨line, opcode, ops⟩] } := by
  have hts := hread.plain
  have hne : opcode ++ joinOperands ts ≠ [] := List.append_ne_nil_of_left_ne_nil hop.ne_nil _
  have hcolon : (opcode ++ joinOperands ts).getLast? ≠ some ':' := fun hc =>
    absurd (getLast?_line hop hts hc) (by decide)
  simp only [assembleLine, stripComment_eq_self (semicolon_not_mem_line hop hts), trim_line hop hts,
    if_neg hne, if_neg hcolon, tokensOf_line hop hts, appendInstruction,
    operandList_commaTokens hread]

end Line

/-- Settles O28: the operands the encoder writes are read back token by token. -/
theorem assemblerReadsEncodedText : Obligations.AssemblerReadsEncodedText := by
  intro labels line n i slot p _ hident h
  obtain ⟨ops, hops, rfl⟩ := Option.map_eq_some_iff.1 h
  have hread := (written_of_encodeOperands hident hops).readAs
  exact assembleLine_written (opcode_token_plain i.opcode) hread line p

end Sys2Proof
end

section
/-! SUPPORT. Execution in closed form: the fault an instruction raises, the target it redirects to
and the writes it commits; and what follows about every instruction and every step. -/

namespace Sys2Proof.Machine

/-! ### The closed form -/

/-- The fault an instruction raises in a state, if any (60_exceptions.md R115 to R118). -/
def execFault (s : State) : Instr → Option FaultCause
  | .vsetvl _ rs => if signedX s rs < 0 then some (.vlNegative (signedX s rs)) else none
  | .vlw _ offset base => transferFault s (effectiveAddress s base offset)
  | .vsw _ offset base => transferFault s (effectiveAddress s base offset)
  | .vslideupVX _ _ rs => slideFault s (signedX s rs)
  | .vslidedownVX _ _ rs => slideFault s (signedX s rs)
  | .vindexmv _ _ vidx => scatterFault s vidx
  | _ => none

/-- The target an instruction redirects the pc to, if any (41_control.md R91, R92). -/
def execTarget (s : State) : Instr → Option Nat
  | .j target => some target
  | .beq rs1 rs2 target => if branchTaken s rs1 rs2 then some target else none
  | _ => none

/-- The state with the writes an instruction that raises no fault commits before it retires. -/
def execWrites (s : State) : Instr → State
  | .addi rd rs imm => writeX rd (wordOf (signedX s rs + sval imm)) s
  | .add rd rs1 rs2 => writeX rd (wordOf (signedX s rs1 + signedX s rs2)) s
  | .sub rd rs1 rs2 => writeX rd (wordOf (signedX s rs1 - signedX s rs2)) s
  | .mul rd rs1 rs2 => writeX rd (wordOf (signedX s rs1 * signedX s rs2)) s
  | .j _ => s
  | .beq _ _ _ => s
  | .vconfig => setVl Config.VLEN s
  | .vsetvl rd rs =>
    writeX rd (wordOf ((min Config.VLEN (signedX s rs).toNat : Nat) : Int))
      (setVl (min Config.VLEN (signedX s rs).toNat) s)
  | .vlw vd offset base => countAccesses s.vl (writeV vd ((readV s vd).gated s.vl fun k =>
      (memRead s (effectiveAddress s base offset) s.vl).getD k 0) s)
  | .vsw vs offset base =>
    countAccesses s.vl (memWrite (effectiveAddress s base offset) (activeLanes s vs) s)
  | .vmvXS rd vs => writeX rd (readLane s vs 0) s
  | .vmvSX vd rs => writeV vd ((readV s vd).setLane 0 (readX s rs)) s
  | .vmvVX vd rs => writeV vd ((readV s vd).gated s.vl fun _ => readX s rs) s
  | .vmvVV vd vs => writeV vd ((readV s vd).gated s.vl fun k => readLane s vs k) s
  | .vaddVV vd vs1 vs2 =>
    writeV vd (VecReg.ofFn fun k => wordOf (signedLane s vs1 k + signedLane s vs2 k)) s
  | .vmulVX vd vs rs =>
    writeV vd ((readV s vd).gated s.vl fun k => wordOf (signedLane s vs k * signedX s rs)) s
  | .vslideupVX vd vs rs => writeV vd ((readV s vd).gated s.vl
      (slideUpLane Config.slideupBoundary s vd vs (signedX s rs).toNat)) s
  | .vslidedownVX vd vs rs => writeV vd ((readV s vd).gated s.vl
      (slideDownLane s vs (signedX s rs).toNat)) s
  | .vindexmv vd vs vidx => writeV vd (scatter s vs vidx (readV s vd)) s

/-- The state an instruction answers. -/
def execResult (s : State) (i : Instr) : State :=
  match execFault s i with
  | some cause => takeFault cause s
  | none => retire (execTarget s i) (execWrites s i)

theorem exec_eq (i : Instr) (s : State) : exec i s = .next (execResult s i) := by
  cases i with
  | vsetvl rd rs =>
    simp only [exec, execVsetvl, execResult, execFault]
    split <;> rfl
  | vlw vd offset base =>
    simp only [exec, execVlw, execResult, execFault]
    cases transferFault s (effectiveAddress s base offset) <;> rfl
  | vsw vs offset base =>
    simp only [exec, execVsw, execResult, execFault]
    cases transferFault s (effectiveAddress s base offset) <;> rfl
  | vslideupVX vd vs rs =>
    simp only [exec, execVslideupVX, slideUp, execResult, execFault]
    cases slideFault s (signedX s rs) <;> rfl
  | vslidedownVX vd vs rs =>
    simp only [exec, execVslidedownVX, execResult, execFault]
    cases slideFault s (signedX s rs) <;> rfl
  | vindexmv vd vs vidx =>
    simp only [exec, execVindexmv, execResult, execFault]
    cases scatterFault s vidx <;> rfl
  | _ => rfl

section Exec
variable {i : Instr} {s t : State}

theorem exec_of_fault {c : FaultCause} (h : execFault s i = some c) :
    exec i s = .next (takeFault c s) := by
  rw [exec_eq, execResult, h]

theorem exec_of_no_fault (h : execFault s i = none) :
    exec i s = .next (retire (execTarget s i) (execWrites s i)) := by
  rw [exec_eq, execResult, h]

/-- An instruction faults, or commits its writes and retires. -/
theorem exec_inv (h : exec i s = .next t) :
    (∃ c, execFault s i = some c ∧ t = takeFault c s) ∨
    (execFault s i = none ∧ t = retire (execTarget s i) (execWrites s i)) := by
  rw [exec_eq] at h
  cases h
  cases hf : execFault s i with
  | some c => exact .inl ⟨c, rfl, by rw [execResult, hf]⟩
  | none => exact .inr ⟨rfl, by rw [execResult, hf]⟩

theorem nextIndex_eq (s : State) (i : Instr) :
    nextIndex s i = (execTarget s i).getD (s.pc + 1) := by
  cases i with
  | beq rs1 rs2 target =>
    by_cases h : readX s rs1 = readX s rs2 <;> simp [nextIndex, execTarget, branchTaken, h]
  | _ => rfl

/-- The lanes an instruction that raises no fault transfers to or from memory (R29). -/
def accesses (s : State) (i : Instr) : Nat := if isLoad i || isStore i then s.vl else 0

@[simp] theorem execWrites_pc (s : State) (i : Instr) : (execWrites s i).pc = s.pc := by
  cases i <;> simp [execWrites]

@[simp] theorem execWrites_cycles (s : State) (i : Instr) :
    (execWrites s i).cycles = s.cycles := by
  cases i <;> simp [execWrites]

@[simp] theorem execWrites_fault (s : State) (i : Instr) : (execWrites s i).fault = s.fault := by
  cases i <;> simp [execWrites]

theorem execWrites_launch (s : State) (i : Instr) : LaunchKept s (execWrites s i) := by
  cases i <;> constructor <;> simp [execWrites]

@[simp] theorem execWrites_memAccesses (s : State) (i : Instr) :
    (execWrites s i).memAccesses = s.memAccesses + accesses s i := by
  cases i <;> simp [execWrites, accesses, isLoad, isStore, Instr.opcode]

theorem execWrites_vl (s : State) (h : setsLength i = false) : (execWrites s i).vl = s.vl := by
  cases i with
  | vconfig => cases h
  | vsetvl rd rs => cases h
  | _ => simp [execWrites]

/-- An execution that records no fault retires its instruction. -/
theorem exec_retired (h : exec i s = .next t) (ht : t.fault = none) :
    Retired (nextIndex s i) s t := by
  obtain ⟨c, -, rfl⟩ | ⟨-, rfl⟩ := exec_inv h
  · cases ht
  · rw [nextIndex_eq]
    exact retired_of _ (execWrites_pc s i) (execWrites_cycles s i) (execWrites_fault s i)
      (execWrites_launch s i)

end Exec

/-! ### Every instruction and every step -/

/-- Settles O5: a step that records no fault is an execution that records none. -/
theorem retirementSetsPcAndCounts : Obligations.RetirementSetsPcAndCounts := by
  intro s t h ht
  obtain ⟨-, slot, hslot, ⟨c, -, rfl⟩ | ⟨i, hd, hx⟩⟩ := step_cases h
  · cases ht
  · exact ⟨slot, i, hslot, hd, exec_retired hx ht⟩

/-- Settles O6: a retirement clears the stored register. -/
theorem registerZeroIsHardwired : Obligations.RegisterZeroIsHardwired := by
  refine ⟨readX_zero, fun s v => rfl, fun s t h ht => ?_⟩
  obtain ⟨slot, i, -, -, hret⟩ := retirementSetsPcAndCounts s t h ht
  exact hret.zero

/-- Settles O14: a fault counts no access, a retirement those of its instruction. -/
theorem accessesCountTransferredLanes : Obligations.AccessesCountTransferredLanes := by
  intro s t h
  obtain ⟨hf, slot, hslot, ⟨c, hd, rfl⟩ | ⟨i, hd, hx⟩⟩ := step_cases h
  · exact ⟨slot, hslot, by simp [hd]⟩
  · refine ⟨slot, hslot, ?_⟩
    obtain ⟨c, -, rfl⟩ | ⟨-, rfl⟩ := exec_inv hx
    · simp [hd]
    · simp [hd, hf, accesses]

/-- Settles O15: each check raises the one fault that is its own. -/
theorem executionFaultsByOpcode : Obligations.ExecutionFaultsByOpcode := by
  intro i s t r hf h hr
  obtain ⟨c, hc, rfl⟩ | ⟨-, rfl⟩ := exec_inv h
  · cases hr
    cases i with
    | vsetvl rd rs =>
      simp only [execFault] at hc
      split at hc <;> cases hc
      exact .inl ⟨rfl, rfl⟩
    | vslideupVX vd vs rs =>
      obtain ⟨rfl, -⟩ := slideFault_eq_some hc
      exact .inr (.inl ⟨.inl rfl, rfl⟩)
    | vslidedownVX vd vs rs =>
      obtain ⟨rfl, -⟩ := slideFault_eq_some hc
      exact .inr (.inl ⟨.inr rfl, rfl⟩)
    | vlw vd offset base =>
      obtain ⟨a, rfl⟩ := transferFault_eq_some hc
      exact .inr (.inr (.inl ⟨.inl rfl, rfl⟩))
    | vsw vs offset base =>
      obtain ⟨a, rfl⟩ := transferFault_eq_some hc
      exact .inr (.inr (.inl ⟨.inr rfl, rfl⟩))
    | vindexmv vd vs vidx =>
      obtain ⟨k, j, rfl⟩ := scatterFault_eq_some hc
      exact .inr (.inr (.inr ⟨rfl, rfl⟩))
    | _ => cases hc
  · simp [hf] at hr

/-! ### Other programs and other counts -/

/-- The state with another program, other counters and another output element count: fields that no
instruction reads (10_state.md R28, R29, R32, R33). -/
def rebase (slots : List Slot) (labels : LabelTable) (c m o : Nat) (s : State) : State :=
  { s with slots := slots, labels := labels, cycles := c, memAccesses := m, outCount := o }

section Rebase
variable {i : Instr} {s t : State} (slots : List Slot) (labels : LabelTable) (c m o : Nat)

theorem writeX_rebase (rd : XReg) (v : Word) (s : State) :
    writeX rd v (rebase slots labels c m o s) = rebase slots labels c m o (writeX rd v s) := by
  unfold writeX
  split <;> rfl

theorem execFault_rebase (s : State) (i : Instr) :
    execFault (rebase slots labels c m o s) i = execFault s i := by
  cases i <;> rfl

theorem execTarget_rebase (s : State) (i : Instr) :
    execTarget (rebase slots labels c m o s) i = execTarget s i := by
  cases i <;> rfl

theorem execWrites_rebase (s : State) (i : Instr) :
    execWrites (rebase slots labels c m o s) i =
      rebase slots labels c (m + accesses s i) o (execWrites s i) := by
  cases i with
  | addi rd rs imm => exact writeX_rebase slots labels c m o rd _ s
  | add rd rs1 rs2 => exact writeX_rebase slots labels c m o rd _ s
  | sub rd rs1 rs2 => exact writeX_rebase slots labels c m o rd _ s
  | mul rd rs1 rs2 => exact writeX_rebase slots labels c m o rd _ s
  | vsetvl rd rs => exact writeX_rebase slots labels c m o rd _ (setVl _ s)
  | vmvXS rd vs => exact writeX_rebase slots labels c m o rd _ s
  | _ => rfl

/-- Started from another program and other counts, an instruction answers the same but for them, and
adds the same to the counts. -/
theorem exec_rebase (h : exec i s = .next t) :
    ∃ dc dm, t.cycles = s.cycles + dc ∧ t.memAccesses = s.memAccesses + dm ∧
      t.outCount = s.outCount ∧
      exec i (rebase slots labels c m o s) =
        .next (rebase slots labels (c + dc) (m + dm) o t) := by
  have hfault := execFault_rebase slots labels c m o s i
  obtain ⟨cause, hc, rfl⟩ | ⟨hc, rfl⟩ := exec_inv h
  · exact ⟨0, 0, rfl, rfl, rfl, exec_of_fault (hfault.trans hc)⟩
  · refine ⟨1, accesses s i, by simp, by simp, (execWrites_launch s i).outCount, ?_⟩
    rw [exec_of_no_fault (hfault.trans hc), execTarget_rebase, execWrites_rebase]
    rfl

end Rebase

/-- Settles O8: another program beside the counts of `s` itself. -/
theorem executionIgnoresTheProgram : Obligations.ExecutionIgnoresTheProgram := by
  intro i s t slots labels h
  obtain ⟨dc, dm, hcycles, hmem, hout, hx⟩ :=
    exec_rebase slots labels s.cycles s.memAccesses s.outCount h
  refine hx.trans ?_
  rw [← hcycles, ← hmem, ← hout]
  rfl

/-- Settles O9: other counts beside the program of `s` itself. -/
theorem executionIgnoresTheCounters : Obligations.ExecutionIgnoresTheCounters := by
  intro i s t c m o h
  obtain ⟨dc, dm, hcycles, hmem, -, hx⟩ := exec_rebase s.slots s.labels c m o h
  refine ⟨dc, dm, hcycles, hmem, hx.trans ?_⟩
  obtain ⟨hslots, hlabels⟩ : t.slots = s.slots ∧ t.labels = s.labels := by
    obtain ⟨cause, -, rfl⟩ | ⟨-, rfl⟩ := exec_inv h
    · exact ⟨rfl, rfl⟩
    · exact ⟨(execWrites_launch s i).slots, (execWrites_launch s i).labels⟩
  rw [← hslots, ← hlabels]
  rfl

/-! ### Other scalar registers -/

theorem readX_writeX_self (rd : XReg) (v : Word) (s : State) :
    readX (writeX rd v s) rd = if rd = 0 then 0 else v := by
  rw [readX_writeX]
  by_cases h : rd = 0
  · simp [h, readX_zero]
  · simp [h]

theorem readX_writeX_ne {r rd : XReg} (h : r ≠ rd) (v : Word) (s : State) :
    readX (writeX rd v s) r = readX s r := by
  rw [readX_writeX, if_neg fun hr => h hr.1]

/-- An instruction writes no scalar register but its destination (R21). -/
theorem readX_execWrites {i : Instr} {s : State} {r : XReg} (h : scalarDest i ≠ some r) :
    readX (execWrites s i) r = readX s r := by
  cases i with
  | addi rd rs imm => exact readX_writeX_ne (fun hr => h (congrArg some hr.symm)) _ s
  | add rd rs1 rs2 => exact readX_writeX_ne (fun hr => h (congrArg some hr.symm)) _ s
  | sub rd rs1 rs2 => exact readX_writeX_ne (fun hr => h (congrArg some hr.symm)) _ s
  | mul rd rs1 rs2 => exact readX_writeX_ne (fun hr => h (congrArg some hr.symm)) _ s
  | vsetvl rd rs => exact readX_writeX_ne (fun hr => h (congrArg some hr.symm)) _ (setVl _ s)
  | vmvXS rd vs => exact readX_writeX_ne (fun hr => h (congrArg some hr.symm)) _ s
  | _ => rfl

/-- Two states that differ in the scalar registers alone. -/
def SameButScalars (u u' : State) : Prop :=
  ∀ x : Vector Word Config.NX, { u' with x := x } = { u with x := x }

theorem SameButScalars.writeX {u u' : State} (h : SameButScalars u u') (rd : XReg) (v : Word) :
    SameButScalars (writeX rd v u) (writeX rd v u') := by
  have hdrop (w : State) (x : Vector Word Config.NX) :
      { Machine.writeX rd v w with x := x } = { w with x := x } := by
    unfold Machine.writeX
    split <;> rfl
  exact fun x => by rw [hdrop, hdrop, h x]

theorem SameButScalars.retire {u u' : State} (h : SameButScalars u u') (target : Option Nat) :
    SameButScalars (retire target u) (retire target u') := fun x =>
  congrArg (fun w : State => { w with pc := target.getD (w.pc + 1), cycles := w.cycles + 1 }) (h x)

/-- The writes of an instruction from two register files: the same outside them, and the same word
to its destination. -/
structure ScalarTwin (i : Instr) (u u' : State) : Prop where
  same : SameButScalars u u'
  dest : ∀ rd, scalarDest i = some rd → readX u' rd = readX u rd

theorem scalarTwin_writeX {i : Instr} {u u' : State} {rd : XReg} (hi : scalarDest i = some rd)
    (h : SameButScalars u u') (v : Word) : ScalarTwin i (writeX rd v u) (writeX rd v u') where
  same := h.writeX rd v
  dest r hr := by
    obtain rfl : rd = r := Option.some.inj (hi.symm.trans hr)
    rw [readX_writeX_self, readX_writeX_self]

theorem scalarTwin_of_no_dest {i : Instr} {u u' : State} (hi : scalarDest i = none)
    (h : SameButScalars u u') : ScalarTwin i u u' :=
  ⟨h, fun rd hrd => by simp [hi] at hrd⟩

section OtherScalars
variable {i : Instr} {s : State} {x' : Vector Word Config.NX}

/-- The fault and the target depend on the sources alone. -/
theorem execFault_withScalars
    (h : ∀ r, r ∈ scalarSources i → readX { s with x := x' } r = readX s r) :
    execFault { s with x := x' } i = execFault s i := by
  cases i with
  | vsetvl rd rs =>
    simp only [execFault, signedX, h rs List.mem_cons_self]
    rfl
  | vlw vd offset base =>
    simp only [execFault, effectiveAddress, signedX, h base List.mem_cons_self]
    rfl
  | vsw vs offset base =>
    simp only [execFault, effectiveAddress, signedX, h base List.mem_cons_self]
    rfl
  | vslideupVX vd vs rs =>
    simp only [execFault, signedX, h rs List.mem_cons_self]
    rfl
  | vslidedownVX vd vs rs =>
    simp only [execFault, signedX, h rs List.mem_cons_self]
    rfl
  | _ => rfl

theorem execTarget_withScalars
    (h : ∀ r, r ∈ scalarSources i → readX { s with x := x' } r = readX s r) :
    execTarget { s with x := x' } i = execTarget s i := by
  cases i with
  | beq rs1 rs2 target =>
    simp only [execTarget, branchTaken, h rs1 (by simp [scalarSources]),
      h rs2 (by simp [scalarSources])]
    rfl
  | _ => rfl

/-- The writes depend on the sources alone. -/
theorem execWrites_withScalars
    (h : ∀ r, r ∈ scalarSources i → readX { s with x := x' } r = readX s r) :
    ScalarTwin i (execWrites s i) (execWrites { s with x := x' } i) := by
  have hs : SameButScalars s { s with x := x' } := fun _ => rfl
  cases i with
  | addi rd rs imm =>
    simp only [execWrites, signedX, h rs List.mem_cons_self]
    exact scalarTwin_writeX rfl hs _
  | add rd rs1 rs2 =>
    simp only [execWrites, signedX, h rs1 (by simp [scalarSources]),
      h rs2 (by simp [scalarSources])]
    exact scalarTwin_writeX rfl hs _
  | sub rd rs1 rs2 =>
    simp only [execWrites, signedX, h rs1 (by simp [scalarSources]),
      h rs2 (by simp [scalarSources])]
    exact scalarTwin_writeX rfl hs _
  | mul rd rs1 rs2 =>
    simp only [execWrites, signedX, h rs1 (by simp [scalarSources]),
      h rs2 (by simp [scalarSources])]
    exact scalarTwin_writeX rfl hs _
  | vsetvl rd rs =>
    simp only [execWrites, signedX, h rs List.mem_cons_self]
    have hvl (n : Nat) : SameButScalars (setVl n s) (setVl n { s with x := x' }) := fun _ => rfl
    exact scalarTwin_writeX rfl (hvl _) _
  | vmvXS rd vs => exact scalarTwin_writeX rfl hs _
  | vlw vd offset base =>
    simp only [execWrites, effectiveAddress, signedX, h base List.mem_cons_self]
    exact scalarTwin_of_no_dest rfl fun _ => rfl
  | vsw vs offset base =>
    simp only [execWrites, effectiveAddress, signedX, h base List.mem_cons_self]
    exact scalarTwin_of_no_dest rfl fun _ => rfl
  | vmvSX vd rs =>
    simp only [execWrites, h rs List.mem_cons_self]
    exact scalarTwin_of_no_dest rfl fun _ => rfl
  | vmvVX vd rs =>
    simp only [execWrites, h rs List.mem_cons_self]
    exact scalarTwin_of_no_dest rfl fun _ => rfl
  | vmulVX vd vs rs =>
    simp only [execWrites, signedX, h rs List.mem_cons_self]
    exact scalarTwin_of_no_dest rfl fun _ => rfl
  | vslideupVX vd vs rs =>
    simp only [execWrites, signedX, h rs List.mem_cons_self]
    exact scalarTwin_of_no_dest rfl fun _ => rfl
  | vslidedownVX vd vs rs =>
    simp only [execWrites, signedX, h rs List.mem_cons_self]
    exact scalarTwin_of_no_dest rfl fun _ => rfl
  | _ => exact scalarTwin_of_no_dest rfl fun _ => rfl

end OtherScalars

/-- Settles O10: the fault, the target and the writes depend on the sources alone, and the writes
reach the destination alone. -/
theorem scalarAccessIsTheListed : Obligations.ScalarAccessIsTheListed := by
  intro i s t h
  obtain ⟨c, hc, rfl⟩ | ⟨hc, rfl⟩ := exec_inv h
  · refine ⟨fun r _ => readX_takeFault c s r, fun x' hx' => ?_⟩
    exact ⟨_, exec_of_fault ((execFault_withScalars hx').trans hc), rfl, fun _ ht => by cases ht⟩
  · refine ⟨fun r hr => (readX_retire _ _ r).trans (readX_execWrites hr), fun x' hx' => ?_⟩
    obtain ⟨hsame, hdest⟩ := execWrites_withScalars hx'
    refine ⟨_, exec_of_no_fault ((execFault_withScalars hx').trans hc), ?_, fun _ _ rd hrd => ?_⟩
    · rw [execTarget_withScalars hx']
      exact hsame.retire _ _
    · rw [readX_retire, readX_retire, hdest rd hrd]

end Sys2Proof.Machine
end

section
/-! SUPPORT. The results of the scalar, control, configuration and move instructions
(40_scalar_alu.md, 41_control.md, 42_vector_config.md, 44_vector_move.md). -/

namespace Sys2Proof.Machine

/-! ### One scalar register written -/

theorem writeX_launchKept (rd : XReg) (v : Word) (s : State) : LaunchKept s (writeX rd v s) := by
  constructor <;> simp

/-- What an instruction that writes scalar register `rd` alone does. -/
theorem retire_writeX_result (rd : XReg) (v : Word) {s t : State}
    (ht : t = retire none (writeX rd v s)) :
    RetiredNext s t ∧ readX t rd = (if rd = 0 then 0 else v) ∧
    OtherScalarsKept rd s t ∧ VectorsKept s t ∧ MemoryKept s t ∧ t.vl = s.vl ∧
    t.memAccesses = s.memAccesses := by
  subst ht
  refine ⟨retired_of none (by simp) (by simp) (by simp) (writeX_launchKept rd v s), ?_,
    fun r hr => ?_, fun d k _ => ?_, fun a => ?_, by simp, by simp⟩
  · rw [readX_retire, readX_writeX_self]
  · rw [readX_retire, readX_writeX_ne hr]
  · rw [readLane_retire, readLane_writeX]
  · rw [readCell_retire, readCell_writeX]

/-- Scalar arithmetic: the result reduced to a word, exact where it fits one (R81). -/
theorem aluResult_spec (rd : XReg) (n : Int) (s : State) : ∃ t, aluResult rd n s = .next t ∧
    RetiredNext s t ∧ readX t rd = (if rd = 0 then 0 else wordOf n) ∧
    (rd ≠ 0 → -2147483648 ≤ n → n < 2147483648 → sval (readX t rd) = n) ∧
    OtherScalarsKept rd s t ∧ VectorsKept s t ∧ MemoryKept s t ∧ t.vl = s.vl ∧
    t.memAccesses = s.memAccesses := by
  obtain ⟨hret, hrd, hframe⟩ := retire_writeX_result rd (wordOf n) (s := s) rfl
  refine ⟨_, rfl, hret, hrd, fun hne hlo hhi => ?_, hframe⟩
  rw [hrd, if_neg hne, sval_wordOf hlo hhi]

/-- Settles O36: scalar arithmetic on `x[rs]` and the immediate. -/
theorem addiResult : Obligations.AddiResult := fun rd _ _ s => aluResult_spec rd _ s

/-- Settles O37: scalar arithmetic with the sum. -/
theorem addResult : Obligations.AddResult := fun rd _ _ s => aluResult_spec rd _ s

/-- Settles O38: scalar arithmetic with the difference. -/
theorem subResult : Obligations.SubResult := fun rd _ _ s => aluResult_spec rd _ s

/-- Settles O39: scalar arithmetic with the product. -/
theorem mulResult : Obligations.MulResult := fun rd _ _ s => aluResult_spec rd _ s

/-- Settles O46: one scalar register takes lane 0 (R99). -/
theorem moveLaneToScalarResult : Obligations.MoveLaneToScalarResult := fun rd vs s =>
  ⟨_, rfl, retire_writeX_result rd (readLane s vs 0) rfl⟩

/-! ### Control transfer -/

/-- A retirement without writes. -/
theorem retire_frame (target : Option Nat) {s t : State} (ht : t = retire target s) :
    Retired (target.getD (s.pc + 1)) s t ∧ ScalarsKept s t ∧ VectorsKept s t ∧ MemoryKept s t ∧
      t.vl = s.vl ∧ t.memAccesses = s.memAccesses := by
  subst ht
  exact ⟨retired_of target rfl rfl rfl ⟨rfl, rfl, rfl, rfl, rfl⟩, fun r => readX_retire target s r,
    fun _ _ _ => rfl, fun _ => rfl, rfl, rfl⟩

/-- Settles O40: a retirement that redirects. -/
theorem jumpResult : Obligations.JumpResult := fun target _ =>
  ⟨_, rfl, retire_frame (some target) rfl⟩

theorem branchTaken_iff (s : State) (rs1 rs2 : XReg) :
    branchTaken s rs1 rs2 = true ↔ sval (readX s rs1) = sval (readX s rs2) := by
  rw [branchTaken, decide_eq_true_eq, sval, sval, BitVec.toInt_inj]

/-- Settles O41: equal words have equal signed values, and the retirement redirects on them
alone. -/
theorem branchResult : Obligations.BranchResult := by
  intro rs1 rs2 target s
  obtain ⟨hret, hframe⟩ :=
    retire_frame (if branchTaken s rs1 rs2 then some target else none) (s := s) rfl
  refine ⟨_, rfl, fun heq => ?_, fun hne => ?_, hframe⟩
  · rw [if_pos ((branchTaken_iff s rs1 rs2).2 heq)] at hret ⊢
    exact hret
  · rw [if_neg (mt (branchTaken_iff s rs1 rs2).1 hne)] at hret ⊢
    exact hret

/-! ### Vector configuration -/

theorem decode_vconfig (labels : LabelTable) (line : Nat) (ops : List Operand) :
    decode labels ⟨line, "vconfig".toList, ops⟩ =
      if ops = [] then .ok .vconfig else .error (.badOperands ops.length) := by
  split
  · subst ops
    exact decode_of_spells .vconfig .nil
  · exact decode_of_operandFault (op := .vconfig)
      (operandFault_of_count fun h => ‹ops ≠ []› (List.length_eq_zero_iff.1 h))

/-- Settles O42: a retirement after a write of `vl`; with operands the count check fails. -/
theorem vconfigResult : Obligations.VconfigResult :=
  ⟨fun s => ⟨_, rfl, retired_of none rfl rfl rfl ⟨rfl, rfl, rfl, rfl, rfl⟩, rfl,
    fun r => readX_retire none (setVl _ s) r, fun _ _ _ => rfl, fun _ => rfl, rfl⟩, decode_vconfig⟩

/-- Settles O43: the request clamped goes to `vl` and to `rd`. -/
theorem vsetvlResult : Obligations.VsetvlResult := by
  intro rd rs s
  refine ⟨fun hreq => ?_, fun hneg => ⟨_, exec_of_fault (if_pos hneg), takeFault_faultTaken _ s⟩⟩
  have hmin : ((min Config.VLEN (signedX s rs).toNat : Nat) : Int) =
      min 128 (sval (readX s rs)) := by
    rw [Nat.cast_min, signedX, Int.toNat_of_nonneg hreq]
    rfl
  have hnofault : execFault s (.vsetvl rd rs) = none := if_neg (Int.not_lt.2 hreq)
  obtain ⟨⟨hpc, hcycles, hzero, hfault, hlaunch⟩, hrd, hscalars, hvectors, hmem, hvl, hacc⟩ :=
    retire_writeX_result rd (wordOf ((min Config.VLEN (signedX s rs).toNat : Nat) : Int))
      (s := setVl (min Config.VLEN (signedX s rs).toNat) s) rfl
  refine ⟨_, exec_of_no_fault hnofault, ⟨hpc, hcycles, hzero, hfault, ?_⟩, ?_, ?_, hscalars,
    hvectors, hmem, hacc⟩
  · exact ⟨hlaunch.slots, hlaunch.labels, hlaunch.outCount, hlaunch.csrLoaded,
      hlaunch.programLoaded⟩
  · exact (congrArg Nat.cast hvl).trans hmin
  · refine (congrArg sval hrd).trans ?_
    rw [hmin]
    split
    · rfl
    · exact sval_wordOf (by omega) (by omega)

end Sys2Proof.Machine
end

section
/-! SUPPORT. The results of the vector instructions (43_vector_memory.md, 44_vector_move.md,
45_vector_arith.md). -/

namespace Sys2Proof.Machine

/-! ### Moves and arithmetic -/

/-- Settles O47: a write of lane 0 of one vector register (R100). -/
theorem moveScalarToLaneResult : Obligations.MoveScalarToLaneResult := by
  intro vd rs s
  refine ⟨_, rfl, retire_writeV_retiredNext vd _ s, ?_, fun k hk hlane => ?_,
    retire_writeV_frame vd _ rfl⟩
  · rw [readLane_retire_writeV_same, lane_setLane, if_pos (by decide), if_pos rfl]
  · rw [readLane_retire_writeV_same, lane_setLane, if_pos hlane, if_neg (Nat.ne_of_gt hk), readLane]

/-- Settles O50: a write of every lane of one vector register, whatever `vl` is (R103). -/
theorem vectorAddResult : Obligations.VectorAddResult := by
  intro vd vs1 vs2 s
  refine ⟨_, rfl, retire_writeV_retiredNext vd _ s, fun k hlane => ?_, retire_writeV_frame vd _ rfl⟩
  rw [readLane_retire_writeV_same, lane_ofFn, if_pos hlane, signedLane, signedLane]

/-- Settles O51: a lane-gated write of the products (R104). -/
theorem vectorScaleResult : Obligations.VectorScaleResult := fun vd vs rs s =>
  ⟨_, rfl, retire_writeV_gated vd (fun k => wordOf (signedLane s vs k * signedX s rs)) rfl⟩

/-! ### Slides -/

section Slide
variable {s : State} {rs : XReg} {n : Nat}

theorem slideFault_of_inRange (hn : sval (readX s rs) = n) (hle : n ≤ s.vl) :
    slideFault s (signedX s rs) = none :=
  slideFault_eq_none.2 (by rw [signedX, hn]; omega)

theorem slideFault_of_outOfRange
    (h : sval (readX s rs) < 0 ∨ (s.vl : Int) < sval (readX s rs)) :
    slideFault s (signedX s rs) = some (.slideOutOfRange (sval (readX s rs))) :=
  if_pos h

theorem toNat_signedX (hn : sval (readX s rs) = n) : (signedX s rs).toNat = n := by
  rw [signedX, hn, Int.toNat_natCast]

end Slide

section SlideUpLane
variable {b : Config.SlideupBoundary} {s : State} {vd vs : VReg} {n k : Nat}

theorem slideUpLane_of_lt (h : k < s.vl - n) : slideUpLane b s vd vs n k = readLane s vs (k + n) :=
  if_pos h

theorem slideUpLane_of_gt (h : s.vl - n < k) : slideUpLane b s vd vs n k = 0 := by
  unfold slideUpLane
  rw [if_neg (Nat.lt_asymm h)]
  cases b with
  | natural => rfl
  | reference => exact if_neg (Nat.ne_of_gt h)

/-- The boundary lane under each value of the parameter (R105). -/
theorem slideUpLane_boundary : slideUpLane b s vd vs n (s.vl - n) =
    match b with
    | .natural => 0
    | .reference => readLane s vd (s.vl - n) := by
  unfold slideUpLane
  rw [if_neg (Nat.lt_irrefl _)]
  cases b with
  | natural => rfl
  | reference => exact if_pos rfl

end SlideUpLane

/-- Settles O52: a lane-gated write of the slid lanes, the boundary lane by the OPEN parameter. -/
theorem slideUpResult : Obligations.SlideUpResult := by
  intro vd vs rs s
  refine ⟨fun n hn hle => ?_,
    fun hout => ⟨_, exec_of_fault (slideFault_of_outOfRange hout), takeFault_faultTaken _ s⟩⟩
  have hexec : exec (.vslideupVX vd vs rs) s = .next (retire none (writeV vd
      ((readV s vd).gated s.vl (slideUpLane Config.slideupBoundary s vd vs n)) s)) := by
    rw [← toNat_signedX hn]
    exact exec_of_no_fault (slideFault_of_inRange hn hle)
  obtain ⟨hret, hin, hkept, hframe⟩ := retire_writeV_gated vd
    (slideUpLane Config.slideupBoundary s vd vs n) (s := s) rfl
  refine ⟨_, hexec, hret, fun k hk hlane => ?_, fun k hlo hhi hlane => ?_,
    fun hpos hlane => ?_, hkept, hframe⟩
  · exact (hin k (by omega) hlane).trans (slideUpLane_of_lt hk)
  · exact (hin k hhi hlane).trans (slideUpLane_of_gt hlo)
  · have hboundary := (hin (s.vl - n) (by omega) hlane).trans slideUpLane_boundary
    exact ⟨fun hb => hboundary.trans (by rw [hb]), fun hb => hboundary.trans (by rw [hb])⟩

/-- Settles O53: a lane-gated write of the slid lanes. -/
theorem slideDownResult : Obligations.SlideDownResult := by
  intro vd vs rs s
  refine ⟨fun n hn hle => ?_,
    fun hout => ⟨_, exec_of_fault (slideFault_of_outOfRange hout), takeFault_faultTaken _ s⟩⟩
  have hexec : exec (.vslidedownVX vd vs rs) s = .next (retire none (writeV vd
      ((readV s vd).gated s.vl (slideDownLane s vs n)) s)) := by
    rw [← toNat_signedX hn]
    exact exec_of_no_fault (slideFault_of_inRange hn hle)
  obtain ⟨hret, hin, hkept, hframe⟩ := retire_writeV_gated vd (slideDownLane s vs n) (s := s) rfl
  refine ⟨_, hexec, hret, fun k hlo hk hlane => ?_, fun k hk hlane => ?_, hkept,
    hframe⟩
  · exact (hin k hk hlane).trans (if_neg (Nat.not_lt.2 hlo))
  · exact (hin k (by omega) hlane).trans (if_pos hk)

/-! ### The scatter -/

/-- Lane writes one after another for the indices below `n`, in ascending order. -/
def setLanes (idx : Nat → Nat) (src : Nat → Word) (n : Nat) (old : VecReg) : VecReg :=
  (List.range n).foldl (fun v i => v.setLane (idx i) (src i)) old

theorem setLanes_succ (idx : Nat → Nat) (src : Nat → Word) (n : Nat) (old : VecReg) :
    setLanes idx src (n + 1) old = (setLanes idx src n old).setLane (idx n) (src n) := by
  rw [setLanes, List.range_succ, List.foldl_append]
  rfl

section SetLanes
variable {idx : Nat → Nat} {src : Nat → Word} {n k : Nat} {old : VecReg}

/-- A lane that no index names is kept. -/
theorem lane_setLanes_of_unnamed (hk : k < Config.VLEN) (h : ∀ i, i < n → idx i ≠ k) :
    (setLanes idx src n old).lane k = old.lane k := by
  induction n with
  | zero => rfl
  | succ n ih =>
    rw [setLanes_succ, lane_setLane, if_pos hk, if_neg (h n (by omega)).symm,
      ih fun i hi => h i (by omega)]

/-- A named lane takes the value of the highest index that names it (decision D19). -/
theorem lane_setLanes_of_last {i : Nat} (hi : i < n) (hlane : idx i < Config.VLEN)
    (h : ∀ j, i < j → j < n → idx j ≠ idx i) : (setLanes idx src n old).lane (idx i) = src i := by
  induction n with
  | zero => omega
  | succ n ih =>
    rw [setLanes_succ, lane_setLane, if_pos hlane]
    obtain hin | rfl := Nat.lt_succ_iff_lt_or_eq.1 hi
    · rw [if_neg (h n hin (by omega)).symm, ih hin fun j hj hjn => h j hj (by omega)]
    · rw [if_pos rfl]

end SetLanes

theorem scatter_eq_setLanes (s : State) (vs vidx : VReg) (old : VecReg) : scatter s vs vidx old =
    setLanes (fun i => (signedLane s vidx i).toNat) (readLane s vs) s.vl old := rfl

/-- The scatter check reports the first lane whose index is no lane index (R107). -/
theorem scatterFault_of_first {s : State} {vidx : VReg} {i : Nat} (hi : i < s.vl)
    (hbad : isLaneIndex (sval (readLane s vidx i)) = false)
    (hgood : ∀ j, j < i → isLaneIndex (sval (readLane s vidx j)) = true) :
    scatterFault s vidx = some (.vIndexOutOfRange i (sval (readLane s vidx i))) := by
  have hfind : (List.range s.vl).find? (fun k => !isLaneIndex (signedLane s vidx k)) = some i := by
    rw [List.find?_range_eq_some]
    exact ⟨by simpa [signedLane] using hbad, by simpa using hi,
      fun j hj => by simpa [signedLane] using hgood j hj⟩
  rw [scatterFault, hfind]
  rfl

/-- Settles O54: with every index in range two are equal exactly when they name the same lane, and
the writes go in ascending order. -/
theorem scatterResult : Obligations.ScatterResult := by
  intro vd vs vidx s
  refine ⟨fun hrange => ?_, fun i hi hbad hgood =>
    ⟨_, exec_of_fault (scatterFault_of_first hi hbad hgood), takeFault_faultTaken _ s⟩⟩
  have hnofault : execFault s (.vindexmv vd vs vidx) = none :=
    scatterFault_eq_none.2 fun i hi => (isLaneIndex_iff _).2 (hrange i hi)
  have hlane (k : Nat) :
      readLane (retire none (writeV vd (scatter s vs vidx (readV s vd)) s)) vd k =
        (setLanes (fun i => (signedLane s vidx i).toNat) (readLane s vs) s.vl
          (readV s vd)).lane k := by
    rw [readLane_retire_writeV_same, scatter_eq_setLanes]
  refine ⟨_, exec_of_no_fault hnofault, retire_writeV_retiredNext vd _ s, fun i hi hlast => ?_,
    fun k hk hunnamed => ?_, retire_writeV_frame vd _ rfl⟩
  · refine (hlane _).trans (lane_setLanes_of_last hi ?_ fun j hij hj heq => hlast j hij hj ?_)
    · have := hrange i hi
      simp only [signedLane, Config.VLEN]
      omega
    · have := hrange i hi
      have := hrange j hj
      simp only [signedLane] at heq
      omega
  · refine (hlane k).trans (lane_setLanes_of_unnamed hk fun i hi heq => hunnamed i hi ?_)
    have := hrange i hi
    simp only [signedLane] at heq
    omega

/-! ### Loads and stores -/

theorem transferFault_of_inRange {s : State} {ea : Int}
    (h : ∀ k : Nat, k < s.vl → 0 ≤ ea + k ∧ ea + k < 1024) : transferFault s ea = none :=
  transferFault_eq_none.2 fun k hk => (inMemory_iff _).2 (h k hk)

/-- The range check reports the first missing address (R45). -/
theorem transferFault_of_first {s : State} {ea : Int} {k : Nat} (hk : k < s.vl)
    (hbad : inMemory (ea + k) = false) (hgood : ∀ j : Nat, j < k → inMemory (ea + j) = true) :
    transferFault s ea = some (.memOutOfRange (ea + k)) := by
  rw [transferFault, firstOutOfRange_eq_some.2 ⟨k, hk, rfl, hbad, hgood⟩]
  rfl

theorem retired_countAccesses {next n : Nat} {s t : State} (h : Retired next s t) :
    Retired next s (countAccesses n t) :=
  ⟨h.pc, h.cycles, h.zero, h.fault, h.launch.slots, h.launch.labels, h.launch.outCount,
    h.launch.csrLoaded, h.launch.programLoaded⟩

/-- Settles O44: a lane-gated write of the words read, and `vl` accesses counted. -/
theorem vectorLoadResult : Obligations.VectorLoadResult := by
  intro vd offset base s
  refine ⟨fun hrange => ?_, fun k hk hbad hgood =>
    ⟨_, exec_of_fault (transferFault_of_first hk hbad hgood), takeFault_faultTaken _ s⟩⟩
  have hnofault : execFault s (.vlw vd offset base) = none := transferFault_of_inRange hrange
  obtain ⟨hret, hin, hkept, hscalars, hothers, hmem, hvl, hacc⟩ := retire_writeV_gated vd
    (fun k => (memRead s (effectiveAddress s base offset) s.vl).getD k 0) (s := s) rfl
  refine ⟨_, exec_of_no_fault hnofault, retired_countAccesses hret, fun k hk hlane => ?_, hkept,
    hscalars, hothers, hmem, hvl, rfl⟩
  refine (hin k hk hlane).trans ?_
  rw [List.getD_eq_getElem?_getD, memRead_getElem? s _ hk]
  rfl

theorem readCell_memWrite_inside {s : State} {a : Int} {ws : List Word} (hm : s.mem.wf = true)
    (ha : ∀ k : Nat, k < ws.length → 0 ≤ a + k ∧ a + k < 1024) {k : Nat} (hk : k < ws.length) :
    readCell (memWrite a ws s) (a + k).toNat = ws[k] := by
  have hread := memRead_getElem? (memWrite a ws s) a hk
  rw [memRead_memWrite hm ha, List.getElem?_eq_getElem hk] at hread
  exact (Option.some.inj hread).symm

/-- Settles O45: a write of the active lanes to memory, and `vl` accesses counted. -/
theorem vectorStoreResult : Obligations.VectorStoreResult := by
  intro vs offset base s
  refine ⟨fun hrange => ?_, fun k hk hbad hgood =>
    ⟨_, exec_of_fault (transferFault_of_first hk hbad hgood), takeFault_faultTaken _ s⟩⟩
  have hlen := activeLanes_length s vs
  have hrange' := hlen.symm ▸ hrange
  refine ⟨_, exec_vsw_of_inRange (transferFault_of_inRange hrange),
    retired_of none rfl rfl rfl ⟨rfl, rfl, rfl, rfl, rfl⟩, fun hm k hk => ?_, fun a ha => ?_,
    fun r => readX_retire none _ r, fun _ _ _ => rfl, rfl, rfl⟩
  · refine (readCell_memWrite_inside hm hrange' (hlen.symm ▸ hk)).trans ?_
    simp [activeLanes]
  · exact readCell_memWrite_outside hrange' (by rwa [hlen])

/-- Settles O35: the store keeps the base register and `vl`, so the load reads the stored cells. -/
theorem loadAfterStoreGivesTheStoredLanes : Obligations.LoadAfterStoreGivesTheStoredLanes := by
  intro s vs vd offset base hm hrange
  obtain ⟨t, hstore, hret, hcells, -, hscalars, -, hvl, -⟩ :=
    (vectorStoreResult vs offset base s).1 hrange
  have hload := (vectorLoadResult vd offset base t).1
  rw [hvl, hscalars base] at hload
  obtain ⟨u, hload, hret', hlanes, -⟩ := hload hrange
  exact ⟨t, u, hstore, hload, hret'.fault.trans hret.fault,
    fun k hk hlane => (hlanes k hk hlane).trans (hcells hm k hk)⟩

end Sys2Proof.Machine
end

section
/-! SUPPORT. The host's transactions before the first step (70_reset_and_hazards.md R139 to R142):
when each is accepted and what it does. -/

namespace Sys2Proof.Machine

/-! ### Reset -/

/-- Settles O17: memory and the label table are empty, everything else is 0. -/
theorem resetMeetsInvariant : Obligations.ResetMeetsInvariant where
  vl := Nat.zero_le _
  mem := reset_memory_wf
  zero := rfl
  pc := Nat.le_refl 0
  labels := rfl
  fault := fun _ h => nomatch h

/-- Settles O18: every entry of the register files is the reset word, and memory lists no cell. -/
theorem resetState : Obligations.ResetState := by
  refine ⟨fun r => ?_, fun d k => ?_, fun _ => rfl, rfl, rfl, rfl, rfl, rfl, rfl, rfl⟩
  · simp [readX, State.reset]
  · simp [readLane, readV, VecReg.lane, State.reset]

/-! ### The first step -/

theorem started_eq_true {s : State} : started s = true ↔ s.cycles ≠ 0 ∨ s.fault ≠ none := by
  simp [started, Option.isSome_iff_ne_none]

theorem started_eq_false {s : State} : started s = false ↔ s.cycles = 0 ∧ s.fault = none := by
  simp [started]

/-! ### Loading a program -/

/-- The admission check looks for a slot that does not decode (R79, R80). -/
theorem firstDecodeFault_eq_none {labels : LabelTable} {k : Nat} {slots : List Slot} :
    firstDecodeFault labels k slots = none ↔ (Program.mk slots labels).wf = true := by
  induction slots generalizing k with
  | nil => simp [firstDecodeFault, Program.wf]
  | cons slot rest ih =>
    simp only [firstDecodeFault, Program.wf, List.all_cons] at ih ⊢
    cases decodeFault labels slot with
    | some f => simp
    | none => simpa using ih

section LoadProgram
variable {lines : List Token} {p : Program} {s t : State}

/-- The state with a program loaded (R141). -/
def State.withProgram (p : Program) (s : State) : State :=
  { s with slots := p.slots, labels := p.labels, programLoaded := true }

theorem admitProgram_of_wf (h : p.wf = true) (s : State) :
    admitProgram p s = .next (s.withProgram p) := by
  rw [admitProgram, firstDecodeFault_eq_none.2 h]
  rfl

theorem admitProgram_of_not_wf (h : p.wf = false) (s : State) :
    ∃ k c, admitProgram p s = .refused (.notWellFormed k c) := by
  cases hf : firstDecodeFault p.labels 0 p.slots with
  | none => simp [firstDecodeFault_eq_none.1 hf] at h
  | some f => exact ⟨f.1, f.2, by rw [admitProgram, hf]⟩

theorem loadProgram_of_started (h : started s = true) :
    loadProgram lines s = .refused .afterFirstStep :=
  if_pos h

theorem loadProgram_of_loaded (h : started s = false) (hp : s.programLoaded = true) :
    loadProgram lines s = .refused .programAlreadyLoaded := by
  simp only [loadProgram, h, hp, if_true, Bool.false_eq_true, if_false]

theorem loadProgram_of_error {e : ParseError} (h : started s = false) (hp : s.programLoaded = false)
    (he : assemble lines = .error e) : loadProgram lines s = .refused (.parse e) := by
  simp only [loadProgram, h, hp, he, Bool.false_eq_true, if_false]

theorem loadProgram_of_ok (h : started s = false) (hp : s.programLoaded = false)
    (hok : assemble lines = .ok p) : loadProgram lines s = admitProgram p s := by
  simp only [loadProgram, h, hp, hok, Bool.false_eq_true, if_false]

/-- A program is accepted before the first step, once, when it assembles and is `WF`. -/
theorem loadProgram_eq_next : loadProgram lines s = .next t ↔
    started s = false ∧ s.programLoaded = false ∧
      ∃ p, assemble lines = .ok p ∧ p.wf = true ∧ t = s.withProgram p := by
  cases hs : started s with
  | true => simp [loadProgram_of_started hs]
  | false =>
    cases hp : s.programLoaded with
    | true => simp [loadProgram_of_loaded hs hp]
    | false =>
      cases ha : assemble lines with
      | error e => simp [loadProgram_of_error hs hp ha]
      | ok p =>
        rw [loadProgram_of_ok hs hp ha]
        cases hwf : p.wf with
        | true =>
          rw [admitProgram_of_wf hwf]
          exact ⟨fun h => ⟨rfl, rfl, p, rfl, hwf, (Host.Outcome.next.inj h).symm⟩,
            fun ⟨_, _, q, hq, _, ht⟩ => by cases hq; rw [ht]⟩
        | false =>
          obtain ⟨k, c, hrefused⟩ := admitProgram_of_not_wf hwf s
          simp [hrefused, hwf]

end LoadProgram

/-- Settles O21: one clause for each branch of the load and of the admission check. -/
theorem loadProgramAdmitsExactlyWellFormed : Obligations.LoadProgramAdmitsExactlyWellFormed := by
  intro lines s
  refine ⟨fun h => loadProgram_of_started (started_eq_true.2 h), fun hcycles hfault => ?_⟩
  have hs := started_eq_false.2 ⟨hcycles, hfault⟩
  refine ⟨loadProgram_of_loaded hs, fun hp => ⟨fun t => ?_,
    fun e he => loadProgram_of_error hs hp he, fun p hok hwf => ?_⟩⟩
  · exact loadProgram_eq_next.trans ⟨fun h => h.2.2, fun h => ⟨hs, hp, h⟩⟩
  · rw [loadProgram_of_ok hs hp hok]
    exact admitProgram_of_not_wf hwf s

/-! ### The preload -/

section Preload
variable {p : Preload} {s t : State}

theorem preload_of_started (h : started s = true) : preload p s = .refused .afterFirstStep :=
  if_pos h

theorem preload_of_allowed (h : started s = false) (hp : preloadAllowed p = true) :
    preload p s = .next (preloadEffect p s) := by
  simp only [preload, h, hp, Bool.false_eq_true, if_false, if_true]

theorem preload_of_not_allowed (h : started s = false) (hp : preloadAllowed p = false) :
    preload p s = .refused .noSuchTarget := by
  simp only [preload, h, hp, Bool.false_eq_true, if_false]

theorem preload_eq_next : preload p s = .next t ↔
    started s = false ∧ preloadAllowed p = true ∧ t = preloadEffect p s := by
  cases hs : started s with
  | true => simp [preload_of_started hs]
  | false =>
    cases hp : preloadAllowed p with
    | true => simp [preload_of_allowed hs hp, eq_comm]
    | false => simp [preload_of_not_allowed hs hp]

theorem preloadEffect_controlKept (p : Preload) (s : State) :
    ControlKept s (preloadEffect p s) := by
  cases p with
  | scalar r w =>
    exact ⟨writeX_pc r w s, writeX_vl r w s, writeX_cycles r w s, writeX_memAccesses r w s,
      writeX_fault r w s, writeX_launchKept r w s⟩
  | lane d k w => exact ⟨rfl, rfl, rfl, rfl, rfl, rfl, rfl, rfl, rfl, rfl⟩
  | cell a w => exact ⟨rfl, rfl, rfl, rfl, rfl, rfl, rfl, rfl, rfl, rfl⟩

end Preload

/-- Settles O59: one clause for each kind of write, by the law of the write it makes. -/
theorem preloadWritesOnlyBeforeTheFirstStep : Obligations.PreloadWritesOnlyBeforeTheFirstStep := by
  intro s
  refine ⟨fun h p => preload_of_started (started_eq_true.2 h), fun hcycles hfault => ?_⟩
  have hs := started_eq_false.2 ⟨hcycles, hfault⟩
  refine ⟨fun r w hr => ?_, fun d k w => ?_, fun a w ha => ?_,
    fun w => preload_of_not_allowed hs rfl,
    fun a w ha => preload_of_not_allowed hs (decide_eq_false (Nat.not_lt.2 ha))⟩
  · refine ⟨_, preload_of_allowed hs (decide_eq_true hr), ?_, fun i hi => readX_writeX_ne hi w s,
      fun d k _ => readLane_writeX r w s d k, readCell_writeX r w s,
      preloadEffect_controlKept (.scalar r w) s⟩
    exact (readX_writeX_self r w s).trans (if_neg hr)
  · have hlane (j : Nat) : readLane (preloadEffect (.lane d k w) s) d j =
        ((readV s d).setLane k w).lane j := (readLane_writeV s d d _ j).trans (if_pos rfl)
    refine ⟨_, preload_of_allowed hs rfl, ?_, fun j hj hlt => ?_, fun e he j _ => ?_, fun _ => rfl,
      fun _ => rfl, preloadEffect_controlKept (.lane d k w) s⟩
    · rw [hlane, lane_setLane, if_pos k.isLt, if_pos rfl]
    · rw [hlane, lane_setLane, if_pos hlt, if_neg hj, readLane]
    · exact (readLane_writeV s d e _ j).trans (if_neg he)
  · exact ⟨_, preload_of_allowed hs (decide_eq_true ha),
      fun hm => ⟨Memory.read_write_self w hm, Memory.write_wf w hm ha⟩,
      fun b hb => Memory.read_write_ne s.mem w hb, fun _ => rfl, fun _ _ _ => rfl,
      preloadEffect_controlKept (.cell a w) s⟩

/-! ### When the loader is admitted -/

section Admission
variable {a b : DenseMatrix} {s t : State}

theorem loadCsr_of_refusal {r : Refusal} (h : loaderRefusal a b s = some r) :
    loadCsr a b s = .refused r := by
  rw [loadCsr, loadCsrAt, h]

theorem loadCsr_of_no_refusal (h : loaderRefusal a b s = none) :
    loadCsr a b s = .next (loaderEffect Config.loaderRegs a b s) := by
  rw [loadCsr, loadCsrAt, h]

theorem loadCsr_eq_next : loadCsr a b s = .next t ↔
    loaderRefusal a b s = none ∧ t = loaderEffect Config.loaderRegs a b s := by
  cases h : loaderRefusal a b s with
  | some r => simp [loadCsr_of_refusal h]
  | none => simp [loadCsr_of_no_refusal h, eq_comm]

/-- A matrix the loader takes: rectangular, with entries that fit a word (R139). -/
def DenseMatrix.Loadable (m : DenseMatrix) : Prop := m.rectangular = true ∧ m.fits = true

theorem fitsWord_iff (v : Int) : fitsWord v = true ↔ -2147483648 ≤ v ∧ v < 2147483648 := by
  simp only [fitsWord, Config.IMM_MAX, Bool.and_eq_true, decide_eq_true_eq]
  omega

theorem loadable_iff (m : DenseMatrix) : m.Loadable ↔
    ∀ row, row ∈ m.rows → row.length = m.cols ∧
      ∀ v, v ∈ row → -2147483648 ≤ v ∧ v < 2147483648 := by
  simp only [DenseMatrix.Loadable, DenseMatrix.rectangular, DenseMatrix.fits, List.all_eq_true,
    decide_eq_true_eq, fitsWord_iff]
  exact ⟨fun ⟨hlen, hfit⟩ row hrow => ⟨hlen row hrow, hfit row hrow⟩,
    fun h => ⟨fun row hrow => (h row hrow).1, fun row hrow => (h row hrow).2⟩⟩

/-- The loader's preconditions (R139). -/
theorem loaderRefusal_eq_none : loaderRefusal a b s = none ↔
    started s = false ∧ s.csrLoaded = false ∧ (a.Loadable ∧ b.Loadable) ∧
      loaderEnd a b ≤ Config.MEM_WORDS := by
  unfold loaderRefusal DenseMatrix.Loadable
  cases started s with
  | true => simp
  | false =>
    cases s.csrLoaded with
    | true => simp
    | false =>
      cases a.rectangular <;> cases b.rectangular <;> cases a.fits <;> cases b.fits <;> simp

theorem loaderEnd_eq (a b : DenseMatrix) : loaderEnd a b =
    (csrEncode a).rowPtr.length + (csrEncode a).colIdx.length + (csrEncode a).values.length
      + (csrEncode b.transpose).rowPtr.length + (csrEncode b.transpose).colIdx.length
      + (csrEncode b.transpose).values.length := by
  simp only [loaderEnd, loaderArrays, Csr.arrays, List.cons_append, List.nil_append, List.map_cons,
    List.map_nil, List.length_map, List.sum_cons, List.sum_nil]
  omega

end Admission

/-- Settles O58: the loader's preconditions in the spec's words. -/
theorem loaderIsAdmittedExactlyWhen : Obligations.LoaderIsAdmittedExactlyWhen := by
  intro a b s
  constructor
  · have hnext : (∃ t, loadCsr a b s = .next t) ↔ loaderRefusal a b s = none :=
      ⟨fun ⟨t, h⟩ => (loadCsr_eq_next.1 h).1, fun h => ⟨_, loadCsr_of_no_refusal h⟩⟩
    rw [hnext, loaderRefusal_eq_none, started_eq_false, loaderEnd_eq, loadable_iff, loadable_iff]
    constructor
    · rintro ⟨⟨hcycles, hfault⟩, hcsr, ⟨ha, hb⟩, hsize⟩
      exact ⟨fun m hm => by obtain rfl | rfl := hm <;> assumption, hsize, hcsr, hcycles, hfault⟩
    · rintro ⟨hm, hsize, hcsr, hcycles, hfault⟩
      exact ⟨⟨hcycles, hfault⟩, hcsr, ⟨hm a (.inl rfl), hm b (.inr rfl)⟩, hsize⟩
  · cases h : loaderRefusal a b s with
    | some r => exact .inr ⟨r, loadCsr_of_refusal h⟩
    | none => exact .inl ⟨_, loadCsr_of_no_refusal h⟩

end Sys2Proof.Machine
end

section
/-! SUPPORT. The effect of the loader (70_reset_and_hazards.md R135 to R138): its memory layout and
its registers. -/

namespace Sys2Proof.Machine

/-! ### The memory layout -/

/-- Each word of each copied array stands behind the arrays before it (R136). -/
theorem read_copyArrays_inside {l : List (List Int)} {base k j : Nat} {m : Memory}
    {array : List Int} {v : Int} (hm : m.wf = true)
    (hfit : base + (l.map List.length).sum ≤ Config.MEM_WORDS) (hk : l[k]? = some array)
    (hj : array[j]? = some v) :
    Memory.read (copyArrays base m l) (base + ((l.take k).map List.length).sum + j) = wordOf v := by
  induction l generalizing base k m with
  | nil => cases hk
  | cons a rest ih =>
    rw [List.map_cons, List.sum_cons] at hfit
    cases k with
    | zero =>
      cases hk
      have hlt : j < (array.map wordOf).length := by
        rw [List.length_map]
        exact (List.getElem?_eq_some_iff.1 hj).1
      have hread := Memory.read_writeList_inside (array.map wordOf) (a := base) hm
        (by rw [List.length_map]; omega) hlt
      have hword : (array.map wordOf)[j] = wordOf v := by
        rw [List.getElem_map, (List.getElem?_eq_some_iff.1 hj).2]
      rw [copyArrays, copyArrays_outside _ _ (.inl (by rw [List.length_map] at hlt; simp; omega))]
      exact hread.trans hword
    | succ k =>
      have hrest := ih (base := base + a.length) (k := k)
        (m := Memory.writeList m base (a.map wordOf))
        (Memory.writeList_wf _ hm fun _ => by rw [List.length_map]; omega) (by omega)
        (by simpa using hk)
      rw [copyArrays, List.take_succ_cons, List.map_cons, List.sum_cons, ← Nat.add_assoc]
      exact hrest

theorem transpose_rectangular (b : DenseMatrix) : b.transpose.rectangular = true := by
  simp [DenseMatrix.rectangular, DenseMatrix.transpose]

/-- `Bt[i][j] = B[j][i]` (R135). -/
theorem transpose_entry {b : DenseMatrix} (hb : b.rectangular = true) {i j : Nat}
    {row row' : List Int} (hrow : b.transpose.rows[i]? = some row)
    (hrow' : b.rows[j]? = some row') : row[j]? = row'[i]? := by
  obtain ⟨hi, rfl⟩ : i < b.cols ∧ b.rows.map (fun r => r.getD i 0) = row := by
    simpa [DenseMatrix.transpose, List.getElem?_eq_some_iff] using hrow
  have hlen : i < row'.length := by
    rw [DenseMatrix.length_of_mem hb (List.mem_of_getElem? hrow')]
    exact hi
  simp [hrow', hlen]

/-- Settles O56: the copied arrays of an admitted call fit in memory. -/
theorem loaderLaysOutTheArrays : Obligations.LoaderLaysOutTheArrays := by
  intro a b s t h hm
  obtain ⟨hnone, rfl⟩ := loadCsr_eq_next.1 h
  obtain ⟨-, -, ⟨-, hb, -⟩, hfit⟩ := loaderRefusal_eq_none.1 hnone
  refine ⟨⟨rfl, by simp [DenseMatrix.transpose], transpose_rectangular b,
    fun i j row row' => transpose_entry hb⟩, ?_⟩
  intro arrays harrays
  obtain rfl : arrays = loaderArrays a b := harrays
  have hfit' : 0 + ((loaderArrays a b).map List.length).sum ≤ Config.MEM_WORDS := by
    rwa [Nat.zero_add]
  refine ⟨fun k array j v hk hj => ?_, fun c hc => ?_, copyArrays_wf _ hm hfit'⟩
  · have hread := read_copyArrays_inside hm hfit' hk hj
    rw [Nat.zero_add] at hread
    exact hread
  · exact copyArrays_outside _ _ (.inr (by rwa [Nat.zero_add]))

/-! ### Consecutive register writes -/

theorem val_xReg {n : Nat} (h : n < 32) : (Fin.ofNat 32 n).val = n := Nat.mod_eq_of_lt h

section WriteRegs
variable {l : List Nat} {r : Nat} {s : State}

theorem readX_writeRegs_outside {i : XReg} (hfit : r + l.length ≤ 32)
    (hi : i.val < r ∨ r + l.length ≤ i.val) : readX (writeRegs r s l) i = readX s i := by
  induction l generalizing r s with
  | nil => rfl
  | cons n rest ih =>
    rw [List.length_cons] at hfit hi
    have hne : i ≠ Fin.ofNat Config.NX r := by
      intro h
      have hval : i.val = r := h ▸ val_xReg (by omega)
      omega
    rw [writeRegs, ih (by omega) (by omega), readX_writeX_ne hne]

theorem readX_writeRegs_inside {k n : Nat} (hpos : 1 ≤ r) (hfit : r + l.length ≤ 32)
    (hk : l[k]? = some n) : readX (writeRegs r s l) (Fin.ofNat 32 (r + k)) = wordOf n := by
  induction l generalizing r k s with
  | nil => cases hk
  | cons m rest ih =>
    rw [List.length_cons] at hfit
    cases k with
    | zero =>
      cases hk
      have hval : (Fin.ofNat 32 r).val = r := val_xReg (by omega)
      have hne : Fin.ofNat Config.NX r ≠ 0 := by
        intro h
        have hzero : (Fin.ofNat 32 r).val = 0 := congrArg Fin.val h
        omega
      rw [writeRegs, Nat.add_zero,
        readX_writeRegs_outside (by omega) (.inl (by simp only [Nat.add_zero, hval]; omega))]
      exact (readX_writeX_self _ _ s).trans (if_neg hne)
    | succ k =>
      rw [writeRegs, ← Nat.add_assoc, Nat.add_right_comm]
      exact ih (by omega) (by omega) (by simpa using hk)

end WriteRegs

/-- The bases are the lengths of the arrays before (R136). -/
theorem arrayBases_getElem? {l : List (List Int)} (base : Nat) {k : Nat} (hk : k ≤ l.length) :
    (arrayBases base l)[k]? = some (base + ((l.take k).map List.length).sum) := by
  induction l generalizing base k with
  | nil =>
    obtain rfl : k = 0 := Nat.le_zero.1 hk
    rfl
  | cons a rest ih =>
    cases k with
    | zero => rfl
    | succ k =>
      rw [arrayBases, List.getElem?_cons_succ, ih _ (Nat.le_of_succ_le_succ hk),
        List.take_succ_cons, List.map_cons, List.sum_cons, Nat.add_assoc]

theorem arrayBases_length (base : Nat) (l : List (List Int)) :
    (arrayBases base l).length = l.length + 1 := by
  induction l generalizing base with
  | nil => rfl
  | cons a rest ih => rw [arrayBases, List.length_cons, ih, List.length_cons]

/-! ### The loader's registers -/

section SingleWrite
variable {r : Nat} {s : State} (n : Nat)

theorem readX_writeRegs_single (hpos : 1 ≤ r) (hr : r < 32) :
    readX (writeRegs r s [n]) (Fin.ofNat 32 r) = wordOf n :=
  readX_writeRegs_inside (k := 0) hpos (by rw [List.length_singleton]; omega) rfl

theorem readX_writeRegs_single_ne {i : XReg} (hr : r < 32) (hi : i.val ≠ r) :
    readX (writeRegs r s [n]) i = readX s i :=
  readX_writeRegs_outside (by rw [List.length_singleton]; omega)
    (by rw [List.length_singleton]; omega)

end SingleWrite

section LoaderRegisters
variable (p : Config.LoaderRegs) (a b : DenseMatrix) (s : State)

/-- The writes of the six bases and then the six lengths. -/
def loaderBlock (p : Config.LoaderRegs) (a b : DenseMatrix) (s : State) : State :=
  writeRegs (p.addrReg0 + 6) (writeRegs p.addrReg0 s ((arrayBases 0 (loaderArrays a b)).take 6))
    ((loaderArrays a b).map List.length)

theorem loaderRegisters_eq : loaderRegisters p a b s =
    writeRegs p.cursor (writeRegs p.arows (writeRegs p.acols (loaderBlock p a b s) [a.cols])
      [a.rows.length]) [loaderEnd a b] := rfl

theorem loaderArrays_length : (loaderArrays a b).length = 6 := rfl

theorem bases_length : ((arrayBases 0 (loaderArrays a b)).take 6).length = 6 := by
  rw [List.length_take, arrayBases_length, loaderArrays_length]
  rfl

theorem lengths_length : ((loaderArrays a b).map List.length).length = 6 := rfl

/-- Registers beside the three single ones hold what the block of twelve left. -/
theorem readX_loaderRegisters_block {r : XReg} (hacols : r.val ≠ p.acols) (harows : r.val ≠ p.arows)
    (hcursor : r.val ≠ p.cursor) :
    readX (loaderRegisters p a b s) r = readX (loaderBlock p a b s) r := by
  obtain ⟨-, ⟨-, hacols'⟩, ⟨-, harows'⟩, ⟨-, hcursor'⟩, -⟩ := p.valid
  rw [loaderRegisters_eq, readX_writeRegs_single_ne _ hcursor' hcursor,
    readX_writeRegs_single_ne _ harows' harows, readX_writeRegs_single_ne _ hacols' hacols]

/-- A register of the block is none of the three single ones (R6, R137). -/
theorem readX_loaderRegisters_of_block {r : Nat} (hlo : p.addrReg0 ≤ r)
    (hhi : r < p.addrReg0 + 12) :
    readX (loaderRegisters p a b s) (Fin.ofNat 32 r) =
      readX (loaderBlock p a b s) (Fin.ofNat 32 r) := by
  obtain ⟨⟨-, h20⟩, -, -, -, hacols, harows, hcursor, -⟩ := p.valid
  have hval : (Fin.ofNat 32 r).val = r := val_xReg (by omega)
  exact readX_loaderRegisters_block p a b s (by omega) (by omega) (by omega)

theorem readX_loaderRegisters_base {k : Nat} (hk : k < 6) :
    readX (loaderRegisters p a b s) (Fin.ofNat 32 (p.addrReg0 + k)) =
      wordOf ((((loaderArrays a b).take k).map List.length).sum : Nat) := by
  obtain ⟨⟨h1, h20⟩, -⟩ := p.valid
  have hval : (Fin.ofNat 32 (p.addrReg0 + k)).val = p.addrReg0 + k := val_xReg (by omega)
  have hlen := bases_length a b
  have hbase : ((arrayBases 0 (loaderArrays a b)).take 6)[k]? =
      some (((loaderArrays a b).take k).map List.length).sum := by
    rw [List.getElem?_take_of_lt hk, arrayBases_getElem? 0 (by rw [loaderArrays_length]; omega),
      Nat.zero_add]
  rw [readX_loaderRegisters_of_block p a b s (by omega) (by omega), loaderBlock,
    readX_writeRegs_outside (by rw [lengths_length]; omega) (.inl (by omega)),
    readX_writeRegs_inside h1 (by omega) hbase]

theorem readX_loaderRegisters_length {k : Nat} {array : List Int}
    (hk : (loaderArrays a b)[k]? = some array) :
    readX (loaderRegisters p a b s) (Fin.ofNat 32 (p.addrReg0 + 6 + k)) = wordOf array.length := by
  obtain ⟨⟨h1, h20⟩, -⟩ := p.valid
  have hk6 : k < 6 := (List.getElem?_eq_some_iff.1 hk).1
  rw [readX_loaderRegisters_of_block p a b s (by omega) (by omega), loaderBlock,
    readX_writeRegs_inside (by omega) (by rw [lengths_length]; omega)
      (by rw [List.getElem?_map, hk]; rfl)]

theorem readX_loaderRegisters_cursor :
    readX (loaderRegisters p a b s) (Fin.ofNat 32 p.cursor) = wordOf (loaderEnd a b) := by
  obtain ⟨-, -, -, ⟨hpos, hlt⟩, -⟩ := p.valid
  exact readX_writeRegs_single _ hpos hlt

theorem readX_loaderRegisters_arows :
    readX (loaderRegisters p a b s) (Fin.ofNat 32 p.arows) = wordOf a.rows.length := by
  obtain ⟨-, -, ⟨hpos, hlt⟩, ⟨-, hcursor⟩, -, -, -, -, -, hne⟩ := p.valid
  have hval : (Fin.ofNat 32 p.arows).val = p.arows := val_xReg hlt
  rw [loaderRegisters_eq, readX_writeRegs_single_ne _ hcursor (by omega),
    readX_writeRegs_single _ hpos hlt]

theorem readX_loaderRegisters_acols :
    readX (loaderRegisters p a b s) (Fin.ofNat 32 p.acols) = wordOf a.cols := by
  obtain ⟨-, ⟨hpos, hlt⟩, ⟨-, harows⟩, ⟨-, hcursor⟩, -, -, -, hne, hne', -⟩ := p.valid
  have hval : (Fin.ofNat 32 p.acols).val = p.acols := val_xReg hlt
  rw [loaderRegisters_eq, readX_writeRegs_single_ne _ hcursor (by omega),
    readX_writeRegs_single_ne _ harows (by omega), readX_writeRegs_single _ hpos hlt]

/-- The registers beside the fifteen are kept (R137). -/
theorem readX_loaderRegisters_other {r : XReg}
    (hblock : r.val < p.addrReg0 ∨ p.addrReg0 + 12 ≤ r.val) (hacols : r.val ≠ p.acols)
    (harows : r.val ≠ p.arows) (hcursor : r.val ≠ p.cursor) :
    readX (loaderRegisters p a b s) r = readX s r := by
  obtain ⟨⟨-, h20⟩, -⟩ := p.valid
  have hbases := bases_length a b
  have hlengths := lengths_length a b
  rw [readX_loaderRegisters_block p a b s hacols harows hcursor, loaderBlock,
    readX_writeRegs_outside (by omega) (by omega), readX_writeRegs_outside (by omega) (by omega)]

end LoaderRegisters

theorem started_loaderEffect (p : Config.LoaderRegs) (a b : DenseMatrix) (s : State) :
    started (loaderEffect p a b s) = started s := by
  simp [started, loaderEffect]

/-- After a call every further one is a second call (R139, log entry 9). -/
theorem loadCsr_secondCall {s : State} (a b : DenseMatrix) (hs : started s = false)
    (hcsr : s.csrLoaded = true) : loadCsr a b s = .refused (.loader .secondCall) :=
  loadCsr_of_refusal (by simp only [loaderRefusal, hs, hcsr, Bool.false_eq_true, if_false, if_true])

/-- Settles O57: each register by the write that reaches it last. -/
theorem loaderRecordsTheLayout : Obligations.LoaderRecordsTheLayout := by
  intro a b s t h
  obtain ⟨hnone, rfl⟩ := loadCsr_eq_next.1 h
  obtain ⟨hs, -⟩ := loaderRefusal_eq_none.1 hnone
  have hx (r : XReg) : readX (loaderEffect Config.loaderRegs a b s) r =
      readX (loaderRegisters Config.loaderRegs a b s) r := rfl
  refine ⟨fun arrays harrays => ?_, ?_, ?_, fun r hblock hacols harows hcursor => ?_,
    fun d k _ => ?_, loaderRegisters_vl _ a b s, loaderRegisters_pc _ a b s,
    loaderRegisters_cycles _ a b s, loaderRegisters_memAccesses _ a b s,
    loaderRegisters_fault _ a b s, loaderRegisters_slots _ a b s, loaderRegisters_labels _ a b s,
    loaderRegisters_programLoaded _ a b s, rfl, rfl, fun a' b' => loadCsr_secondCall a' b' (by rw [started_loaderEffect, hs]) rfl⟩
  · obtain rfl : arrays = loaderArrays a b := harrays
    refine ⟨fun k array hk => ⟨?_, ?_⟩, ?_⟩
    · rw [hx]
      exact readX_loaderRegisters_base _ a b s (List.getElem?_eq_some_iff.1 hk).1
    · rw [hx]
      exact readX_loaderRegisters_length _ a b s hk
    · rw [hx]
      exact readX_loaderRegisters_cursor _ a b s
  · rw [hx]
    exact readX_loaderRegisters_acols _ a b s
  · rw [hx]
    exact readX_loaderRegisters_arows _ a b s
  · rw [hx]
    exact readX_loaderRegisters_other _ a b s hblock hacols harows hcursor
  · exact readLane_congr (loaderRegisters_vr _ a b s) d k

/-! ### The boot -/

/-- Settles O13: the writes of an instruction and the host's three transactions, one by one. -/
theorem lengthIsSetOnlyByConfiguration : Obligations.LengthIsSetOnlyByConfiguration := by
  refine ⟨fun i s t h hset => ?_, fun i s t h hvl => ?_, fun a b s t h => ?_, fun p s t h => ?_,
    fun lines s t h => ?_⟩
  · obtain ⟨c, -, rfl⟩ | ⟨-, rfl⟩ := exec_inv h
    · rfl
    · exact execWrites_vl s hset
  · obtain ⟨c, -, rfl⟩ | ⟨target, u, rfl, hu, -⟩ := exec_cases h
    · exact hvl
    · exact hu.vl_le hvl
  · obtain ⟨-, rfl⟩ := loadCsr_eq_next.1 h
    exact loaderRegisters_vl _ a b s
  · obtain ⟨-, -, rfl⟩ := preload_eq_next.1 h
    exact (preloadEffect_controlKept p s).vl
  · obtain ⟨-, -, p, -, -, rfl⟩ := loadProgram_eq_next.1 h
    rfl

/-- What holds before the program is loaded, from reset on, whatever the loader and the preloads
write. -/
structure PreLaunch (s : State) : Prop where
  mem : s.mem.wf = true
  zero : s.x[0] = 0
  vl : s.vl = 0
  pc : s.pc = 0
  cycles : s.cycles = 0
  memAccesses : s.memAccesses = 0
  fault : s.fault = none

theorem preLaunch_reset : PreLaunch State.reset := ⟨reset_memory_wf, rfl, rfl, rfl, rfl, rfl, rfl⟩

/-- No write reaches the stored register 0. -/
theorem writeX_x_zero (i : XReg) (v : Word) (s : State) : (writeX i v s).x[0] = s.x[0] := by
  rw [writeX]
  split
  · rfl
  · have hne : i.val ≠ 0 := fun h => ‹i ≠ 0› (Fin.ext h)
    exact Vector.getElem_set_ne (h := hne) (hi := i.isLt) (hj := by decide)

theorem writeRegs_x_zero (l : List Nat) (r : Nat) (s : State) :
    (writeRegs r s l).x[0] = s.x[0] := by
  induction l generalizing r s with
  | nil => rfl
  | cons n rest ih => rw [writeRegs, ih, writeX_x_zero]

namespace PreLaunch
variable {s t : State}

theorem after_loadCsr {a b : DenseMatrix} (hs : PreLaunch s) (h : loadCsr a b s = .next t) :
    PreLaunch t := by
  obtain ⟨hnone, rfl⟩ := loadCsr_eq_next.1 h
  obtain ⟨-, -, -, hfit⟩ := loaderRefusal_eq_none.1 hnone
  obtain ⟨hmem, hzero, hvl, hpc, hcycles, hacc, hfault⟩ := hs
  refine ⟨copyArrays_wf _ hmem (by rwa [Nat.zero_add]), ?_, (loaderRegisters_vl _ a b s).trans hvl,
    (loaderRegisters_pc _ a b s).trans hpc, (loaderRegisters_cycles _ a b s).trans hcycles,
    (loaderRegisters_memAccesses _ a b s).trans hacc, (loaderRegisters_fault _ a b s).trans hfault⟩
  simp [loaderEffect, loaderRegisters, writeRegs_x_zero, hzero]

theorem after_preload {p : Preload} (hs : PreLaunch s) (h : preload p s = .next t) :
    PreLaunch t := by
  obtain ⟨-, hallowed, rfl⟩ := preload_eq_next.1 h
  obtain ⟨hpc, hvl, hcycles, hacc, hfault, -⟩ := preloadEffect_controlKept p s
  refine ⟨?_, ?_, hvl.trans hs.vl, hpc.trans hs.pc, hcycles.trans hs.cycles,
    hacc.trans hs.memAccesses, hfault.trans hs.fault⟩
  · cases p with
    | scalar r w => simpa [preloadEffect] using hs.mem
    | lane d k w => exact hs.mem
    | cell a w => exact Memory.write_wf w hs.mem (of_decide_eq_true hallowed)
  · cases p with
    | scalar r w => exact (writeX_x_zero r w s).trans hs.zero
    | lane d k w => exact hs.zero
    | cell a w => exact hs.zero

theorem after_preloads {writes : List Preload} (hs : PreLaunch s)
    (h : preloads writes s = .next t) : PreLaunch t := by
  induction writes generalizing s with
  | nil =>
    cases h
    exact hs
  | cons p rest ih =>
    rw [preloads] at h
    cases hp : preload p s with
    | next u =>
      rw [hp] at h
      exact ih (hs.after_preload hp) h
    | fault r => rw [hp] at h; cases h
    | refused r => rw [hp] at h; cases h

/-- An accepted program gives an admitted state at its first instruction: the assembler binds every
label within the program (R62). -/
theorem admitted {lines : List Token} (hs : PreLaunch s) (h : loadProgram lines s = .next t) :
    PreLaunch t ∧ Admitted t ∧ assemble lines = .ok t.program := by
  obtain ⟨-, -, p, hok, hwf, rfl⟩ := loadProgram_eq_next.1 h
  obtain ⟨hmem, hzero, hvl, hpc, hcycles, hacc, hfault⟩ := hs
  have hinv : Inv (s.withProgram p) := {
    vl := by simp [State.withProgram, hvl]
    mem := hmem
    zero := hzero
    pc := by simp [State.withProgram, hpc]
    labels := (assemble_labelsWf hok).within
    fault := fun r hr => by simp [State.withProgram, hfault] at hr }
  exact ⟨⟨hmem, hzero, hvl, hpc, hcycles, hacc, hfault⟩, ⟨hinv, hwf⟩, hok⟩

end PreLaunch

/-- A sequence of two transactions that is accepted: both are. -/
theorem sequence_eq_next {o : Host.Outcome State Fault Refusal}
    {f : State → Host.Outcome State Fault Refusal} {t : State}
    (h : (match o with
      | .fault r => Host.Outcome.fault r
      | .refused r => Host.Outcome.refused r
      | .next s => f s) = .next t) : ∃ s, o = .next s ∧ f s = .next t := by
  cases o with
  | next s => exact ⟨s, rfl, h⟩
  | fault r => cases h
  | refused r => cases h

/-- An accepted boot ran its parts one after another (R141). -/
theorem boot_eq_next {matrices : Option (DenseMatrix × DenseMatrix)} {writes : List Preload}
    {lines : List Token} {s : State} (h : boot matrices writes lines = .next s) :
    ∃ s1 s2, (s1 = State.reset ∨ ∃ a b, loadCsr a b State.reset = .next s1) ∧
      preloads writes s1 = .next s2 ∧ loadProgram lines s2 = .next s := by
  obtain ⟨s1, h1, hrest⟩ := sequence_eq_next h
  obtain ⟨s2, hpre, hload⟩ := sequence_eq_next hrest
  refine ⟨s1, s2, ?_, hpre, hload⟩
  cases matrices with
  | none =>
    cases h1
    exact .inl rfl
  | some m => exact .inr ⟨m.1, m.2, h1⟩

/-- Settles O20: the loader and the preloads keep what holds at reset, and the program adds the
rest. -/
theorem bootGivesAdmittedState : Obligations.BootGivesAdmittedState := by
  intro matrices writes lines s h
  obtain ⟨s1, s2, h1, hpre, hload⟩ := boot_eq_next h
  have hs1 : PreLaunch s1 := by
    obtain rfl | ⟨a, b, hcsr⟩ := h1
    · exact preLaunch_reset
    · exact preLaunch_reset.after_loadCsr hcsr
  obtain ⟨hs, hadmitted, hprogram⟩ := (hs1.after_preloads hpre).admitted hload
  exact ⟨hadmitted, hprogram, hs.pc, hs.vl, hs.cycles, hs.memAccesses, hs.fault⟩

end Sys2Proof.Machine
end
